-- ==== Sys2Proof/Word.lean ====
section
/-! DEFINITION. Word types of the T2W engine (spec 00 R10, 30 R70). -/

namespace Sys2Proof

/-- A request operand: `OPER_W` = 32 bits (00 R9). -/
abbrev Word := BitVec 32

/-- A byte sent on the bus, or a segment pattern (00 R10). -/
abbrev Byte := BitVec 8

/-- A bit on a line or in a driver register (00 R10). -/
abbrev Bit := Bool

/-- A request as the host presents it: `op:A:B` (30 R70). -/
abbrev RequestWord := BitVec 68

end Sys2Proof
end

