-- ==== Sys2Proof/Config.lean ====
section
/-! DEFINITION. Parameters of the block (spec 00 R9, 92 section 2) and the free values. An OPEN parameter is a
constant without a body: nothing proved can rest on its value [log 6, 7, 8, 23, 24]. -/

namespace Sys2Proof

/-- `NUM_LINES - 2`, OPEN (00 R9). -/
opaque Config.numLinesExtra : Nat

/-- `NUM_LINES`, the number of selectable lines: OPEN, at least 2 (00 R9). -/
def Config.numLines : Nat := Config.numLinesExtra + 2

/-- `LINE_ID_W = max(1, ceil(log2(NUM_LINES)))` (00 R9). -/
def Config.lineIdWidth : Nat := max 1 (Nat.clog 2 Config.numLines)

/-- Numerator of `T_SETTLE - 20` in microseconds, OPEN (00 R9). -/
opaque Config.settleExtraNum : Nat

/-- Denominator less 1 of `T_SETTLE - 20`, OPEN (00 R9). -/
opaque Config.settleExtraDen : Nat

/-- `T_SETTLE` in microseconds: OPEN, at least 20 (00 R9, 70 R228). -/
def Config.tSettle : Rat := 20 + (Config.settleExtraNum : Rat) / ((Config.settleExtraDen : Rat) + 1)

/-- Numerator less 1 of `F_SYS` in MHz, OPEN (00 R9). -/
opaque Config.fSysNum : Nat

/-- Denominator less 1 of `F_SYS` in MHz, OPEN (00 R9). -/
opaque Config.fSysDen : Nat

/-- `F_SYS` in MHz: OPEN, positive (00 R9, 92 section 2). -/
def Config.fSys : Rat := ((Config.fSysNum : Rat) + 1) / ((Config.fSysDen : Rat) + 1)

/-- `SETTLE_CYCLES = ceil(T_SETTLE * F_SYS)` (00 R9). -/
def Config.settleCycles : Nat := (Config.tSettle * Config.fSys).ceil.toNat

/-- `STEP_OVERHEAD`: OPEN (00 R9, 70 R234). -/
opaque Config.stepOverhead : Nat

/-- Free value behind `Config.overheadAt`. -/
opaque Config.overheadFree : Nat → Nat → Nat

/-- Cycles a step takes beyond its wait: free, at most `STEP_OVERHEAD` (70 R234). Its arguments (cycles passed, index in
the step list) only make the value fresh at each step. -/
def Config.overheadAt (cycles aidx : Nat) : Nat := Config.overheadFree cycles aidx % (Config.stepOverhead + 1)

/-- `CLK_UNDRIVEN`: the level of CLK while the engine does not drive it; it may change from one observation to the next
(10 R25, 92 section 2). -/
opaque Config.clkUndriven : Nat → Bool

/-- `OLD_LINE_LEVEL`: the level of a line the engine does not drive, by observation and line id (10 R45). -/
opaque Config.oldLineLevel : Nat → Word → Bool

/-- The environment draw (00 R14): whether the receiver pulls DIO low at an observation. -/
opaque Config.dioPull : Nat → Bool

/-- `NUM_POSITIONS` (00 R9). -/
def Config.numPositions : Nat := 4

/-- `BRIGHT_MAX` (00 R9). -/
def Config.brightMax : Int := 7

/-- `VALUE_MAX` (00 R9). -/
def Config.valueMax : Int := 9999

end Sys2Proof
end

