-- ==== Sys2Proof/Syntax.lean ====
section
/-! DEFINITION. Instructions: one constructor per row of spec/opcode_table.json, with operands as 30 R72 decodes them. -/

namespace Sys2Proof

/-- The eleven requests (30 R71), the five reserved op codes (30 R74) and the five bus byte formats (30 R78 to R83). -/
inductive Instr where
  /-- `CONFIGURE clk_id, dio_id`; line ids are unsigned integers (40 R110, 30 R72). -/
  | configure (clkId dioId : Nat)
  /-- `START` (40 R113). -/
  | start
  /-- `STOP` (40 R115). -/
  | stop
  /-- `WRITE_BIT bit` (40 R117). -/
  | writeBit (bit : Bit)
  /-- `WRITE_BYTE byte` (40 R120). -/
  | writeByte (byte : Byte)
  /-- `WRITE_COMMAND byte` (40 R123). -/
  | writeCommand (byte : Byte)
  /-- `INITIALIZE clk_id, dio_id` (41 R140). -/
  | initializeDisplay (clkId dioId : Nat)
  /-- `SET_BRIGHTNESS level`; the level is a signed integer (41 R143). -/
  | setBrightness (level : Int)
  /-- `DISPLAY_DIGIT position, digit`; both signed integers (41 R146). -/
  | displayDigit (position digit : Int)
  /-- `DISPLAY_NUMBER value`; a signed integer (41 R150). -/
  | displayNumber (value : Int)
  /-- `CLEAR_DISPLAY` (41 R153). -/
  | clearDisplay
  /-- Reserved op code 0x0 (60 R201). -/
  | reserved0
  /-- Reserved op code 0x7 (60 R201). -/
  | reserved7
  /-- Reserved op code 0xD (60 R201). -/
  | reservedD
  /-- Reserved op code 0xE (60 R201). -/
  | reservedE
  /-- Reserved op code 0xF (60 R201). -/
  | reservedF
  /-- Bus command byte `DATA_AUTO`, 0x40 (30 R80). -/
  | dataAuto
  /-- Bus command byte `DATA_FIXED`, 0x44 (30 R80). -/
  | dataFixed
  /-- Bus command byte `ADDR(pos)`, 0xC0 + pos (30 R81). -/
  | addr (pos : BitVec 2)
  /-- Bus command byte `DISPLAY_CTRL | level` (30 R82). -/
  | displayCtrl (level : BitVec 3)
  /-- Bus data byte: a segment pattern (30 R83). -/
  | segmentData (pattern : Byte)
  deriving DecidableEq, Repr

/-- What the decoder is given. A bus byte is a command or a data byte by its place in the frame, never by its value
(30 R78), so the place is part of the code. -/
inductive Code where
  /-- A request word on the request port (30 R70). -/
  | request (w : RequestWord)
  /-- A bus byte at the first place of a frame (`BUSCMD`, 30 R78). -/
  | command (b : Byte)
  /-- A bus byte after an address command (`BUSDATA`, 30 R78). -/
  | data (b : Byte)
  deriving DecidableEq, Repr

/-- Why a code decodes to no instruction. -/
inductive DecodeError where
  /-- A command byte outside the source's table (30 R84). -/
  | unknownCommand (b : Byte)
  deriving DecidableEq, Repr

end Sys2Proof
end

