-- ==== Sys2Proof/Machine/State.lean ====
section
/-! DEFINITION. The state of the machine: the engine (spec 10), the bus and the receivers (42), the host's inputs (10 R21,
70 R236), and the outcomes of a step. -/

namespace Sys2Proof.Machine

/-- The line drivers (10 R25, R26). -/
structure Lines where
  /-- 1: the engine drives CLK. -/
  clkOe : Bit
  /-- The level driven on CLK. -/
  clkO : Bit
  /-- 1: output mode; 0: DIO released. -/
  dioOe : Bit
  /-- The level driven on DIO in output mode. -/
  dioLatch : Bit
  deriving DecidableEq, Repr

/-- The line action alphabet (40 R100). -/
inductive LineAction where
  | clkSet (v : Bit)
  | dioLow
  | dioHigh
  | dioRelease
  | dioRestore
  deriving DecidableEq, Repr

/-- Internal updates `U(f)` (40 R104): the shift register and bit counter of 10 R29 [log 18], and the last step of
`WRITE_BYTE` (40 R120). -/
inductive Update where
  /-- `shreg <- b; bitcnt <- 0`. -/
  | loadShift (b : Byte)
  /-- `shreg <- shreg >> 1; bitcnt <- bitcnt + 1`. -/
  | shiftBit
  /-- `ack_o <- ack`. -/
  | latchAck
  deriving DecidableEq, Repr

/-- An entry of the step list (10 R28, 40 R104). -/
inductive PStep where
  | act (a : LineAction)
  | wait
  | sample
  | update (u : Update)
  | bind (clkId dioId : Word)
  deriving DecidableEq, Repr

/-- An entry of the trace (00 R12, R13). -/
inductive TraceEntry where
  | ev (a : LineAction) (clk dio : Bit)
  | w
  | s (b : Bit)
  | bind (clkId dioId : Word)
  deriving DecidableEq, Repr

/-- `rx_phase` (42 R171). -/
inductive Phase where
  | idle
  | frame
  deriving DecidableEq, Repr

/-- A frame as the framing decoder delivers it (42 R175). `acked` is the model's own: every ACK slot of it read 0 [log 13]. -/
structure Frame where
  bytes : List Byte
  complete : Bool
  acked : Bool
  deriving DecidableEq, Repr

/-- The framing decoder (42 R170, R171). `nbits` is the length of `bits`. -/
structure Decoder where
  phase : Phase
  /-- Bits committed since the last byte boundary, first one first. -/
  bits : List Bit
  /-- Completed bytes of the current frame. -/
  bytes : List Byte
  /-- Every ACK slot of the current frame read 0 (the model's own [log 13]). -/
  acked : Bool
  /-- The DIO level at the last CLK rising edge. -/
  hiSample : Bit
  /-- DIO changed since that edge while CLK was high. -/
  hiDirty : Bool
  /-- The last bus pair `(clk_bus, dio_bus)`; none before the first of these lines. -/
  prev : Option (Bit × Bit)
  deriving DecidableEq, Repr

/-- The decoder's start: IDLE, no pair seen. 42 R171 says so of a decoder on bound lines. At reset, before any binding, it is
the model's choice too: 10 R36 counts `rx_phase` among the elements unknown at power-on [log 12]. -/
def Decoder.start : Decoder :=
  { phase := .idle, bits := [], bytes := [], acked := true, hiSample := false, hiDirty := false, prev := none }

/-- `rx_mode` when known (42 R180). -/
inductive AddrMode where
  | auto
  | fixed
  deriving DecidableEq, Repr

/-- `rx_ctrl` when known: display on, and its level (42 R180, R184). -/
structure DisplayCtrl where
  on : Bool
  level : BitVec 3
  deriving DecidableEq, Repr

/-- The state of a reference receiver (42 R180). `none` is the spec's unknown value ("⊤, any value"). -/
structure Rx where
  mode : Option AddrMode
  disp0 : Option Byte
  disp1 : Option Byte
  disp2 : Option Byte
  disp3 : Option Byte
  ctrl : Option DisplayCtrl
  deriving DecidableEq, Repr

/-- Every element unknown: power-on (42 R180), and after a frame the receiver does not define (42 R186). -/
def Rx.top : Rx := { mode := none, disp0 := none, disp1 := none, disp2 := none, disp3 := none, ctrl := none }

/-- A pair of line ids: a receiver belongs to one (42 R180). -/
structure LinePair where
  clk : Word
  dio : Word
  deriving DecidableEq, Repr

/-- The states of the receivers, sorted by pair of lines; a pair not listed is at `Rx.top` [log 19]. -/
abbrev Receivers := List (LinePair × Rx)

/-- What answers a released DIO (00 R14, 42 R176, R181; 95 "no receiver") [log 5]. -/
inductive ReceiverKind where
  /-- No receiver: every draw is 1. -/
  | absent
  /-- The reference receiver's acknowledgment (42 R181). -/
  | reference
  /-- Any receiver that keeps 42 R176; its pulls are free values. -/
  | lawful
  /-- Any receiver at all; where it breaks 42 R176 assumption 1 or 3 the machine faults (60 R206). -/
  | rogue
  deriving DecidableEq, Repr

/-- What the host does next on the request port (70 R236) [log 3]. -/
inductive HostMove where
  /-- Offer a request and hold it until accepted (70 R231). -/
  | offer (op : BitVec 4) (a b : Word)
  /-- Leave `req_valid` at 0 for one step in which the engine is ready. -/
  | pause
  deriving DecidableEq, Repr

/-- The digit registers `dig[0..3]` (10 R29, 41 R151). -/
structure Digits where
  d0 : BitVec 4
  d1 : BitVec 4
  d2 : BitVec 4
  d3 : BitVec 4
  deriving DecidableEq, Repr

/-- The machine: engine, bus, receivers and the host's inputs. -/
structure State where
  /-- A binding has been made (10 R23). -/
  bound : Bool
  /-- `clk_sel` (10 R23) [log 25]. -/
  clkSel : Word
  /-- `dio_sel` (10 R23) [log 25]. -/
  dioSel : Word
  /-- `clk_oe`, `clk_o`, `dio_oe`, `dio_latch` (10 R25, R26). -/
  lines : Lines
  /-- A request is in progress (10 R28). -/
  busy : Bool
  /-- `op_l`, the op code latched at acceptance (10 R28). -/
  opL : BitVec 4
  /-- `a_l` (10 R28). -/
  aL : Word
  /-- `b_l` (10 R28). -/
  bL : Word
  /-- The remaining steps of the request (10 R28). -/
  prog : List PStep
  /-- The index of the next step (10 R28, R33). -/
  aidx : Nat
  /-- `wait_cnt`, cycles left in the current settle wait (10 R28, 60 R211). -/
  waitCnt : Nat
  /-- A byte of this request went unacknowledged (10 R28). -/
  reqNack : Bool
  /-- Shift source of the byte write (10 R29). -/
  shreg : Byte
  /-- Bit counter of the byte write (10 R29). -/
  bitcnt : BitVec 4
  /-- Digit registers (10 R29). -/
  dig : Digits
  /-- Status bit 2, LAST_ACK (10 R30, R32). -/
  lastAck : Bool
  /-- Status bit 3, NACK (10 R30). -/
  nack : Bool
  /-- Status bit 4, REJECTED (10 R30). -/
  rejected : Bool
  /-- Status bit 5, ILLEGAL (10 R30). -/
  illegal : Bool
  /-- Status bit 6, UNBOUND (10 R30). -/
  unbound : Bool
  /-- `ack_o` (10 R21). -/
  ackO : Bool
  /-- `done`, high for one cycle (10 R21). -/
  done : Bool
  /-- The trace (00 R13) [log 28]. -/
  trace : List TraceEntry
  /-- The framing decoder on the bound lines (42 R171). -/
  dec : Decoder
  /-- The frames delivered so far (42 R175, 70 R238) [log 28]. -/
  delivered : List Frame
  /-- The bytes of a delivered frame that the receiver has not taken yet (the model's own [log 15]). -/
  rxInbox : Option (List Byte)
  /-- The position the frame's address byte named (the model's own [log 15]). -/
  rxAddr : Option (BitVec 2)
  /-- The receivers' states (10 R36, 42 R180). -/
  receivers : Receivers
  /-- Which kind of receiver is on the bus (the model's own [log 5]). -/
  receiver : ReceiverKind
  /-- The host's coming moves (the model's own [log 3]). -/
  hostMoves : List HostMove
  /-- The level of `rst` on the coming steps, low after the last (the model's own [log 4]). -/
  rstIn : List Bool
  /-- Bus observations made so far: the index of the free values (the model's own [log 6]). -/
  obs : Nat
  /-- `clk_sys` cycles passed (the model's own [log 24]). -/
  cycles : Nat
  deriving DecidableEq, Repr

/-- The line drivers at reset (10 R40) [log 22]. -/
def Lines.reset : Lines := { clkOe := false, clkO := true, dioOe := false, dioLatch := true }

/-- The machine after reset: 10 R40 for the block, the clean entry of 70 R237 for the rest
[log 5, 17]. The decoder stands in IDLE before there are lines for it, where 10 R36 leaves `rx_phase` unknown [log 12]. -/
def State.reset : State :=
  { bound := false, clkSel := 0#32, dioSel := 0#32, lines := Lines.reset
    busy := false, opL := 0#4, aL := 0#32, bL := 0#32, prog := [], aidx := 0, waitCnt := 0, reqNack := false
    shreg := 0#8, bitcnt := 0#4, dig := ⟨0#4, 0#4, 0#4, 0#4⟩
    lastAck := false, nack := false, rejected := false, illegal := false, unbound := false
    ackO := false, done := false
    trace := [], dec := Decoder.start, delivered := [], rxInbox := none, rxAddr := none
    receivers := [], receiver := .lawful
    hostMoves := [], rstIn := [], obs := 0, cycles := 0 }

/-- The reject reasons (60 R200): normal outcomes, no faults. -/
inductive Reject where
  | range
  | illegal
  | unbound
  deriving DecidableEq, Repr

/-- Why the machine stops for good (60 R206). Only a `rogue` receiver can cause either. -/
inductive Fault where
  /-- `EnvContention`: the receiver pulls DIO low while the engine drives it (93 U7). Raised by a line action's or a
  sample's observation; safe: the block itself would go on. -/
  | envContention
  /-- `EnvSpuriousCondition`: DIO changes while CLK is high, other than by the engine's own actions (93 U8). Raised by a
  line action's or a sample's observation; safe: the block itself would go on. -/
  | envSpuriousCondition
  deriving DecidableEq, Repr

/-- Why the model has no meaning for an instruction. -/
inductive Refusal where
  /-- The dispatcher's answer for an instruction without a meaning; safe. No arm uses it. -/
  | notModelled (mnemonic : String)
  deriving DecidableEq, Repr

/-- The outcome of a step or of an instruction. -/
abbrev Result := Host.Outcome State Fault Refusal

/-- What a step finds to do. -/
inductive Fetched where
  /-- Run this instruction in this state. -/
  | instr (i : Instr) (s : State)
  /-- No instruction starts; the step is this. -/
  | go (r : Result)

end Sys2Proof.Machine
end

