-- ==== Sys2Proof/Machine/Ops.lean ====
section
/-! DEFINITION. Named operations over the line drivers, the receivers' store and the request state: acceptance (spec 40
R105), the one shared reject (60 R200), and the completion of a request. -/

namespace Sys2Proof.Machine

/-- The next operation runs in the state the first one gives; a fault or refusal stops. -/
def andThen (r : Result) (f : State → Result) : Result :=
  match r with
  | .next s => f s
  | .fault e => .fault e
  | .refused e => .refused e

/-- The state of a next outcome. -/
def nextState (r : Result) : Option State :=
  match r with
  | .next s => some s
  | .fault _ => none
  | .refused _ => none

/-- The effect of a line action on the drivers (40 R100). -/
def applyAction (a : LineAction) (l : Lines) : Lines :=
  match a with
  | .clkSet v => { l with clkOe := true, clkO := v }
  | .dioLow => { l with dioOe := true, dioLatch := false }
  | .dioHigh => { l with dioOe := true, dioLatch := true }
  | .dioRelease => { l with dioOe := false }
  | .dioRestore => { l with dioOe := true }

/-- Stop driving both lines (40 R104 `Bd`, 70 R221). -/
def undrive (l : Lines) : Lines := { l with clkOe := false, dioOe := false }

/-- The CLK bus level at observation `obs` (10 R25). -/
def clkBus (l : Lines) (obs : Nat) : Bit := if l.clkOe then l.clkO else Config.clkUndriven obs

/-- The order of line pairs in the receivers' store. -/
def pairKey (p : LinePair) : Nat := p.clk.toNat * 2 ^ 32 + p.dio.toNat

/-- The receiver on a pair of lines; one not listed is wholly unknown (42 R180). -/
def lookupRx : Receivers → LinePair → Rx
  | [], _ => Rx.top
  | (q, x) :: m, p => if q = p then x else lookupRx m p

/-- Write the receiver of a pair, keeping the canonical form: sorted, nothing wholly unknown listed. -/
def storeRx : Receivers → LinePair → Rx → Receivers
  | [], p, r => if r = Rx.top then [] else [(p, r)]
  | (q, x) :: m, p, r =>
    if pairKey p < pairKey q then (if r = Rx.top then (q, x) :: m else (p, r) :: (q, x) :: m)
    else if q = p then (if r = Rx.top then m else (p, r) :: m)
    else (q, x) :: storeRx m p r

/-- The canonical form of the receivers' store. -/
def receiversWf : Receivers → Bool
  | [] => true
  | (q, x) :: m => decide (x ≠ Rx.top) && m.all (fun e => decide (pairKey q < pairKey e.1)) && receiversWf m

/-- The bound pair of lines. -/
def boundPair (s : State) : LinePair := { clk := s.clkSel, dio := s.dioSel }

/-- The state of the receiver on the bound lines. -/
def rxOf (s : State) : Rx := lookupRx s.receivers (boundPair s)

/-- Write the state of the receiver on the bound lines. -/
def setRx (s : State) (r : Rx) : State := { s with receivers := storeRx s.receivers (boundPair s) r }

/-- The receiver has taken the delivered frame. -/
def closeFrame (s : State) : State := { s with rxInbox := none, rxAddr := none }

/-- A frame waits to be taken by the receiver, from its first byte [log 15]. -/
def openFrame (s : State) (bytes : List Byte) : State := { s with rxInbox := some bytes, rxAddr := none }

/-- The receiver has taken one byte of the frame: `rest` is left. -/
def takeByte (s : State) (rest : List Byte) : State := { s with rxInbox := some rest }

/-- The frame's address byte names a position (42 R183). -/
def addressPosition (s : State) (p : BitVec 2) : State := { s with rxAddr := some p }

/-- The receiver's reading of the frame is done: its new state. -/
def finishFrame (s : State) (r : Rx) : State := closeFrame (setRx s r)

/-- Inside an open transaction (10 R37, 42 R172). -/
def inTxn (s : State) : Bool := decide (s.dec.phase = .frame)

/-- The receiver of a transaction cut off by reset or rebinding becomes unknown (42 R186, 93 U2). -/
def abandonTxn (s : State) : State := if inTxn s then setRx s Rx.top else s

/-- Latch the request on the port (10 R21, 40 R105): `op_l`, `a_l`, `b_l`; the host goes on to its next move. Acceptance
takes one cycle (70 R234) [log 29]. -/
def latchRequest (s : State) (op : BitVec 4) (a b : Word) : State :=
  { s with opL := op, aL := a, bL := b, hostMoves := s.hostMoves.tail, cycles := s.cycles + 1 }

/-- The rest of acceptance that no check decides (40 R105). The `done` pulse of the request before is over. -/
def beginRequest (s : State) : State :=
  { s with busy := true, nack := false, rejected := false, illegal := false, unbound := false
           reqNack := false, aidx := 0, prog := [], done := false }

/-- `reject R` (40 R105, 60 R200): the one shared way a request is turned down. The status bit of the reason is set, no
step is left, and the next engine step is `finish` [log 26]; nothing else changes. -/
def reject (s : State) (r : Reject) : State :=
  match r with
  | .range => { beginRequest s with rejected := true }
  | .illegal => { beginRequest s with illegal := true }
  | .unbound => { beginRequest s with unbound := true }

/-- The accepted request's step list (40 R103, R105). -/
def loadList (s : State) (l : List PStep) : State := { beginRequest s with prog := l }

/-- Accept a request whose checks gave a step list or a reason to reject (40 R103, R105). -/
def acceptRequest (s : State) (body : Except Reject (List PStep)) : State :=
  match body with
  | .ok l => loadList s l
  | .error r => reject s r

/-- Write the digit registers (41 R150, R151). -/
def setDigits (s : State) (d : Digits) : State := { s with dig := d }

/-- The binding check that comes before a request's own checks (40 R105, 60 R202, R205). -/
def ifBound (s : State) (body : Except Reject (List PStep)) : Except Reject (List PStep) :=
  if s.bound then body else .error .unbound

/-- `finish` (40 R105): the request is done; `done` is high for one cycle. -/
def finishRequest (s : State) : State :=
  { s with nack := s.reqNack, busy := false, done := true, cycles := s.cycles + 1 }

/-- A cycle in which the engine is ready and nothing is offered: `done` is low again (10 R21). -/
def idleCycle (s : State) : State :=
  { s with done := false, hostMoves := s.hostMoves.tail, cycles := s.cycles + 1 }

/-- Reset of the block (70 R220 to R223): every element of the block takes its value of 10 R40; the receiver survives, or
is unknown if a transaction was open; nothing more is appended to the trace [log 20]. -/
def resetBlock (s : State) : State :=
  { State.reset with
    trace := s.trace, delivered := s.delivered, receivers := (abandonTxn s).receivers, receiver := s.receiver
    hostMoves := s.hostMoves, rstIn := s.rstIn, obs := s.obs, cycles := s.cycles + 1 }

end Sys2Proof.Machine
end

