-- ==== Sys2Proof/Machine/Operands.lean ====
section
/-! DEFINITION. Operand forms and the arithmetic of the sequencer: the segment ROM (spec 20 R50), range checks and the
clamp (40 R110, 41 R144, R146, R150), digits (41 R151), command bytes (30 R79 to R82). -/

namespace Sys2Proof.Machine

/-- `SegRom(d)` (20 R50); 0x00 for an index above 9, as the ROM's port gives it (20 R52). -/
def segRom (d : BitVec 4) : Byte :=
  match d.toNat with
  | 0 => 0x3F#8
  | 1 => 0x06#8
  | 2 => 0x5B#8
  | 3 => 0x4F#8
  | 4 => 0x66#8
  | 5 => 0x6D#8
  | 6 => 0x7D#8
  | 7 => 0x07#8
  | 8 => 0x7F#8
  | 9 => 0x6F#8
  | _ => 0x00#8

/-- `seg_valid` of the ROM's port (20 R52). -/
def segValid (d : BitVec 4) : Bool := decide (d.toNat ≤ 9)

/-- `DATA_AUTO` (30 R80). -/
def dataAutoByte : Byte := 0x40#8

/-- `DATA_FIXED` (30 R80). -/
def dataFixedByte : Byte := 0x44#8

/-- `ADDR_START + p` (30 R81). -/
def addrByte (p : BitVec 2) : Byte := 0xC0#8 + p.setWidth 8

/-- `DISPLAY_CTRL | l` (30 R82). -/
def ctrlByte (l : BitVec 3) : Byte := 0x88#8 ||| l.setWidth 8

/-- `clamp` (41 R144). -/
def clampLevel (l : Int) : BitVec 3 :=
  if l < 0 then 0#3 else if Config.brightMax < l then 7#3 else BitVec.ofInt 3 l

/-- The binding check: both ids below `NUM_LINES`, and different (40 R110). -/
def lineIdsValid (c d : Nat) : Bool :=
  decide (c < Config.numLines) && decide (d < Config.numLines) && decide (c ≠ d)

/-- A position in 0..3 and a digit in 0..9, compared as integers (41 R146, R148). -/
def digitValid (p d : Int) : Bool :=
  decide (0 ≤ p) && decide (p < (Config.numPositions : Int)) && decide (0 ≤ d) && decide (d ≤ 9)

/-- A value in 0..9999 (41 R150). -/
def numberValid (v : Int) : Bool := decide (0 ≤ v) && decide (v ≤ Config.valueMax)

/-- `dig[0..3]` of a number in 0..9999, the most significant first (41 R151). -/
def digitsOf (v : Int) : Digits :=
  { d0 := BitVec.ofNat 4 (v.toNat / 1000 % 10), d1 := BitVec.ofNat 4 (v.toNat / 100 % 10)
    d2 := BitVec.ofNat 4 (v.toNat / 10 % 10), d3 := BitVec.ofNat 4 (v.toNat % 10) }

/-- `disp[p]` (42 R180). -/
def getDisp (r : Rx) (p : BitVec 2) : Option Byte :=
  match p.toNat with
  | 0 => r.disp0
  | 1 => r.disp1
  | 2 => r.disp2
  | _ => r.disp3

/-- `disp[p] <- pat` (42 R183). -/
def setDisp (r : Rx) (p : BitVec 2) (pat : Byte) : Rx :=
  match p.toNat with
  | 0 => { r with disp0 := some pat }
  | 1 => { r with disp1 := some pat }
  | 2 => { r with disp2 := some pat }
  | _ => { r with disp3 := some pat }

end Sys2Proof.Machine
end

