-- ==== Sys2Proof/Machine/BusBytes.lean ====
section
/-! DEFINITION. The bus bytes, taken by the reference receiver from a delivered frame (spec 42 R182 to R186, 30 R78 to
R85). Each meaning runs with `rxInbox` at the bytes that follow its own in the frame [log 15]. -/

namespace Sys2Proof.Machine

/-- The bytes that follow in the frame; none where no frame is being taken. -/
def frameRest (s : State) : List Byte := s.rxInbox.getD []

/-- A frame the receiver does not define (42 R186). -/
def undefinedFrame (s : State) : State := finishFrame s Rx.top

/-- A command that is a whole frame by itself (42 R182, R184); with bytes after it the frame has another length
(42 R186). -/
def oneByteFrame (s : State) (r : Rx) : State := if frameRest s = [] then finishFrame s r else undefinedFrame s

/-- `DATA_AUTO` (42 R182). -/
def execDataAuto (s : State) : Result := .next (oneByteFrame s { rxOf s with mode := some .auto })

/-- `DATA_FIXED` (42 R182). -/
def execDataFixed (s : State) : Result := .next (oneByteFrame s { rxOf s with mode := some .fixed })

/-- `ADDR(pos)` (42 R183): in fixed mode, and with exactly one data byte after it, the position is addressed; otherwise
the frame is one the receiver does not define (42 R186). -/
def execAddr (p : BitVec 2) (s : State) : Result :=
  .next (if (frameRest s).length = 1 ∧ (rxOf s).mode = some .fixed then addressPosition s p
    else undefinedFrame s)

/-- `DISPLAY_CTRL | level` (42 R184): on, with the level. -/
def execDisplayCtrl (l : BitVec 3) (s : State) : Result :=
  .next (oneByteFrame s { rxOf s with ctrl := some { on := true, level := l } })

/-- A data byte (42 R183): the pattern goes to the addressed position. -/
def execSegmentData (pat : Byte) (s : State) : Result :=
  .next (match s.rxAddr with
    | some p => oneByteFrame s (setDisp (rxOf s) p pat)
    | none => undefinedFrame s)

end Sys2Proof.Machine
end

