-- ==== Sys2Proof/Machine/Flags.lean ====
section
/-! DEFINITION. The status word (spec 10 R30) and the acknowledgment flag (10 R32, 40 R121). -/

namespace Sys2Proof.Machine

/-- One bit of a status word. -/
def statusBit (b : Bool) (i : Nat) : BitVec 8 := if b then 1#8 <<< i else 0#8

/-- `status[7:0]` (10 R30): BUSY and BOUND are views of `busy` and `bound`; bit 7 reads 0. -/
def statusWord (s : State) : BitVec 8 :=
  statusBit s.busy 0 ||| statusBit s.bound 1 ||| statusBit s.lastAck 2 ||| statusBit s.nack 3 |||
    statusBit s.rejected 4 ||| statusBit s.illegal 5 ||| statusBit s.unbound 6

/-- The acknowledgment sample (40 R106, R121): acknowledged exactly when the line reads 0. -/
def ackSample (s : State) (level : Bit) : State :=
  { s with lastAck := !level, reqNack := s.reqNack || level }

end Sys2Proof.Machine
end

