-- ==== Sys2Proof/Machine/Framing.lean ====
section
/-! DEFINITION. The framing decoder (spec 42 R170 to R175) and the delivery of a frame to the receiver (42 R186). -/

namespace Sys2Proof.Machine

/-- The byte of eight committed bits, bit 0 first (42 R175). -/
def byteOfBits (bits : List Bit) : Byte :=
  bits.foldr (fun b acc => (acc <<< 1) ||| (if b then 1#8 else 0#8)) 0#8

/-- A bit is committed (42 R174, R175): outside a frame it is ignored; the ninth is the ACK slot. -/
def commitBit (d : Decoder) (c : Bit) : Decoder :=
  match d.phase with
  | .idle => d
  | .frame =>
    if d.bits.length < 8 then { d with bits := d.bits ++ [c] }
    else { d with bytes := d.bytes ++ [byteOfBits d.bits], bits := [], acked := d.acked && !c }

/-- A start condition (42 R174, R175). -/
def startCondition (d : Decoder) : Decoder × Option Frame :=
  ({ d with phase := .frame, bits := [], bytes := [], acked := true, hiDirty := true },
    match d.phase with
    | .idle => none
    | .frame => some { bytes := d.bytes, complete := false, acked := d.acked })

/-- A stop condition (42 R174, R175): outside a frame it is ignored. -/
def stopCondition (d : Decoder) : Decoder × Option Frame :=
  ({ d with phase := .idle, hiDirty := true },
    match d.phase with
    | .idle => none
    | .frame => some { bytes := d.bytes, complete := d.bits.isEmpty, acked := d.acked })

/-- DIO goes from `v0` to `v` while CLK is at `clk` (42 R172, R173). -/
def dioEdge (d : Decoder) (clk v0 v : Bit) : Decoder × Option Frame :=
  if v = v0 then (d, none)
  else if clk then (if v then stopCondition d else startCondition d)
  else (d, none)

/-- CLK goes from `c0` to `c` with DIO at `v` (42 R173). -/
def clkEdge (d : Decoder) (c0 c v : Bit) : Decoder :=
  match c0, c with
  | false, true => { d with hiSample := v, hiDirty := false }
  | true, false => if d.hiDirty then d else commitBit d d.hiSample
  | _, _ => d

/-- The decoder takes the next bus pair (42 R170). A DIO change is read before a CLK edge of the same entry (42 R181)
[log 14]. The first pair on new lines makes no edge [log 12]. -/
def decodePair (d : Decoder) (c v : Bit) : Decoder × Option Frame :=
  match d.prev with
  | none => ({ d with prev := some (c, v) }, none)
  | some (c0, v0) =>
    ({ clkEdge (dioEdge d c0 v0 v).1 c0 c v with prev := some (c, v) }, (dioEdge d c0 v0 v).2)

/-- The decoder's new state. -/
def setDecoder (s : State) (d : Decoder) : State := { s with dec := d }

/-- The frame is delivered (42 R175): one more observation (70 R238). -/
def recordFrame (s : State) (f : Frame) : State := { s with delivered := s.delivered ++ [f] }

/-- A frame reaches the receiver (42 R175). A complete, acknowledged frame with bytes waits to be taken (42 R182 to R184);
any other makes the receiver unknown (42 R186) [log 13, 15]. -/
def deliverFrame (s : State) (f : Frame) : State :=
  if f.complete && f.acked && !f.bytes.isEmpty then openFrame (recordFrame s f) f.bytes
  else setRx (recordFrame s f) Rx.top

/-- The bus takes the levels of a line action (42 R170). -/
def busChange (s : State) (c v : Bit) : State :=
  match (decodePair s.dec c v).2 with
  | none => setDecoder s (decodePair s.dec c v).1
  | some f => deliverFrame (setDecoder s (decodePair s.dec c v).1) f

end Sys2Proof.Machine
end

