-- ==== Sys2Proof/Machine/Environment.lean ====
section
/-! DEFINITION. The environment's side of a DIO observation: the draw of a released line (spec 00 R14, 10 R27), the
receiver assumptions (42 R176), the reference acknowledgment (42 R181), and the two model faults (60 R206). -/

namespace Sys2Proof.Machine

/-- The DIO level held since an observation with CLK high and DIO released: 42 R176 assumption 3 speaks of it. -/
def heldLevel (s : State) : Option Bit :=
  match s.lines.dioOe, s.dec.prev with
  | false, some (true, v) => some v
  | _, _ => none

/-- The reference receiver pulls DIO low (42 R181): in a frame, with eight bits of the current byte committed. -/
def refPulls (s : State) : Bool := decide (s.dec.phase = .frame) && decide (s.dec.bits.length = 8)

/-- With DIO released and `rest` still to run, this is the release of `BIT_SEQ(1)`, not of ACK_SEQ: the next entry about
DIO is the restore (40 R106) [log 11]. -/
def dataBitRelease : List PStep → Bool
  | [] => false
  | .sample :: _ => false
  | .act .dioRestore :: _ => true
  | .act .dioLow :: _ => false
  | .act .dioHigh :: _ => false
  | .act .dioRelease :: _ => false
  | .act (.clkSet _) :: l => dataBitRelease l
  | .wait :: l => dataBitRelease l
  | .update _ :: l => dataBitRelease l
  | .bind _ _ :: _ => false

/-- The level of released DIO (10 R27) by the kind of receiver (42 R176, R181) [log 5, 10, 11]. A lawful receiver holds its
level while CLK is high and leaves a data bit alone; the ninth bit of a byte is an ACK slot whatever the host meant
(42 R175, R177). -/
def releasedLevel (s : State) (rest : List PStep) : Bit :=
  match s.receiver with
  | .absent => true
  | .reference => !refPulls s
  | .lawful =>
    match heldLevel s with
    | some v => v
    | none => (dataBitRelease rest && !refPulls s) || !Config.dioPull s.obs
  | .rogue => !Config.dioPull s.obs

/-- The DIO bus level with the drivers at `l` and `rest` still to run (10 R27), or the fault of a receiver that breaks
42 R176 assumption 1 or 3 (60 R206) [log 9]. A driven DIO reads the latch, under the reference receiver too: where it would still
pull (42 R181), in a `DIO_RESTORE` [log 10] and in a `DIO_HIGH` at eight committed bits [log 31], it is held to 42 R176. -/
def observeDio (s : State) (l : Lines) (rest : List PStep) : Except Fault Bit :=
  match s.receiver with
  | .rogue =>
    if l.dioOe then (if Config.dioPull s.obs then .error .envContention else .ok l.dioLatch)
    else
      match heldLevel s with
      | some v => if v = releasedLevel s rest then .ok v else .error .envSpuriousCondition
      | none => .ok (releasedLevel s rest)
  | _ => .ok (if l.dioOe then l.dioLatch else releasedLevel s rest)

end Sys2Proof.Machine
end

