-- ==== Sys2Proof/Machine/Engine.lean ====
section
/-! DEFINITION. The engine: the shared sequences (spec 40 R106, 41 R139) and one entry of a step list (40 R104). -/

namespace Sys2Proof.Machine

/-- START_SEQ (40 R106). Each `act` is followed by its wait when it is performed (40 R102, R104). -/
def startSeq : List PStep := [.act .dioLow, .act (.clkSet false)]

/-- STOP_SEQ (40 R106). -/
def stopSeq : List PStep := [.act (.clkSet false), .act .dioLow, .act (.clkSet true), .act .dioHigh]

/-- BIT_SEQ(v) (40 R106). -/
def bitSeq (v : Bit) : List PStep :=
  [.act (.clkSet false), .act (if v then .dioRelease else .dioLow), .act (.clkSet true), .act (.clkSet false),
    .act .dioRestore]

/-- ACK_SEQ (40 R106). -/
def ackSeq : List PStep :=
  [.act .dioRelease, .act (.clkSet false), .act (.clkSet true), .sample, .act (.clkSet false), .act .dioRestore]

/-- A data bit of a byte write and the shift that follows it [log 18]. -/
def shiftedBitSeq (v : Bit) : List PStep := bitSeq v ++ [.update .shiftBit]

/-- BYTE_SEQ(b), bit 0 first (40 R106). -/
def byteSeq (b : Byte) : List PStep :=
  [.update (.loadShift b)] ++ shiftedBitSeq (b.getLsbD 0) ++ shiftedBitSeq (b.getLsbD 1) ++
    shiftedBitSeq (b.getLsbD 2) ++ shiftedBitSeq (b.getLsbD 3) ++ shiftedBitSeq (b.getLsbD 4) ++
    shiftedBitSeq (b.getLsbD 5) ++ shiftedBitSeq (b.getLsbD 6) ++ shiftedBitSeq (b.getLsbD 7) ++ ackSeq

/-- CMD_FRAME(b) (41 R139), the body of `WRITE_COMMAND b`. -/
def cmdFrame (b : Byte) : List PStep := startSeq ++ byteSeq b ++ stopSeq

/-- ADDR_FRAME(p, pat) (41 R139). -/
def addrFrame (p : BitVec 2) (pat : Byte) : List PStep :=
  startSeq ++ byteSeq (addrByte p) ++ byteSeq pat ++ stopSeq

/-- The step list of `CONFIGURE` (40 R110): no `Bind` when the pair is bound already [log 21]. -/
def configureBody (s : State) (c d : Nat) : Except Reject (List PStep) :=
  if lineIdsValid c d then
    .ok ((if s.bound && decide (c = s.clkSel.toNat) && decide (d = s.dioSel.toNat) then []
      else [.bind (BitVec.ofNat 32 c) (BitVec.ofNat 32 d)]) ++ [.act (.clkSet true), .act .dioHigh])
  else .error .range

/-- The frames that write four patterns: `[DATA_FIXED]`, then positions 0 to 3 in order (41 R150, R153; 20 R57). -/
def fourDigitFrames (p0 p1 p2 p3 : Byte) : List PStep :=
  cmdFrame dataFixedByte ++ addrFrame 0#2 p0 ++ addrFrame 1#2 p1 ++ addrFrame 2#2 p2 ++ addrFrame 3#2 p3

/-- The step list of `CLEAR_DISPLAY` (41 R153). -/
def clearBody : List PStep := fourDigitFrames 0#8 0#8 0#8 0#8

/-- The step list of `SET_BRIGHTNESS` (41 R143). -/
def brightnessBody (l : Int) : List PStep := cmdFrame (ctrlByte (clampLevel l))

/-- The step list of `DISPLAY_DIGIT` (41 R146). -/
def digitBody (p d : Int) : Except Reject (List PStep) :=
  if digitValid p d then
    .ok (cmdFrame dataFixedByte ++ addrFrame (BitVec.ofInt 2 p) (segRom (BitVec.ofInt 4 d)))
  else .error .range

/-- The step list of `DISPLAY_NUMBER` (41 R150). -/
def numberBody (v : Int) : Except Reject (List PStep) :=
  if numberValid v then
    .ok (fourDigitFrames (segRom (digitsOf v).d0) (segRom (digitsOf v).d1) (segRom (digitsOf v).d2)
      (segRom (digitsOf v).d3))
  else .error .range

/-- The step list of `INITIALIZE` (41 R140). -/
def initializeBody (s : State) (c d : Nat) : Except Reject (List PStep) :=
  match configureBody s c d with
  | .ok l => .ok (l ++ clearBody ++ brightnessBody Config.brightMax)
  | .error r => .error r

/-- An internal update (40 R104, R120). `latchAck` follows the sample of its byte, so LAST_ACK is that byte's `ack`. -/
def applyUpdate (s : State) (u : Update) : State :=
  match u with
  | .loadShift b => { s with shreg := b, bitcnt := 0#4 }
  | .shiftBit => { s with shreg := s.shreg >>> 1, bitcnt := s.bitcnt + 1#4 }
  | .latchAck => { s with ackO := s.lastAck }

/-- An entry of the list is done; `rest` is left (10 R33), and the step took its overhead (70 R234). -/
def advance (s : State) (rest : List PStep) : State :=
  { s with prog := rest, aidx := s.aidx + 1, cycles := s.cycles + Config.overheadAt s.cycles s.aidx }

/-- A line action is performed, with its event, DIO reading `v`; its settle wait is put first and the timer loaded (40
R102, R104; 60 R211). -/
def recordAct (a : LineAction) (rest : List PStep) (v : Bit) (s : State) : State :=
  { advance s (.wait :: rest) with
    lines := applyAction a s.lines, waitCnt := Config.settleCycles, obs := s.obs + 1
    trace := s.trace ++ [.ev a (clkBus (applyAction a s.lines) s.obs) v] }

/-- A settle wait is over (40 R104, 60 R211): `wait_cnt` has counted down to 0, one cycle each [log 1, 24]. -/
def recordWait (rest : List PStep) (s : State) : State :=
  { s with prog := rest, aidx := s.aidx + 1, cycles := s.cycles + s.waitCnt, waitCnt := 0, trace := s.trace ++ [.w] }

/-- An acknowledgment sample has read `v` (40 R104, R106, R121). -/
def recordSample (rest : List PStep) (v : Bit) (s : State) : State :=
  { advance (ackSample s v) rest with obs := s.obs + 1, trace := s.trace ++ [.s v] }

/-- A `Bind` (40 R104, R110; 10 R45): the bus of the old lines ends, a new one begins (42 R170, R171). -/
def recordBind (c d : Word) (rest : List PStep) (s : State) : State :=
  { advance s rest with
    lines := undrive s.lines, clkSel := c, dioSel := d, bound := true, dec := Decoder.start
    trace := s.trace ++ [.bind c d] }

/-- A line action (40 R104): observe the bus it makes, then let the decoder take the pair. -/
def actStep (a : LineAction) (rest : List PStep) (s : State) : Result :=
  match observeDio s (applyAction a s.lines) rest with
  | .error f => .fault f
  | .ok v => .next (busChange (recordAct a rest v s) (clkBus (applyAction a s.lines) s.obs) v)

/-- A settle wait (40 R104). -/
def waitStep (rest : List PStep) (s : State) : Result := .next (recordWait rest s)

/-- The acknowledgment sample (40 R104, R121). -/
def sampleStep (rest : List PStep) (s : State) : Result :=
  match observeDio s s.lines rest with
  | .error f => .fault f
  | .ok v => .next (recordSample rest v s)

/-- An internal update (40 R104). -/
def updateStep (u : Update) (rest : List PStep) (s : State) : Result := .next (advance (applyUpdate s u) rest)

/-- The `Bind` step (40 R104): a transaction open on the old lines is abandoned (10 R45). -/
def bindStep (c d : Word) (rest : List PStep) (s : State) : Result := .next (recordBind c d rest (abandonTxn s))

/-- One entry of the step list, `rest` being the entries after it (40 R104). -/
def performEntry (e : PStep) (rest : List PStep) (s : State) : Result :=
  match e with
  | .act a => actStep a rest s
  | .wait => waitStep rest s
  | .sample => sampleStep rest s
  | .update u => updateStep u rest s
  | .bind c d => bindStep c d rest s

/-- One step of a busy engine (40 R104). -/
def engineStep (s : State) : Result :=
  match s.prog with
  | [] => .next (finishRequest s)
  | e :: rest => performEntry e rest s

end Sys2Proof.Machine
end

