-- ==== Sys2Proof/Machine/BusPrimitives.lean ====
section
/-! DEFINITION. The requests of the bus primitive layer (spec 40 part 2). A meaning is the acceptance of the request: its
checks, and its step list, fixed here once for all (40 R103, R105). -/

namespace Sys2Proof.Machine

/-- `CONFIGURE` (40 R110): never rejected `Unbound`. -/
def execConfigure (c d : Nat) (s : State) : Result := .next (acceptRequest s (configureBody s c d))

/-- `START` (40 R113). -/
def execStart (s : State) : Result := .next (acceptRequest s (ifBound s (.ok startSeq)))

/-- `STOP` (40 R115). -/
def execStop (s : State) : Result := .next (acceptRequest s (ifBound s (.ok stopSeq)))

/-- `WRITE_BIT` (40 R117). -/
def execWriteBit (v : Bit) (s : State) : Result := .next (acceptRequest s (ifBound s (.ok (bitSeq v))))

/-- `WRITE_BYTE` (40 R120): the only request that writes `ack_o`. -/
def execWriteByte (b : Byte) (s : State) : Result :=
  .next (acceptRequest s (ifBound s (.ok (byteSeq b ++ [.update .latchAck]))))

/-- `WRITE_COMMAND` (40 R123). -/
def execWriteCommand (b : Byte) (s : State) : Result := .next (acceptRequest s (ifBound s (.ok (cmdFrame b))))

end Sys2Proof.Machine
end

