-- ==== Sys2Proof/Machine/ReservedOps.lean ====
section
/-! DEFINITION. The reserved op codes (spec 30 R74, 60 R201): rejected `Illegal`, whatever the binding. -/

namespace Sys2Proof.Machine

/-- Op code 0x0 (60 R201). -/
def execReserved0 (s : State) : Result := .next (reject s .illegal)

/-- Op code 0x7 (60 R201). -/
def execReserved7 (s : State) : Result := .next (reject s .illegal)

/-- Op code 0xD (60 R201). -/
def execReservedD (s : State) : Result := .next (reject s .illegal)

/-- Op code 0xE (60 R201). -/
def execReservedE (s : State) : Result := .next (reject s .illegal)

/-- Op code 0xF (60 R201). -/
def execReservedF (s : State) : Result := .next (reject s .illegal)

end Sys2Proof.Machine
end

