-- ==== Sys2Proof/Machine/Sequencer.lean ====
section
/-! DEFINITION. The requests of the display sequencer layer (spec 41 part 2). -/

namespace Sys2Proof.Machine

/-- `INITIALIZE` (41 R140, R142): never rejected `Unbound`; a failed binding check rejects all of it. -/
def execInitialize (c d : Nat) (s : State) : Result := .next (acceptRequest s (initializeBody s c d))

/-- `SET_BRIGHTNESS` (41 R143): clamps, never rejected `Range`. -/
def execSetBrightness (l : Int) (s : State) : Result :=
  .next (acceptRequest s (ifBound s (.ok (brightnessBody l))))

/-- `DISPLAY_DIGIT` (41 R146). -/
def execDisplayDigit (p d : Int) (s : State) : Result := .next (acceptRequest s (ifBound s (digitBody p d)))

/-- `DISPLAY_NUMBER` (41 R150): the digit registers are written once the checks have passed. -/
def execDisplayNumber (v : Int) (s : State) : Result :=
  .next (setDigits (acceptRequest s (ifBound s (numberBody v)))
    (if s.bound && numberValid v then digitsOf v else s.dig))

/-- `CLEAR_DISPLAY` (41 R153): never rejected `Range`. -/
def execClearDisplay (s : State) : Result := .next (acceptRequest s (ifBound s (.ok clearBody)))

end Sys2Proof.Machine
end

