-- ==== Sys2Proof/Machine/Dispatch.lean ====
section
/-! DEFINITION. One arm per instruction. -/

namespace Sys2Proof.Machine

def exec (i : Instr) (s : State) : Host.Outcome State Fault Refusal :=
  match i with
  | .configure c d => Sys2Proof.Machine.execConfigure c d s
  | .start => Sys2Proof.Machine.execStart s
  | .stop => Sys2Proof.Machine.execStop s
  | .writeBit v => Sys2Proof.Machine.execWriteBit v s
  | .writeByte b => Sys2Proof.Machine.execWriteByte b s
  | .writeCommand b => Sys2Proof.Machine.execWriteCommand b s
  | .initializeDisplay c d => Sys2Proof.Machine.execInitialize c d s
  | .setBrightness l => Sys2Proof.Machine.execSetBrightness l s
  | .displayDigit p d => Sys2Proof.Machine.execDisplayDigit p d s
  | .displayNumber v => Sys2Proof.Machine.execDisplayNumber v s
  | .clearDisplay => Sys2Proof.Machine.execClearDisplay s
  | .reserved0 => Sys2Proof.Machine.execReserved0 s
  | .reserved7 => Sys2Proof.Machine.execReserved7 s
  | .reservedD => Sys2Proof.Machine.execReservedD s
  | .reservedE => Sys2Proof.Machine.execReservedE s
  | .reservedF => Sys2Proof.Machine.execReservedF s
  | .dataAuto => Sys2Proof.Machine.execDataAuto s
  | .dataFixed => Sys2Proof.Machine.execDataFixed s
  | .addr p => Sys2Proof.Machine.execAddr p s
  | .displayCtrl l => Sys2Proof.Machine.execDisplayCtrl l s
  | .segmentData b => Sys2Proof.Machine.execSegmentData b s

end Sys2Proof.Machine
end

