-- ==== Sys2Proof/WellFormed.lean ====
section
/-! DEFINITION. Which instructions an encoding can carry: the ranges of 30 R72. -/

namespace Sys2Proof

/-- A line id fits a 32-bit operand as an unsigned integer (30 R72). -/
def fitsUnsigned (n : Nat) : Bool := decide (n < 2 ^ 32)

/-- An operand fits 32 bits as a two's complement integer (30 R72). -/
def fitsSigned (i : Int) : Bool := decide (-2 ^ 31 ≤ i ∧ i < 2 ^ 31)

/-- Every operand is in the range its field can hold (30 R72). Display ranges are no part of decoding (30 R75). -/
def Instr.wf : Instr → Bool
  | .configure c d => fitsUnsigned c && fitsUnsigned d
  | .start => true
  | .stop => true
  | .writeBit _ => true
  | .writeByte _ => true
  | .writeCommand _ => true
  | .initializeDisplay c d => fitsUnsigned c && fitsUnsigned d
  | .setBrightness l => fitsSigned l
  | .displayDigit p d => fitsSigned p && fitsSigned d
  | .displayNumber v => fitsSigned v
  | .clearDisplay => true
  | .reserved0 => true
  | .reserved7 => true
  | .reservedD => true
  | .reservedE => true
  | .reservedF => true
  | .dataAuto => true
  | .dataFixed => true
  | .addr _ => true
  | .displayCtrl _ => true
  | .segmentData _ => true

end Sys2Proof
end

