-- ==== Sys2Proof/Decode.lean ====
section
/-! DEFINITION. Decoding and encoding of requests (30 R70 to R76) and of bus bytes (30 R78 to R84). -/

namespace Sys2Proof

/-- `op`, bits [67:64] (30 R70). -/
def opField (w : RequestWord) : BitVec 4 := w.extractLsb' 64 4

/-- `A`, bits [63:32] (30 R70). -/
def aField (w : RequestWord) : Word := w.extractLsb' 32 32

/-- `B`, bits [31:0] (30 R70). -/
def bField (w : RequestWord) : Word := w.extractLsb' 0 32

/-- The request word `op:A:B` (30 R70). -/
def requestWord (op : BitVec 4) (a b : Word) : RequestWord := (op ++ a) ++ b

/-- The operation a request word asks for (30 R71, R72, R74). Total: every word decodes (30 R75). -/
def decodeRequest (op : BitVec 4) (a b : Word) : Instr :=
  match op.toNat with
  | 0x1 => .configure a.toNat b.toNat
  | 0x2 => .start
  | 0x3 => .stop
  | 0x4 => .writeBit (a.getLsbD 0)
  | 0x5 => .writeByte (a.extractLsb' 0 8)
  | 0x6 => .writeCommand (a.extractLsb' 0 8)
  | 0x7 => .reserved7
  | 0x8 => .initializeDisplay a.toNat b.toNat
  | 0x9 => .setBrightness a.toInt
  | 0xA => .displayDigit a.toInt b.toInt
  | 0xB => .displayNumber a.toInt
  | 0xC => .clearDisplay
  | 0xD => .reservedD
  | 0xE => .reservedE
  | 0xF => .reservedF
  | _ => .reserved0

/-- A command byte, by the match and mask of 30 R80 to R82; any other byte is in no table (30 R84). -/
def decodeCommand (b : Byte) : Except DecodeError Instr :=
  if b = 0x40#8 then .ok .dataAuto
  else if b = 0x44#8 then .ok .dataFixed
  else if b &&& 0xFC#8 = 0xC0#8 then .ok (.addr (b.extractLsb' 0 2))
  else if b &&& 0xF8#8 = 0x88#8 then .ok (.displayCtrl (b.extractLsb' 0 3))
  else .error (.unknownCommand b)

/-- The decoder: total, and what it rejects it names. -/
def decode : Code → Except DecodeError Instr
  | .request w => .ok (decodeRequest (opField w) (aField w) (bField w))
  | .command b => decodeCommand b
  | .data b => .ok (.segmentData b)

/-- The code of a well-formed instruction (30 R76, R80 to R83); an ignored or omitted operand encodes as 0. -/
def encode : Instr → Code
  | .configure c d => .request (requestWord 0x1#4 (BitVec.ofNat 32 c) (BitVec.ofNat 32 d))
  | .start => .request (requestWord 0x2#4 0#32 0#32)
  | .stop => .request (requestWord 0x3#4 0#32 0#32)
  | .writeBit v => .request (requestWord 0x4#4 (if v then 1#32 else 0#32) 0#32)
  | .writeByte b => .request (requestWord 0x5#4 (b.setWidth 32) 0#32)
  | .writeCommand b => .request (requestWord 0x6#4 (b.setWidth 32) 0#32)
  | .initializeDisplay c d => .request (requestWord 0x8#4 (BitVec.ofNat 32 c) (BitVec.ofNat 32 d))
  | .setBrightness l => .request (requestWord 0x9#4 (BitVec.ofInt 32 l) 0#32)
  | .displayDigit p d => .request (requestWord 0xA#4 (BitVec.ofInt 32 p) (BitVec.ofInt 32 d))
  | .displayNumber v => .request (requestWord 0xB#4 (BitVec.ofInt 32 v) 0#32)
  | .clearDisplay => .request (requestWord 0xC#4 0#32 0#32)
  | .reserved0 => .request (requestWord 0x0#4 0#32 0#32)
  | .reserved7 => .request (requestWord 0x7#4 0#32 0#32)
  | .reservedD => .request (requestWord 0xD#4 0#32 0#32)
  | .reservedE => .request (requestWord 0xE#4 0#32 0#32)
  | .reservedF => .request (requestWord 0xF#4 0#32 0#32)
  | .dataAuto => .command 0x40#8
  | .dataFixed => .command 0x44#8
  | .addr p => .command (0xC0#8 + p.setWidth 8)
  | .displayCtrl l => .command (0x88#8 ||| l.setWidth 8)
  | .segmentData b => .data b

/-- The answer of the decoder, without the name of a rejection. -/
def accepted : Except DecodeError Instr → Option Instr
  | .ok i => some i
  | .error _ => none

/-- An instruction of the opcode table from its bits. A row of 68 bits is a request word. A row of 8 bits is a bus byte; the
table gives it no place, so it is read as a command where a command row matches and as a data byte otherwise [log 16]. -/
def decodeTableWord (nbits w : Nat) : Option Instr :=
  if nbits = 8 then
    match accepted (decode (.command (BitVec.ofNat 8 w))) with
    | some i => some i
    | none => accepted (decode (.data (BitVec.ofNat 8 w)))
  else if 68 ≤ nbits ∧ nbits ≤ 72 ∧ w < 2 ^ 68 then accepted (decode (.request (BitVec.ofNat 68 w)))
  else none

end Sys2Proof
end

