-- ==== Sys2Proof/Machine/Fetch.lean ====
section
/-! DEFINITION. What a step finds to do: whose turn it is, and which instruction starts [log 15]. And how an instruction
comes to be placed there. -/

namespace Sys2Proof.Machine

/-- `rst` is high on this step (10 R21, 70 R220). -/
def rstHigh (s : State) : Bool := s.rstIn.headD false

/-- The step uses up its level of `rst`. -/
def takeRst (s : State) : State := { s with rstIn := s.rstIn.tail }

/-- The receiver takes the next byte of a delivered frame (42 R182 to R186). A byte its table does not have makes it
unknown (30 R84). -/
def fetchBusByte (s : State) (bytes : List Byte) : Fetched :=
  match bytes with
  | [] => .go (.next (undefinedFrame s))
  | b :: rest =>
    match decode (match s.rxAddr with | none => .command b | some _ => .data b) with
    | .ok i => .instr i (takeByte s rest)
    | .error _ => .go (.next (undefinedFrame s))

/-- A ready engine and its host (10 R21, 40 R105): accept what is offered, or idle. -/
def fetchRequest (s : State) : Fetched :=
  match s.hostMoves with
  | .offer op a b :: _ => .instr (decodeRequest op a b) (latchRequest s op a b)
  | .pause :: _ => .go (.next (idleCycle s))
  | [] => .go (.next (idleCycle s))

/-- Whose turn it is: the receiver's, reset's, the busy engine's, the host's. Reset wins over an acceptance (70 R220). -/
def fetch (s : State) : Fetched :=
  match s.rxInbox with
  | some bytes => fetchBusByte s bytes
  | none =>
    if rstHigh s then .go (.next (resetBlock (takeRst s)))
    else if s.busy then .go (engineStep (takeRst s))
    else fetchRequest (takeRst s)

/-- The host offers the request next, and the engine is ready to accept it. -/
def placeRequest (s : State) (w : RequestWord) : State :=
  { s with rxInbox := none, rxAddr := none, rstIn := [], busy := false, prog := []
           hostMoves := [.offer (opField w) (aField w) (bField w)] }

/-- The bus has delivered a frame that begins with this byte, or, for a byte that is no command, a frame whose address
byte named position 0 and whose data byte this is. An address command has one data byte after it, 0x00 [log 16]. -/
def placeBusByte (s : State) (b : Byte) : State :=
  match accepted (decode (.command b)) with
  | some (.addr _) => openFrame s [b, 0#8]
  | some _ => openFrame s [b]
  | none => addressPosition (openFrame s [b]) 0#2

end Sys2Proof.Machine
end

