-- ==== Sys2Proof/Machine/Step.lean ====
section
/-! DEFINITION. One step of the machine. -/

namespace Sys2Proof.Machine

/-- One step: the instruction that starts, or the engine's, reset's or idle step (spec 40 R104, R105). -/
def step (s : State) : Host.Outcome State Fault Refusal :=
  match fetch s with
  | .instr i t => exec i t
  | .go r => r

/-- `s` with the instruction of these bits placed where `step` takes its next one: offered by the host (a request) or
delivered to the receiver (a bus byte) [log 16]. -/
def State.withFetchWord (s : State) (nbits w : Nat) : State :=
  if nbits = 8 then placeBusByte s (BitVec.ofNat 8 w) else placeRequest s (BitVec.ofNat 68 w)

end Sys2Proof.Machine
end

