-- ==== Sys2Proof/Machine/Ports.lean ====
section
/-! DEFINITION. The ports of the block as views of the state (spec 10 R21, R22; 20 R52), and the level of any line. -/

namespace Sys2Proof.Machine

/-- `req_ready` (10 R21, 70 R220). -/
def reqReady (s : State) : Bool := !s.busy && !rstHigh s

/-- `req_valid` (10 R21). -/
def reqValid (s : State) : Bool :=
  match s.hostMoves with
  | .offer _ _ _ :: _ => true
  | .pause :: _ => false
  | [] => false

/-- `clk_out` (10 R22). -/
def clkOut (s : State) : Bit := s.lines.clkO

/-- `clk_en` (10 R22). -/
def clkEn (s : State) : Bit := s.lines.clkOe

/-- `dio_out` (10 R22). -/
def dioOut (s : State) : Bit := s.lines.dioLatch

/-- `dio_en` (10 R22). -/
def dioEn (s : State) : Bit := s.lines.dioOe

/-- `dio_in` (10 R22, R27): the DIO bus level as an observation now would sense it. -/
def dioIn (s : State) : Bit := if s.lines.dioOe then s.lines.dioLatch else releasedLevel s s.prog

/-- `clk_line` (10 R22). -/
def clkLine (s : State) : Word := s.clkSel

/-- `dio_line` (10 R22). -/
def dioLine (s : State) : Word := s.dioSel

/-- The level of a line of the platform: the bus levels of the bound lines (10 R25, R27), any value elsewhere (10 R45). -/
def lineLevel (s : State) (line : Word) : Bit :=
  if s.bound && decide (line = s.clkSel) then clkBus s.lines s.obs
  else if s.bound && decide (line = s.dioSel) then dioIn s
  else Config.oldLineLevel s.obs line

end Sys2Proof.Machine
end

