-- ==== Sys2Proof/Machine/Request.lean ====
section
/-! DEFINITION. The request-level semantics (spec 00 R7, 40 R104): the fold of the action level over one request's list. -/

namespace Sys2Proof.Machine

/-- The receiver takes a delivered frame, if one waits: at most two bytes are taken before it is done (42 R182 to R186). -/
def takeFrame : Nat → State → Result
  | 0, s => .next s
  | k + 1, s =>
    match s.rxInbox with
    | none => .next s
    | some bytes =>
      match fetchBusByte s bytes with
      | .instr i t => andThen (exec i t) (takeFrame k)
      | .go r => andThen r (takeFrame k)

/-- One entry of a list as a whole: a line action with its wait (`Act`, 00 R12), the receiver taking the frame the action
may have delivered; any other entry alone. -/
def wholeEntry (e : PStep) (rest : List PStep) (s : State) : Result :=
  match e with
  | .act a => andThen (andThen (actStep a rest s) (takeFrame 2)) (waitStep rest)
  | .wait => waitStep rest s
  | .sample => sampleStep rest s
  | .update u => updateStep u rest s
  | .bind c d => bindStep c d rest s

/-- A list run to its end, and `finish` (40 R104, R105). -/
def runList : List PStep → State → Result
  | [], s => .next (finishRequest s)
  | e :: rest, s => andThen (wholeEntry e rest s) (runList rest)

/-- A request as one step: acceptance, then its whole list (40 R104). -/
def request (i : Instr) (s : State) : Result := andThen (exec i s) (fun t => runList t.prog t)

/-- Requests in order, each run to its `done`; a run ends one cycle later (`run` of Run.lean, 70 R238). -/
def requests : List Instr → State → Result
  | [], s => .next s
  | i :: is, s => andThen (request i s) (requests is)

end Sys2Proof.Machine
end

