-- ==== Sys2Proof/Machine/Run.lean ====
section
/-! DEFINITION. A run of the host's requests, how it ends, and what is observed at its end (spec 70 R236, R238). -/

namespace Sys2Proof.Machine

/-- A request accepted from the port (its operands latched, 10 R21) and run to its `done`. -/
def acceptAndRun (op : BitVec 4) (a b : Word) (s : State) : Result :=
  request (decodeRequest op a b) (latchRequest s op a b)

/-- The host has no request left to offer: the last request of its run has been accepted (70 R238). -/
def noOfferLeft : List HostMove → Bool
  | [] => true
  | .pause :: ms => noOfferLeft ms
  | .offer _ _ _ :: _ => false

/-- A run of the host's moves that no `rst` cuts: each offer is accepted and run to its `done`, a pause before one is an idle
cycle, and the run ends in the cycle after the last `done`, in which nothing is offered (70 R238). Pauses after the last
request are no part of the run. -/
def runMoves : List HostMove → State → Result
  | [], s => .next (idleCycle s)
  | .pause :: ms, s => if noOfferLeft ms then .next (idleCycle s) else runMoves ms (idleCycle s)
  | .offer op a b :: ms, s => andThen (acceptAndRun op a b s) (runMoves ms)

/-- The run of all the host has still to offer (70 R238), at the request level. -/
def run (s : State) : Result := runMoves s.hostMoves s

/-- The next step is the last of a run (70 R238): the reset that cuts it (70 R222), or the cycle after the last `done`, with
`busy` 0 and `req_valid` 0 [log 30]. A delivered frame is taken first [log 15]. -/
def endsRun (s : State) : Bool := s.rxInbox.isNone && (rstHigh s || (!s.busy && noOfferLeft s.hostMoves))

/-- The run step by step, cut by `rst` or not: at most `n` steps, up to the one that ends the run (70 R238). -/
def runSteps : Nat → State → Result
  | 0, s => .next s
  | n + 1, s => if endsRun s then step s else andThen (step s) (runSteps n)

/-- What is observed at the end of a run (70 R238), and nothing else. -/
structure Observation where
  /-- The trace of every request (00 R13). -/
  trace : List TraceEntry
  /-- The status word (10 R30). -/
  status : BitVec 8
  /-- `ack_o` (10 R21). -/
  ackO : Bit
  /-- The line driver state (10 R25, R26). -/
  lines : Lines
  /-- The frames the framing decoder delivered (42 R175), with the model's mark [log 13]. -/
  delivered : List Frame
  /-- Under the reference receiver, `rx_mode`, `disp[0..3]` and `rx_ctrl` of the receiver on each pair of lines (42 R180)
  [log 28]; none under another kind of receiver [log 5]. -/
  receivers : Option Receivers
  deriving DecidableEq, Repr

/-- The observation of a state (70 R238). -/
def observe (s : State) : Observation :=
  { trace := s.trace, status := statusWord s, ackO := s.ackO, lines := s.lines, delivered := s.delivered
    receivers := match s.receiver with
      | .reference => some s.receivers
      | .absent => none
      | .lawful => none
      | .rogue => none }

/-- The observation at the end of a run (70 R238); none where the run stopped with a fault. -/
def observed (r : Result) : Option Observation := (nextState r).map observe

end Sys2Proof.Machine
end

