-- ==== Sys2Proof/Safety.lean ====
section
/-! DEFINITION. What counts as a good state, and the terms the statements are made of: the invariant of the machine
(spec 10 R24, R31, R38, R39), frames, and counts over step lists and traces. -/

namespace Sys2Proof.Machine

/-! ### The invariant -/

/-- What a line action needs so that it makes no bus condition of its own but a start or a stop (42 R172): DIO changes
direction only while CLK is driven low, and is driven high inside a transaction only as a stop. -/
def actionOk (a : LineAction) (l : Lines) (txn : Bool) : Bool :=
  match a with
  | .clkSet _ => true
  | .dioLow => l.clkOe && (l.dioOe || !l.clkO)
  | .dioHigh => l.clkOe && (!txn || (l.clkO && l.dioOe))
  | .dioRelease => l.clkOe && !l.clkO
  | .dioRestore => l.clkOe && !l.clkO

/-- Inside a transaction after a line action (42 R172). -/
def txnAfter (a : LineAction) (l : Lines) (txn : Bool) : Bool :=
  match a with
  | .clkSet _ => txn
  | .dioLow => txn || (l.clkO && l.dioLatch)
  | .dioHigh => false
  | .dioRelease => txn
  | .dioRestore => txn

/-- A step list is well behaved from these drivers on: every action is, every `Bind` has valid ids (10 R24), and at its
end the drivers are enabled exactly if a binding has been made (10 R38). -/
def listOk : List PStep → Lines → (txn bound : Bool) → Bool
  | [], l, _, bound => decide (l.clkOe = bound) && decide (l.dioOe = bound)
  | .act a :: rest, l, txn, bound => actionOk a l txn && listOk rest (applyAction a l) (txnAfter a l txn) bound
  | .bind c d :: rest, l, _, _ => lineIdsValid c.toNat d.toNat && listOk rest (undrive l) false true
  | .wait :: rest, l, txn, bound => listOk rest l txn bound
  | .sample :: rest, l, txn, bound => listOk rest l txn bound
  | .update _ :: rest, l, txn, bound => listOk rest l txn bound

/-- The decoder's last pair is the bus (42 R170): the driven levels, and for a released DIO with CLK high the level the
receiver holds (42 R176, R181). Before the first pair CLK is not driven and the decoder is IDLE. -/
def busCoherent (s : State) : Prop :=
  match s.dec.prev with
  | none => s.lines.clkOe = false ∧ s.dec.phase = .idle
  | some (c, v) =>
    s.lines.clkOe = true ∧ c = s.lines.clkO ∧ (s.lines.dioOe = true → v = s.lines.dioLatch) ∧
      (s.lines.dioOe = false → c = true →
        (s.receiver = .absent → v = true) ∧ (s.receiver = .reference → v = !refPulls s))

/-- A status bit of a reject is set (10 R30). -/
def anyReject (s : State) : Bool := s.rejected || s.illegal || s.unbound

/-- At most one of REJECTED, ILLEGAL and UNBOUND is set (10 R31). -/
def rejectsExclusive (s : State) : Bool :=
  !(s.rejected && s.illegal) && !(s.rejected && s.unbound) && !(s.illegal && s.unbound)

/-- The invariant of the machine: every step keeps it. -/
structure Inv (s : State) : Prop where
  /-- The receivers' store is in canonical form. -/
  receivers : receiversWf s.receivers = true
  /-- 10 R24. -/
  binding : s.bound = true → lineIdsValid s.clkSel.toNat s.dioSel.toNat = true
  /-- Between requests no step is left (10 R28). -/
  idleEmpty : s.busy = false → s.prog = []
  /-- The list in progress is well behaved; with an empty list this is 10 R38. -/
  list : listOk s.prog s.lines (inTxn s) s.bound = true
  /-- The decoder's last pair is the bus (42 R170). -/
  bus : busCoherent s
  /-- 10 R39: inside a transaction the DIO latch is 0. -/
  latch : inTxn s = true → s.lines.dioLatch = false
  /-- The timer runs only in a settle wait, from SETTLE_CYCLES down (60 R211). -/
  timer : s.waitCnt = 0 ∨ (s.waitCnt ≤ Config.settleCycles ∧ s.prog.head? = some .wait)
  /-- At most eight bits are committed since the last byte (42 R171). -/
  bits : s.dec.bits.length ≤ 8
  /-- 10 R31. -/
  rejects : rejectsExclusive s = true
  /-- 10 R31: a rejected request has no step and no NACK. -/
  rejectsQuiet : anyReject s = true → s.prog = [] ∧ s.reqNack = false ∧ s.nack = false
  /-- An addressed position belongs to a frame being taken [log 15]. -/
  addressed : s.rxInbox = none → s.rxAddr = none
  /-- `done` is a pulse between requests (10 R21). -/
  donePulse : s.done = true → s.busy = false

/-! ### Premises of the statements -/

/-- No delivered frame waits, and the receiver keeps 42 R176 (any kind but `rogue`). -/
def calm (s : State) : Prop := s.rxInbox = none ∧ s.receiver ≠ .rogue

/-- The bus is idle-high, driven, with the decoder in IDLE (10 R42, R43; 42 R171). -/
def idleHigh (s : State) : Prop :=
  s.lines = { clkOe := true, clkO := true, dioOe := true, dioLatch := true } ∧ s.dec.prev = some (true, true) ∧
    s.dec.phase = .idle

/-- Between requests the lines are driven, and the decoder's last pair is their levels (10 R38, 42 R170). -/
def driven (s : State) : Prop :=
  s.lines.clkOe = true ∧ s.lines.dioOe = true ∧ s.dec.prev = some (s.lines.clkO, s.lines.dioLatch)

/-- Inside an open transaction, at a byte boundary, as `START` and each `WRITE_BYTE` leave it (10 R42). -/
def atByteBoundary (s : State) : Prop :=
  s.lines = { clkOe := true, clkO := false, dioOe := true, dioLatch := false } ∧ s.dec.prev = some (false, false) ∧
    s.dec.phase = .frame ∧ s.dec.bits = []

/-- The clean entry (70 R237): the reset state, with any host inputs, any receiver, and the receivers' states in canonical
form. -/
def cleanEntry (s : State) : Prop :=
  receiversWf s.receivers = true ∧
    s = { State.reset with
          receiver := s.receiver, receivers := s.receivers, hostMoves := s.hostMoves, rstIn := s.rstIn }

/-- Some number of steps from a clean entry lead here. -/
def reachable (s : State) : Prop := ∃ s0 n, cleanEntry s0 ∧ Host.Core.run Sys2Proof.core n s0 = .next s

/-- The block's elements at the values 10 R40 gives them. -/
def blockAtReset (s : State) : Prop :=
  s.bound = false ∧ s.clkSel = 0#32 ∧ s.dioSel = 0#32 ∧
    s.lines = { clkOe := false, clkO := true, dioOe := false, dioLatch := true } ∧ s.busy = false ∧ s.prog = [] ∧
    s.aidx = 0 ∧ s.waitCnt = 0 ∧ s.reqNack = false ∧ statusWord s = 0#8 ∧ s.ackO = false ∧ s.done = false

/-- The instruction is a request of the host (30 R70), not a bus byte. -/
def isRequest : Instr → Bool
  | .dataAuto => false
  | .dataFixed => false
  | .addr _ => false
  | .displayCtrl _ => false
  | .segmentData _ => false
  | .configure _ _ => true
  | .start => true
  | .stop => true
  | .writeBit _ => true
  | .writeByte _ => true
  | .writeCommand _ => true
  | .initializeDisplay _ _ => true
  | .setBrightness _ => true
  | .displayDigit _ _ => true
  | .displayNumber _ => true
  | .clearDisplay => true
  | .reserved0 => true
  | .reserved7 => true
  | .reservedD => true
  | .reservedE => true
  | .reservedF => true

/-- The instruction is a reserved op code (30 R74). -/
def isReserved : Instr → Bool
  | .reserved0 => true
  | .reserved7 => true
  | .reservedD => true
  | .reservedE => true
  | .reservedF => true
  | _ => false

/-- The requests that need a binding (60 R202). -/
def needsBinding (i : Instr) : Bool :=
  match i with
  | .configure _ _ => false
  | .initializeDisplay _ _ => false
  | _ => isRequest i && !isReserved i

/-- An operand outside its range (40 R110, 41 R146, R150), by the spec's own comparisons. -/
def outOfRange (i : Instr) : Prop :=
  match i with
  | .configure c d => c ≥ Config.numLines ∨ d ≥ Config.numLines ∨ c = d
  | .initializeDisplay c d => c ≥ Config.numLines ∨ d ≥ Config.numLines ∨ c = d
  | .displayDigit p d => p < 0 ∨ p > 3 ∨ d < 0 ∨ d > 9
  | .displayNumber v => v < 0 ∨ v > 9999
  | _ => False

/-- The request is turned down for this reason (60 R200 to R202), the first that fails in the order of 60 R205. -/
def rejectedFor (i : Instr) (s : State) (r : Reject) : Prop :=
  match r with
  | .illegal => isReserved i = true
  | .unbound => needsBinding i = true ∧ s.bound = false
  | .range => outOfRange i ∧ (needsBinding i = true → s.bound = true)

/-- The bits of operand A that a request uses (30 R71, R72), the others zero. -/
def usedA (op : BitVec 4) (a : Word) : Word :=
  match op.toNat with
  | 0x1 => a
  | 0x4 => a &&& 1#32
  | 0x5 => a &&& 0xFF#32
  | 0x6 => a &&& 0xFF#32
  | 0x8 => a
  | 0x9 => a
  | 0xA => a
  | 0xB => a
  | _ => 0#32

/-- The bits of operand B that a request uses (30 R71, R72), the others zero. -/
def usedB (op : BitVec 4) (b : Word) : Word :=
  match op.toNat with
  | 0x1 => b
  | 0x8 => b
  | 0xA => b
  | _ => 0#32

/-- The frames a request puts on the wire from idle-high (42 R177), each complete. -/
def wireFrames : Instr → List (List Byte)
  | .writeCommand b => [[b]]
  | .setBrightness l => [[0x88#8 ||| (clampLevel l).setWidth 8]]
  | .displayDigit p d => [[0x44#8], [0xC0#8 + BitVec.ofInt 8 p, segRom (BitVec.ofInt 4 d)]]
  | .displayNumber v =>
    [[0x44#8], [0xC0#8, segRom (digitsOf v).d0], [0xC1#8, segRom (digitsOf v).d1], [0xC2#8, segRom (digitsOf v).d2],
      [0xC3#8, segRom (digitsOf v).d3]]
  | .clearDisplay => [[0x44#8], [0xC0#8, 0#8], [0xC1#8, 0#8], [0xC2#8, 0#8], [0xC3#8, 0#8]]
  | .initializeDisplay _ _ =>
    [[0x44#8], [0xC0#8, 0#8], [0xC1#8, 0#8], [0xC2#8, 0#8], [0xC3#8, 0#8], [0x8F#8]]
  | _ => []

/-- The bytes of the groups of nine bits that are whole: eight data bits, the first lowest, and the ACK slot (42 R175). -/
def groupBytes : List Bit → List Byte
  | b0 :: b1 :: b2 :: b3 :: b4 :: b5 :: b6 :: b7 :: _ :: l => byteOfBits [b0, b1, b2, b3, b4, b5, b6, b7] :: groupBytes l
  | _ => []

/-- The reference receiver's reading of a whole frame (42 R182 to R186), acknowledged or not [log 13]. -/
def readFrame (bytes : List Byte) (r : Rx) : Rx :=
  match bytes with
  | [b] =>
    if b = 0x40#8 then { r with mode := some .auto }
    else if b = 0x44#8 then { r with mode := some .fixed }
    else if b &&& 0xF8#8 = 0x88#8 then { r with ctrl := some { on := true, level := b.extractLsb' 0 3 } }
    else Rx.top
  | [b, pat] =>
    if b &&& 0xFC#8 = 0xC0#8 ∧ r.mode = some .fixed then setDisp r (b.extractLsb' 0 2) pat else Rx.top
  | _ => Rx.top

/-! ### Frames -/

/-- The host's inputs, the latched request and the kind of receiver are as before. -/
def keepsInputs (s u : State) : Prop :=
  u.opL = s.opL ∧ u.aL = s.aL ∧ u.bL = s.bL ∧ u.receiver = s.receiver ∧ u.hostMoves = s.hostMoves ∧ u.rstIn = s.rstIn

/-- The binding is as before. -/
def keepsBinding (s u : State) : Prop := u.bound = s.bound ∧ u.clkSel = s.clkSel ∧ u.dioSel = s.dioSel

/-- The acknowledgment flag, `ack_o` and the byte write's registers are as before. -/
def keepsAck (s u : State) : Prop :=
  u.lastAck = s.lastAck ∧ u.ackO = s.ackO ∧ u.shreg = s.shreg ∧ u.bitcnt = s.bitcnt

/-- Lines, bus, decoder, receivers, trace and delivered frames are as before. -/
def keepsBus (s u : State) : Prop :=
  u.lines = s.lines ∧ u.dec = s.dec ∧ u.receivers = s.receivers ∧ u.rxInbox = s.rxInbox ∧ u.rxAddr = s.rxAddr ∧
    u.trace = s.trace ∧ u.delivered = s.delivered ∧ u.obs = s.obs

/-- Every receiver on another pair of lines is as before. -/
def keepsOtherReceivers (s u : State) : Prop :=
  ∀ p, p ≠ boundPair s → lookupRx u.receivers p = lookupRx s.receivers p

/-- The request has run to its `done` and was not rejected (40 R105). -/
def completed (u : State) : Prop :=
  u.busy = false ∧ u.done = true ∧ u.prog = [] ∧ u.rejected = false ∧ u.illegal = false ∧ u.unbound = false

/-- Everything a request that binds no lines and writes no digit leaves as it was, whatever it sends. -/
def requestFrame (s u : State) : Prop :=
  completed u ∧ keepsInputs s u ∧ keepsBinding s u ∧ u.dig = s.dig

/-! ### Observations of a rogue receiver -/

/-- The receiver pulls DIO low at an observation with the drivers at `l`, which drive DIO (93 U7). -/
def contends (s : State) (l : Lines) : Prop := l.dioOe = true ∧ Config.dioPull s.obs = true

/-- DIO is released before and after, and at an observation the receiver has changed it from the level it had while CLK
was high (93 U8). -/
def changesWhileHigh (s : State) (l : Lines) : Prop :=
  l.dioOe = false ∧ s.lines.dioOe = false ∧ s.dec.prev = some (true, Config.dioPull s.obs)

/-- The DIO level that the rogue receiver leaves at an observation with the drivers at `l` (10 R27). -/
def rogueLevel (s : State) (l : Lines) : Bit := if l.dioOe then l.dioLatch else !Config.dioPull s.obs

/-! ### Counts -/

/-- Line actions of a step list (40 R107). -/
def countActs : List PStep → Nat
  | [] => 0
  | .act _ :: l => countActs l + 1
  | .wait :: l => countActs l
  | .sample :: l => countActs l
  | .update _ :: l => countActs l
  | .bind _ _ :: l => countActs l

/-- Samples of a step list (40 R107). -/
def countSamples : List PStep → Nat
  | [] => 0
  | .act _ :: l => countSamples l
  | .wait :: l => countSamples l
  | .sample :: l => countSamples l + 1
  | .update _ :: l => countSamples l
  | .bind _ _ :: l => countSamples l

/-- Internal updates of a step list (70 R234). -/
def countUpdates : List PStep → Nat
  | [] => 0
  | .act _ :: l => countUpdates l
  | .wait :: l => countUpdates l
  | .sample :: l => countUpdates l
  | .update _ :: l => countUpdates l + 1
  | .bind _ _ :: l => countUpdates l

/-- What the engine does, without what it observes: a trace entry with its levels left out (40 R103). -/
inductive Shape where
  | ev (a : LineAction)
  | w
  | s
  | bind (clkId dioId : Word)
  deriving DecidableEq, Repr

/-- The engine's side of a trace entry. -/
def shape : TraceEntry → Shape
  | .ev a _ _ => .ev a
  | .w => .w
  | .s _ => .s
  | .bind c d => .bind c d

/-- The engine's side of the trace of a step list: each action with its wait (40 R102). -/
def shapesOf : List PStep → List Shape
  | [] => []
  | .act a :: l => .ev a :: .w :: shapesOf l
  | .wait :: l => .w :: shapesOf l
  | .sample :: l => .s :: shapesOf l
  | .update _ :: l => shapesOf l
  | .bind c d :: l => .bind c d :: shapesOf l

/-- The levels the samples of a trace read, in order. -/
def samplesOf : List TraceEntry → List Bit
  | [] => []
  | .s v :: l => v :: samplesOf l
  | .ev _ _ _ :: l => samplesOf l
  | .w :: l => samplesOf l
  | .bind _ _ :: l => samplesOf l

/-- The bytes of a frame and whether it is complete (42 R175), without the model's own mark. -/
def content (f : Frame) : List Byte × Bool := (f.bytes, f.complete)

/-- The levels of DIO at the CLK rising edges of a trace, in order, CLK having been at `c` before it (42 R170, R173). -/
def risingLevels : Bit → List TraceEntry → List Bit
  | _, [] => []
  | c, .ev _ c' v :: l => if !c && c' then v :: risingLevels c' l else risingLevels c' l
  | c, .w :: l => risingLevels c l
  | c, .s _ :: l => risingLevels c l
  | _, .bind _ _ :: l => risingLevels true l

end Sys2Proof.Machine
end

