-- ==== Sys2Proof/Certificates/Slice0/Obligations.lean ====
section
/-! DEFINITION. The statements for the provers. Each docstring names the rules of spec/ it states. -/

open Sys2Proof Sys2Proof.Machine

/-! ### Encoding -/

/-- 30 R70 to R76, R80 to R83: decoding the code of a well-formed instruction gives it back, with every operand at every
value its field admits. -/
def Obligations.DecodeInvertsEncode : Prop := ∀ i : Instr, i.wf = true → decode (encode i) = .ok i

/-- 30 R86: the worked encodings, both ways, and what the table says of each. -/
def Obligations.WorkedEncodings : Prop :=
  (encode (.configure 2 3) = .request 0x10000000200000003#68 ∧
    decode (.request 0x10000000200000003#68) = .ok (.configure 2 3)) ∧
  (encode .start = .request 0x20000000000000000#68 ∧ decode (.request 0x20000000000000000#68) = .ok .start) ∧
  (encode (.writeBit true) = .request 0x40000000100000000#68 ∧
    decode (.request 0x40000000100000000#68) = .ok (.writeBit true)) ∧
  (encode (.writeByte 0x3F#8) = .request 0x50000003F00000000#68 ∧
    decode (.request 0x50000003F00000000#68) = .ok (.writeByte 0x3F#8)) ∧
  (encode (.writeCommand 0x44#8) = .request 0x60000004400000000#68 ∧
    decode (.request 0x60000004400000000#68) = .ok (.writeCommand 0x44#8)) ∧
  (encode .stop = .request 0x30000000000000000#68 ∧ decode (.request 0x30000000000000000#68) = .ok .stop) ∧
  (encode (.initializeDisplay 2 3) = .request 0x80000000200000003#68 ∧
    decode (.request 0x80000000200000003#68) = .ok (.initializeDisplay 2 3)) ∧
  (encode (.setBrightness 4) = .request 0x90000000400000000#68 ∧
    decode (.request 0x90000000400000000#68) = .ok (.setBrightness 4) ∧ wireFrames (.setBrightness 4) = [[0x8C#8]]) ∧
  (encode (.setBrightness 10) = .request 0x90000000A00000000#68 ∧
    decode (.request 0x90000000A00000000#68) = .ok (.setBrightness 10) ∧
    wireFrames (.setBrightness 10) = [[0x8F#8]]) ∧
  (encode (.displayDigit 2 7) = .request 0xA0000000200000007#68 ∧
    decode (.request 0xA0000000200000007#68) = .ok (.displayDigit 2 7) ∧
    wireFrames (.displayDigit 2 7) = [[0x44#8], [0xC2#8, 0x07#8]]) ∧
  (encode (.displayNumber 1234) = .request 0xB000004D200000000#68 ∧
    decode (.request 0xB000004D200000000#68) = .ok (.displayNumber 1234)) ∧
  (encode (.displayNumber (-1)) = .request 0xBFFFFFFFF00000000#68 ∧
    decode (.request 0xBFFFFFFFF00000000#68) = .ok (.displayNumber (-1)) ∧ outOfRange (.displayNumber (-1))) ∧
  (encode (.displayNumber 10000) = .request 0xB0000271000000000#68 ∧
    decode (.request 0xB0000271000000000#68) = .ok (.displayNumber 10000) ∧ outOfRange (.displayNumber 10000)) ∧
  (encode .clearDisplay = .request 0xC0000000000000000#68 ∧
    decode (.request 0xC0000000000000000#68) = .ok .clearDisplay)

/-- 30 R74, R75: every request word decodes, to one of the eleven operations or, for the op codes 0x0, 0x7, 0xD, 0xE and 0xF
and no others, to a reserved op code. -/
def Obligations.RequestDecodingIsTotal : Prop :=
  ∀ w : RequestWord, ∃ i, decode (.request w) = .ok i ∧ isRequest i = true ∧
    (isReserved i = true ↔
      opField w = 0x0#4 ∨ opField w = 0x7#4 ∨ opField w = 0xD#4 ∨ opField w = 0xE#4 ∨ opField w = 0xF#4)

/-- 30 R73: ignored operand bits have no effect: a request accepted with them gives the same observation (70 R238: trace,
status, `ack_o`, line drivers, frames, reference receivers) as the request with those bits zero. -/
def Obligations.IgnoredOperandBitsHaveNoEffect : Prop :=
  ∀ (s : State) (op : BitVec 4) (a b : Word),
    observed (acceptAndRun op a b s) = observed (acceptAndRun op (usedA op a) (usedB op b) s)

/-- 30 R80 to R84: which command byte is which, and that every other byte is none; any byte is a data byte. -/
def Obligations.BusBytesByMatchAndMask : Prop :=
  ∀ b : Byte,
    (decode (.command b) = .ok .dataAuto ↔ b &&& 0xFF#8 = 0x40#8) ∧
    (decode (.command b) = .ok .dataFixed ↔ b &&& 0xFF#8 = 0x44#8) ∧
    ((∃ p, decode (.command b) = .ok (.addr p) ∧ b = 0xC0#8 + p.setWidth 8) ↔ b &&& 0xFC#8 = 0xC0#8) ∧
    ((∃ l, decode (.command b) = .ok (.displayCtrl l) ∧ b = 0x88#8 ||| l.setWidth 8) ↔ b &&& 0xF8#8 = 0x88#8) ∧
    (decode (.command b) = .error (.unknownCommand b) ↔
      b ≠ 0x40#8 ∧ b ≠ 0x44#8 ∧ b &&& 0xFC#8 ≠ 0xC0#8 ∧ b &&& 0xF8#8 ≠ 0x88#8) ∧
    decode (.data b) = .ok (.segmentData b)

/-! ### Tables and arithmetic -/

/-- 20 R50 to R52: the segment ROM; bit 7 of every entry is 0; the ROM's port is valid exactly on digits, and reads 0x00
elsewhere. -/
def Obligations.SegmentRom : Prop :=
  (segRom 0#4 = 0x3F#8 ∧ segRom 1#4 = 0x06#8 ∧ segRom 2#4 = 0x5B#8 ∧ segRom 3#4 = 0x4F#8 ∧ segRom 4#4 = 0x66#8 ∧
    segRom 5#4 = 0x6D#8 ∧ segRom 6#4 = 0x7D#8 ∧ segRom 7#4 = 0x07#8 ∧ segRom 8#4 = 0x7F#8 ∧ segRom 9#4 = 0x6F#8) ∧
  ∀ d : BitVec 4, (segRom d).getLsbD 7 = false ∧ (segValid d = true ↔ d.toNat ≤ 9) ∧
    (segValid d = false → segRom d = 0x00#8)

/-- 41 R144: the clamp, on every signed 32-bit level (and beyond). -/
def Obligations.BrightnessClamp : Prop :=
  ∀ l : Int, ((clampLevel l).toNat : Int) = if l < 0 then 0 else if l > 7 then 7 else l

/-- 41 R151: the digits of a number in 0..9999. -/
def Obligations.DigitDecomposition : Prop :=
  ∀ v : Int, 0 ≤ v → v ≤ 9999 →
    ((digitsOf v).d3.toNat : Int) = v % 10 ∧ ((digitsOf v).d2.toNat : Int) = v / 10 % 10 ∧
    ((digitsOf v).d1.toNat : Int) = v / 100 % 10 ∧ ((digitsOf v).d0.toNat : Int) = v / 1000 % 10 ∧
    ((digitsOf v).d0.toNat : Int) = v / 1000 ∧
    (digitsOf v).d0.toNat ≤ 9 ∧ (digitsOf v).d1.toNat ≤ 9 ∧ (digitsOf v).d2.toNat ≤ 9 ∧ (digitsOf v).d3.toNat ≤ 9 ∧
    ((digitsOf v).d0.toNat : Int) * 1000 + (digitsOf v).d1.toNat * 100 + (digitsOf v).d2.toNat * 10 +
      (digitsOf v).d3.toNat = v

/-- 40 R107: the counts of the shared sequences: line actions, samples and `CLK_SET(1)` actions. -/
def Obligations.SharedSequenceCounts : Prop :=
  (countActs startSeq = 2 ∧ countSamples startSeq = 0 ∧ startSeq.count (.act (.clkSet true)) = 0) ∧
  (countActs stopSeq = 4 ∧ countSamples stopSeq = 0 ∧ stopSeq.count (.act (.clkSet true)) = 1) ∧
  (∀ v, countActs (bitSeq v) = 5 ∧ countSamples (bitSeq v) = 0 ∧ (bitSeq v).count (.act (.clkSet true)) = 1) ∧
  (countActs ackSeq = 5 ∧ countSamples ackSeq = 1 ∧ ackSeq.count (.act (.clkSet true)) = 1) ∧
  (∀ b, countActs (byteSeq b) = 45 ∧ countSamples (byteSeq b) = 1 ∧ (byteSeq b).count (.act (.clkSet true)) = 9)

/-- 40 R126, 41 R158: line actions, samples and `CLK_SET(1)` actions of the list of each request that is not rejected. -/
def Obligations.RequestCounts : Prop :=
  ∀ (i : Instr) (s t : State) (n k e : Nat), exec i s = .next t → (∀ r, ¬ rejectedFor i s r) →
    (match i with
      | .start => n = 2 ∧ k = 0 ∧ e = 0
      | .stop => n = 4 ∧ k = 0 ∧ e = 1
      | .writeBit _ => n = 5 ∧ k = 0 ∧ e = 1
      | .writeByte _ => n = 45 ∧ k = 1 ∧ e = 9
      | .writeCommand _ => n = 51 ∧ k = 1 ∧ e = 10
      | .configure _ _ => n = 2 ∧ k = 0 ∧ e = 1
      | .initializeDisplay _ _ => n = 488 ∧ k = 10 ∧ e = 97
      | .setBrightness _ => n = 51 ∧ k = 1 ∧ e = 10
      | .displayDigit _ _ => n = 147 ∧ k = 3 ∧ e = 29
      | .displayNumber _ => n = 435 ∧ k = 9 ∧ e = 86
      | .clearDisplay => n = 435 ∧ k = 9 ∧ e = 86
      | _ => False) →
    countActs t.prog = n ∧ countSamples t.prog = k ∧ t.prog.count (.act (.clkSet true)) = e

/-! ### Reset -/

/-- 10 R40: the initial state. The receiver on every pair of lines is unknown in every display element. (Of the decoder,
whose phase before a binding is the model's choice, log 12, it says nothing.) -/
def Obligations.ResetStateIsTheTable : Prop :=
  blockAtReset State.reset ∧ Obligations.SegmentRom ∧ ∀ p, lookupRx State.reset.receivers p = Rx.top

/-- 70 R220, R222, R223, R238; 60 R208: a step with `rst` high puts the block into its reset state, whatever it was doing
and whatever the host offers, and a run that it cuts ends there: nothing is accepted, no `done` is pulsed, nothing more
reaches the trace; a receiver whose transaction was open is unknown, every other keeps its state. -/
def Obligations.ResetWinsAndAbandons : Prop :=
  ∀ s, s.rxInbox = none → rstHigh s = true → receiversWf s.receivers = true →
    reqReady s = false ∧ (∀ n, runSteps (n + 1) s = step s) ∧
    ∃ t, step s = .next t ∧ blockAtReset t ∧ t.hostMoves = s.hostMoves ∧ t.rstIn = s.rstIn.tail ∧
      t.trace = s.trace ∧ t.delivered = s.delivered ∧ inTxn t = false ∧
      (inTxn s = true → lookupRx t.receivers (boundPair s) = Rx.top) ∧
      (inTxn s = false → lookupRx t.receivers (boundPair s) = rxOf s) ∧ keepsOtherReceivers s t

/-! ### The step -/

/-- 10 R21, 40 R105, 42 R182 to R186: a step that finds the engine ready and a request offered is `exec` of the decoded
request, its operands latched and the host moved on; a step that finds a delivered frame is `exec` of its next bus byte,
decoded by its place; a command byte of no table makes the receiver unknown. -/
def Obligations.StepRunsDecodedInstruction : Prop :=
  (∀ s op a b ms, s.rxInbox = none → rstHigh s = false → s.busy = false → s.hostMoves = .offer op a b :: ms →
    step s = exec (decodeRequest op a b)
      { s with opL := op, aL := a, bL := b, hostMoves := ms, rstIn := s.rstIn.tail, cycles := s.cycles + 1 }) ∧
  (∀ s b rest i, s.rxInbox = some (b :: rest) → s.rxAddr = none → decode (.command b) = .ok i →
    step s = exec i { s with rxInbox := some rest }) ∧
  (∀ s b rest p, s.rxInbox = some (b :: rest) → s.rxAddr = some p →
    step s = exec (.segmentData b) { s with rxInbox := some rest }) ∧
  (∀ s b rest, s.rxInbox = some (b :: rest) → s.rxAddr = none → decode (.command b) = .error (.unknownCommand b) →
    receiversWf s.receivers = true → ∃ t, step s = .next t ∧ rxOf t = Rx.top ∧ t.rxInbox = none)

/-- 40 R100: the effect of each line action on the drivers. -/
def Obligations.LineActionEffects : Prop :=
  ∀ (s : State) (rest : List PStep) (a : LineAction), s.receiver ≠ .rogue →
    ∃ t, performEntry (.act a) rest s = .next t ∧
      match a with
      | .clkSet v => t.lines = { s.lines with clkOe := true, clkO := v }
      | .dioLow => t.lines = { s.lines with dioOe := true, dioLatch := false }
      | .dioHigh => t.lines = { s.lines with dioOe := true, dioLatch := true }
      | .dioRelease => t.lines = { s.lines with dioOe := false }
      | .dioRestore => t.lines = { s.lines with dioOe := true }

/-- 10 R44, 40 R101: a step changes the line drivers only by the line action or the `Bind` that is next in the list of a
busy engine, or by reset. -/
def Obligations.DriversChangeOnlyByActions : Prop :=
  ∀ s t, step s = .next t →
    t.lines = s.lines ∨
    (s.busy = true ∧ ∃ a rest, s.prog = .act a :: rest ∧ t.lines = applyAction a s.lines) ∨
    (s.busy = true ∧ ∃ c d rest, s.prog = .bind c d :: rest ∧
      t.lines = { s.lines with clkOe := false, dioOe := false }) ∨
    (rstHigh s = true ∧ t.lines = { clkOe := false, clkO := true, dioOe := false, dioLatch := true })

/-- 40 R102, R104; 10 R25, R27; 60 R211: every line action's event carries the bus levels it makes, and one settle wait
follows it; a sample reads the bus and has no wait of its own. The levels: CLK as driven, or its free value; DIO the latch
while driven, 1 while released with no receiver, the reference receiver's answer with it (42 R181). That the timer is loaded
by the action's step is the model's (log 1), and so is the count of cycles (log 24). -/
def Obligations.WaitFollowsEveryAction : Prop :=
  (∀ s a rest, s.busy = true → calm s → rstHigh s = false → s.prog = .act a :: rest →
    ∃ t v, step s = .next t ∧ t.prog = .wait :: rest ∧ t.waitCnt = Config.settleCycles ∧
      t.lines = applyAction a s.lines ∧ t.trace = s.trace ++ [.ev a (clkBus t.lines s.obs) v] ∧
      (t.lines.dioOe = true → v = t.lines.dioLatch) ∧
      (t.lines.dioOe = false → s.receiver = .absent → v = true) ∧
      (t.lines.dioOe = false → s.receiver = .reference → v = !refPulls s)) ∧
  (∀ s rest, s.busy = true → s.rxInbox = none → rstHigh s = false → s.prog = .wait :: rest →
    ∃ t, step s = .next t ∧ t.prog = rest ∧ t.waitCnt = 0 ∧ t.cycles = s.cycles + s.waitCnt ∧ t.lines = s.lines ∧
      t.trace = s.trace ++ [.w]) ∧
  (∀ s rest, s.busy = true → calm s → rstHigh s = false → s.prog = .sample :: rest →
    ∃ t v, step s = .next t ∧ t.prog = rest ∧ t.lines = s.lines ∧ t.waitCnt = s.waitCnt ∧ t.trace = s.trace ++ [.s v] ∧
      t.lastAck = !v ∧ t.reqNack = (s.reqNack || v) ∧
      (s.lines.dioOe = true → v = s.lines.dioLatch) ∧
      (s.lines.dioOe = false → s.receiver = .absent → v = true) ∧
      (s.lines.dioOe = false → s.receiver = .reference → v = !refPulls s))

/-- 10 R33: `aidx` is 0 at acceptance, advances by exactly 1 as each step completes, and counts every step of the list,
each line action with its wait, when the request is done. -/
def Obligations.StepIndexCountsSteps : Prop :=
  (∀ i s t, isRequest i = true → exec i s = .next t → t.aidx = 0) ∧
  (∀ s t, s.rxInbox = none → rstHigh s = false → s.busy = true → s.prog ≠ [] → step s = .next t →
    t.aidx = s.aidx + 1) ∧
  (∀ i s t u, isRequest i = true → s.rxInbox = none → exec i s = .next t → request i s = .next u →
    u.aidx = t.prog.length + countActs t.prog)

/-- 40 R105, 10 R21: when no step is left the request finishes: NACK is copied, BUSY falls and `done` is high; in the next
cycle, with nothing offered, `done` is low again and the engine is ready. -/
def Obligations.FinishPulsesDone : Prop :=
  ∀ s, s.rxInbox = none → s.rstIn = [] → s.busy = true → s.prog = [] →
    ∃ t, step s = .next t ∧ t.busy = false ∧ t.done = true ∧ t.nack = s.reqNack ∧ reqReady t = true ∧ keepsBus s t ∧
      keepsBinding s t ∧ keepsAck s t ∧
      (t.hostMoves = [] → ∃ u, step t = .next u ∧ u.done = false ∧ u.busy = false ∧ reqReady u = true ∧
        statusWord u = statusWord t ∧ u.ackO = t.ackO)

/-- 00 R13, 20 R64: a step only ever appends to the trace and to the delivered frames. -/
def Obligations.TraceOnlyGrows : Prop :=
  ∀ s t, step s = .next t → s.trace <+: t.trace ∧ s.delivered <+: t.delivered

/-- 10 R30: the bits of the status word; bit 7 reads 0. -/
def Obligations.StatusWordBits : Prop :=
  ∀ s, (statusWord s).getLsbD 0 = s.busy ∧ (statusWord s).getLsbD 1 = s.bound ∧ (statusWord s).getLsbD 2 = s.lastAck ∧
    (statusWord s).getLsbD 3 = s.nack ∧ (statusWord s).getLsbD 4 = s.rejected ∧
    (statusWord s).getLsbD 5 = s.illegal ∧ (statusWord s).getLsbD 6 = s.unbound ∧ (statusWord s).getLsbD 7 = false

/-- 60 R206: no step of a machine whose receiver keeps 42 R176 stops: it always answers a next state. (That the
reference receiver does so at a `DIO_HIGH` with eight bits committed is the model's, log 31.) -/
def Obligations.StepNeverStopsWithoutRogue : Prop := ∀ s, s.receiver ≠ .rogue → ∃ t, step s = .next t

/-- 60 R206, 93 U7, U8: with a rogue receiver (the model's kind, log 9) the step of a line action or of a sample faults
`EnvContention` exactly where the receiver pulls a driven DIO, `EnvSpuriousCondition` exactly where it changes a released
DIO while CLK is high, and otherwise goes on with the level it reads. No other step of any machine faults. Whether the
receiver pulls is a free value. -/
def Obligations.RogueReceiverFaults : Prop :=
  (∀ s a rest l, s.receiver = .rogue → s.rxInbox = none → rstHigh s = false → s.busy = true → s.prog = .act a :: rest →
    l = applyAction a s.lines →
    (step s = .fault .envContention ↔ contends s l) ∧ (step s = .fault .envSpuriousCondition ↔ changesWhileHigh s l) ∧
    (¬ contends s l → ¬ changesWhileHigh s l → ∃ t, step s = .next t ∧ t.prog = .wait :: rest ∧ t.lines = l ∧
      t.trace = s.trace ++ [.ev a (clkBus l s.obs) (rogueLevel s l)])) ∧
  (∀ s rest, s.receiver = .rogue → s.rxInbox = none → rstHigh s = false → s.busy = true → s.prog = .sample :: rest →
    (step s = .fault .envContention ↔ contends s s.lines) ∧
    (step s = .fault .envSpuriousCondition ↔ changesWhileHigh s s.lines) ∧
    (¬ contends s s.lines → ¬ changesWhileHigh s s.lines → ∃ t, step s = .next t ∧ t.prog = rest ∧ t.lines = s.lines ∧
      t.trace = s.trace ++ [.s (rogueLevel s s.lines)])) ∧
  (∀ s f, step s = .fault f →
    s.receiver = .rogue ∧ s.rxInbox = none ∧ rstHigh s = false ∧ s.busy = true ∧
      ((∃ a rest, s.prog = .act a :: rest) ∨ ∃ rest, s.prog = .sample :: rest))

/-! ### Invariants -/

/-- The invariant holds at reset. (Its clause on the decoder before a binding rests on log 12.) -/
def Obligations.InvariantHoldsAtReset : Prop := Machine.Inv State.reset

/-- 10 R24, R31, R38, R39; 60 R211: every step of every state that meets the invariant keeps it. -/
def Obligations.StepKeepsInvariant : Prop := ∀ s t, Machine.Inv s → step s = .next t → Machine.Inv t

/-- 10 R24, R38: in every run, whatever the host and the receiver do: a binding names two different lines of the
platform, and between requests both drivers are enabled exactly if a binding has been made; while none is, no transaction is
open (10 R37). That the decoder is in IDLE before a first binding is the model's (log 12), and that a reset inside a transaction
puts it there, too (log 20). -/
def Obligations.EveryRunKeepsBindingAndDrivers : Prop :=
  ∀ s, reachable s →
    (s.bound = true → s.clkSel ≠ s.dioSel ∧ s.clkSel.toNat < Config.numLines ∧ s.dioSel.toNat < Config.numLines) ∧
    (s.busy = false → s.bound = true → s.lines.clkOe = true ∧ s.lines.dioOe = true) ∧
    (s.busy = false → s.bound = false → s.lines.clkOe = false ∧ s.lines.dioOe = false ∧ inTxn s = false)

/-- 10 R39, 40 R109, 70 R233: in every run the DIO latch is 0 inside a transaction, so DIO is never driven high there. -/
def Obligations.EveryRunKeepsOpenDrain : Prop :=
  ∀ s, reachable s → inTxn s = true →
    s.lines.dioLatch = false ∧ ¬ (s.lines.dioOe = true ∧ s.lines.dioLatch = true)

/-- 10 R31: in every run at most one of REJECTED, ILLEGAL and UNBOUND is set, and with one of them NACK is 0. -/
def Obligations.EveryRunKeepsRejectsExclusive : Prop :=
  ∀ s, reachable s →
    ¬ (s.rejected = true ∧ s.illegal = true) ∧ ¬ (s.rejected = true ∧ s.unbound = true) ∧
    ¬ (s.illegal = true ∧ s.unbound = true) ∧
    (s.rejected = true ∨ s.illegal = true ∨ s.unbound = true → s.nack = false ∧ s.prog = [])

/-! ### Bus primitives: acceptance, and the request run to its `done` -/

/-- 40 R110, R111, R112: `CONFIGURE` with valid ids, at every operand: the list, the `Bind` exactly when the pair is not the
bound one, both lines driven high, nothing sent, no acknowledgment touched and no receiver changed: none by a first binding
(no transaction is open before it: EveryRunKeepsBindingAndDrivers), none by the bound pair outside a transaction, and none
on other lines by the bound pair inside one. -/
def Obligations.ConfigureBindsAndDrivesHigh : Prop :=
  ∀ (s : State) (c d : Nat), calm s → c < 2 ^ 32 → d < 2 ^ 32 → ¬ outOfRange (.configure c d) →
    (∃ l, exec (.configure c d) s = .next (loadList s l) ∧
      (s.bound = true ∧ c = s.clkSel.toNat ∧ d = s.dioSel.toNat → l = [.act (.clkSet true), .act .dioHigh]) ∧
      (¬ (s.bound = true ∧ c = s.clkSel.toNat ∧ d = s.dioSel.toNat) →
        l = [.bind (BitVec.ofNat 32 c) (BitVec.ofNat 32 d), .act (.clkSet true), .act .dioHigh])) ∧
    ∃ u v, request (.configure c d) s = .next u ∧ completed u ∧ keepsInputs s u ∧ keepsAck s u ∧ u.dig = s.dig ∧
      u.nack = false ∧ u.bound = true ∧ u.clkSel.toNat = c ∧ u.dioSel.toNat = d ∧
      u.lines = { clkOe := true, clkO := true, dioOe := true, dioLatch := true } ∧
      (s.bound = true ∧ c = s.clkSel.toNat ∧ d = s.dioSel.toNat →
        u.trace = s.trace ++ [.ev (.clkSet true) true v, .w, .ev .dioHigh true true, .w] ∧
          (s.lines.dioOe = true → v = s.lines.dioLatch) ∧ keepsOtherReceivers s u ∧
          (driven s → inTxn s = false → u.delivered = s.delivered ∧ u.receivers = s.receivers)) ∧
      (¬ (s.bound = true ∧ c = s.clkSel.toNat ∧ d = s.dioSel.toNat) →
        u.trace = s.trace ++ [.bind (BitVec.ofNat 32 c) (BitVec.ofNat 32 d), .ev (.clkSet true) true v, .w,
          .ev .dioHigh true true, .w] ∧ idleHigh u ∧ u.delivered = s.delivered) ∧
      (s.bound = false → inTxn s = false → u.receivers = s.receivers)

/-- 10 R45, 42 R180, 41 R142: a binding of another pair, by `CONFIGURE` or by `INITIALIZE`, leaves the receiver of the old
pair unknown if its transaction was open, as it was otherwise, and every other receiver as it was, but for the one on the
new pair, to which `INITIALIZE` sends its frames. -/
def Obligations.RebindingAbandonsOpenTransaction : Prop :=
  ∀ (s : State) (c d : Nat), calm s → c < 2 ^ 32 → d < 2 ^ 32 → ¬ outOfRange (.configure c d) → s.bound = true →
    (c ≠ s.clkSel.toNat ∨ d ≠ s.dioSel.toNat) → receiversWf s.receivers = true →
    (∃ u, request (.configure c d) s = .next u ∧
      (inTxn s = true → lookupRx u.receivers (boundPair s) = Rx.top) ∧
      (inTxn s = false → lookupRx u.receivers (boundPair s) = rxOf s) ∧ keepsOtherReceivers s u) ∧
    (∃ u, request (.initializeDisplay c d) s = .next u ∧
      (inTxn s = true → lookupRx u.receivers (boundPair s) = Rx.top) ∧
      (inTxn s = false → lookupRx u.receivers (boundPair s) = rxOf s) ∧
      ∀ p, p ≠ boundPair s → p ≠ boundPair u → lookupRx u.receivers p = lookupRx s.receivers p)

/-- 40 R110: `CONFIGURE` of the bound pair inside an open transaction closes the frame with a stop condition.
(The frame's `acked` mark is the model's, log 13.) -/
def Obligations.ConfigureSamePairClosesFrame : Prop :=
  ∀ (s : State), calm s → s.bound = true → atByteBoundary s →
    ¬ outOfRange (.configure s.clkSel.toNat s.dioSel.toNat) →
    ∃ u, request (.configure s.clkSel.toNat s.dioSel.toNat) s = .next u ∧ idleHigh u ∧
      u.delivered = s.delivered ++ [{ bytes := s.dec.bytes, complete := true, acked := s.dec.acked }]

/-- 40 R113: `START` in every bound state; from idle-high its first event is a start condition. -/
def Obligations.StartCompletes : Prop :=
  ∀ s : State, calm s → s.bound = true →
    exec .start s = .next (loadList s [.act .dioLow, .act (.clkSet false)]) ∧
    ∃ u, request .start s = .next u ∧ requestFrame s u ∧ keepsAck s u ∧ u.nack = false ∧
      u.lines = { clkOe := true, clkO := false, dioOe := true, dioLatch := false } ∧
      u.trace = s.trace ++ [.ev .dioLow (clkBus s.lines s.obs) false, .w, .ev (.clkSet false) false false, .w] ∧
      keepsOtherReceivers s u ∧
      (idleHigh s → clkBus s.lines s.obs = true ∧ inTxn u = true ∧ atByteBoundary u ∧ u.dec.bytes = [] ∧
        u.delivered = s.delivered ∧ u.receivers = s.receivers)

/-- 40 R114: `START` with CLK low makes no condition: the decoder stays in the frame it was in. -/
def Obligations.StartWithoutIdleHighMakesNoCondition : Prop :=
  ∀ s : State, calm s → s.bound = true → s.lines.clkOe = true → s.lines.clkO = false →
    (∃ v, s.dec.prev = some (false, v)) →
    ∃ u, request .start s = .next u ∧ u.dec = { s.dec with prev := some (false, false) } ∧
      u.delivered = s.delivered ∧ u.receivers = s.receivers ∧
      u.trace = s.trace ++ [.ev .dioLow false false, .w, .ev (.clkSet false) false false, .w]

/-- 40 R115, R116: `STOP` in every bound state ends idle-high; at a byte boundary of a frame it delivers the frame,
complete; outside a frame it delivers nothing. (The frame's `acked` mark is the model's, log 13; with the reference receiver
and eight bits committed, that the line goes high is, too, log 31.) -/
def Obligations.StopCompletes : Prop :=
  ∀ s : State, calm s → s.bound = true →
    exec .stop s = .next (loadList s [.act (.clkSet false), .act .dioLow, .act (.clkSet true), .act .dioHigh]) ∧
    ∃ u v, request .stop s = .next u ∧ requestFrame s u ∧ keepsAck s u ∧ u.nack = false ∧ idleHigh u ∧
      u.trace = s.trace ++ [.ev (.clkSet false) false v, .w, .ev .dioLow false false, .w,
        .ev (.clkSet true) true false, .w, .ev .dioHigh true true, .w] ∧
      (s.lines.dioOe = true → v = s.lines.dioLatch) ∧ keepsOtherReceivers s u ∧
      (atByteBoundary s → u.delivered =
        s.delivered ++ [{ bytes := s.dec.bytes, complete := true, acked := s.dec.acked }]) ∧
      (driven s → inTxn s = false → u.delivered = s.delivered ∧ u.receivers = s.receivers)

/-- 40 R117: `WRITE_BIT` in every bound state: a 1 releases DIO and keeps the latch, a 0 drives it low; no sample. -/
def Obligations.WriteBitCompletes : Prop :=
  ∀ (s : State) (v : Bit), calm s → s.bound = true →
    exec (.writeBit v) s = .next (loadList s [.act (.clkSet false), .act (if v then .dioRelease else .dioLow),
      .act (.clkSet true), .act (.clkSet false), .act .dioRestore]) ∧
    ∃ u r0 r1 r2 r3, request (.writeBit v) s = .next u ∧ requestFrame s u ∧ keepsAck s u ∧ u.nack = false ∧
      keepsOtherReceivers s u ∧
      u.lines = { clkOe := true, clkO := false, dioOe := true, dioLatch := if v then s.lines.dioLatch else false } ∧
      u.trace = s.trace ++ [.ev (.clkSet false) false r0, .w, .ev (if v then .dioRelease else .dioLow) false r1, .w,
        .ev (.clkSet true) true r2, .w, .ev (.clkSet false) false r3, .w,
        .ev .dioRestore false (if v then s.lines.dioLatch else false), .w] ∧
      (s.lines.dioOe = true → r0 = s.lines.dioLatch) ∧
      (v = false → r1 = false ∧ r2 = false ∧ r3 = false) ∧
      (v = true → s.receiver = .absent → r1 = true ∧ r2 = true ∧ r3 = true) ∧
      (v = true → driven s → (inTxn s = true → s.lines.clkO = false ∧ s.dec.bits.length < 8) →
        r1 = true ∧ r2 = true ∧ r3 = true)

/-- 40 R120 to R122: `WRITE_BYTE` in every bound state: 45 actions, one sample `r`, and `ack_o`, LAST_ACK and NACK from
it; the latch is kept exactly by the byte 0xFF. -/
def Obligations.WriteByteCompletes : Prop :=
  ∀ (s : State) (b : Byte), calm s → s.bound = true →
    exec (.writeByte b) s = .next (loadList s (byteSeq b ++ [.update .latchAck])) ∧
    ∃ u tr r, request (.writeByte b) s = .next u ∧ requestFrame s u ∧ keepsOtherReceivers s u ∧
      u.trace = s.trace ++ tr ∧ tr.map shape = shapesOf (byteSeq b) ∧ samplesOf tr = [r] ∧
      u.ackO = !r ∧ u.lastAck = !r ∧ u.nack = r ∧
      u.lines = { clkOe := true, clkO := false, dioOe := true
                  dioLatch := if b = 0xFF#8 then s.lines.dioLatch else false }

/-- 20 R56; 40 R118, R120: a byte goes out least significant bit first: at the eight CLK rising edges before the ACK slot
the bus carries bit 0 to bit 7 of the byte, from every state at a byte boundary or outside a frame, for every receiver
that keeps 42 R176. -/
def Obligations.ByteGoesOutLsbFirst : Prop :=
  ∀ (s : State) (b : Byte), calm s → s.bound = true → (atByteBoundary s ∨ (driven s ∧ inTxn s = false)) →
    ∃ u tr, request (.writeByte b) s = .next u ∧ u.trace = s.trace ++ tr ∧
      (risingLevels s.lines.clkO tr).take 8 =
        [b.getLsbD 0, b.getLsbD 1, b.getLsbD 2, b.getLsbD 3, b.getLsbD 4, b.getLsbD 5, b.getLsbD 6, b.getLsbD 7] ∧
      (risingLevels s.lines.clkO tr).length = 9

/-- 42 R175, 40 R120: at a byte boundary of an open frame, a byte written is the frame's next byte, and the decoder is
at a byte boundary again. (The `acked` mark is the model's, log 13.) -/
def Obligations.WriteByteExtendsFrame : Prop :=
  ∀ (s : State) (b : Byte), calm s → s.bound = true → atByteBoundary s →
    ∃ u, request (.writeByte b) s = .next u ∧ atByteBoundary u ∧ u.dec.bytes = s.dec.bytes ++ [b] ∧
      u.dec.acked = (s.dec.acked && u.lastAck) ∧ u.delivered = s.delivered ∧ u.receivers = s.receivers

/-- 40 R123: `WRITE_COMMAND` in every bound state ends idle-high and leaves `ack_o`. -/
def Obligations.WriteCommandCompletes : Prop :=
  ∀ (s : State) (b : Byte), calm s → s.bound = true →
    exec (.writeCommand b) s = .next (loadList s (startSeq ++ byteSeq b ++ stopSeq)) ∧
    ∃ u tr r, request (.writeCommand b) s = .next u ∧ requestFrame s u ∧ idleHigh u ∧ keepsOtherReceivers s u ∧
      u.trace = s.trace ++ tr ∧ tr.map shape = shapesOf (startSeq ++ byteSeq b ++ stopSeq) ∧ samplesOf tr = [r] ∧
      u.ackO = s.ackO ∧ u.lastAck = !r ∧ u.nack = r

/-- 40 R124: `WRITE_COMMAND b` ends idle-high whatever the answer; inside an open frame it adds its byte to that frame and
closes it; and it gives the same trace, lines and frames as `START`, `WRITE_BYTE b`, `STOP`: only the second form writes
`ack_o`, and its NACK is that of its last request alone. (The frame's `acked` mark is the model's, log 13.) -/
def Obligations.WriteCommandCornerCases : Prop :=
  ∀ (s : State) (b : Byte), calm s → s.bound = true →
    ∃ u v, request (.writeCommand b) s = .next u ∧ requests [.start, .writeByte b, .stop] s = .next v ∧
      idleHigh u ∧
      (atByteBoundary s → u.delivered = s.delivered ++
        [{ bytes := s.dec.bytes ++ [b], complete := true, acked := s.dec.acked && u.lastAck }]) ∧
      u.trace = v.trace ∧ u.lines = v.lines ∧ u.delivered = v.delivered ∧ u.dec = v.dec ∧
      u.receivers = v.receivers ∧ u.lastAck = v.lastAck ∧ u.ackO = s.ackO ∧ v.ackO = v.lastAck ∧
      u.nack = !u.lastAck ∧ v.nack = false

/-- 10 R42, R43: the lines and `in_txn` after each kind of request that was not rejected, from every bound state whose
lines are driven and whose latch is 0 inside a transaction; every operation but `START`, `WRITE_BIT` and `WRITE_BYTE`
leaves the precondition of a start. -/
def Obligations.LineStateAfterEachRequest : Prop :=
  ∀ (i : Instr) (s : State), isRequest i = true → calm s → s.bound = true → driven s →
    (inTxn s = true → s.lines.dioLatch = false) → (∀ r, ¬ rejectedFor i s r) →
    ∃ u, request i s = .next u ∧ driven u ∧
      match i with
      | .start => u.lines.clkO = false ∧ u.lines.dioLatch = false ∧
          (idleHigh s ∨ inTxn s = true → inTxn u = true)
      | .writeBit v => u.lines.clkO = false ∧ u.lines.dioLatch = (if v then s.lines.dioLatch else false) ∧
          inTxn u = inTxn s
      | .writeByte b => u.lines.clkO = false ∧ u.lines.dioLatch = (if b = 0xFF#8 then s.lines.dioLatch else false) ∧
          inTxn u = inTxn s
      | _ => idleHigh u

/-! ### Sequencer -/

/-- 41 R143: `SET_BRIGHTNESS` in every bound state, at every level. -/
def Obligations.SetBrightnessCompletes : Prop :=
  ∀ (s : State) (l : Int), calm s → s.bound = true →
    exec (.setBrightness l) s = .next (loadList s (cmdFrame (0x88#8 ||| (clampLevel l).setWidth 8))) ∧
    ∃ u tr r, request (.setBrightness l) s = .next u ∧ requestFrame s u ∧ idleHigh u ∧ keepsOtherReceivers s u ∧
      u.trace = s.trace ++ tr ∧ tr.map shape = shapesOf (cmdFrame (0x88#8 ||| (clampLevel l).setWidth 8)) ∧
      samplesOf tr = [r] ∧ u.ackO = s.ackO ∧ u.lastAck = !r ∧ u.nack = r

/-- 41 R146, R148: `DISPLAY_DIGIT` in every bound state, at every position and digit in range. -/
def Obligations.DisplayDigitCompletes : Prop :=
  ∀ (s : State) (p d : Int), calm s → s.bound = true → 0 ≤ p → p ≤ 3 → 0 ≤ d → d ≤ 9 →
    exec (.displayDigit p d) s = .next (loadList s
      (cmdFrame 0x44#8 ++ addrFrame (BitVec.ofInt 2 p) (segRom (BitVec.ofInt 4 d)))) ∧
    ∃ u tr r1 r2 r3, request (.displayDigit p d) s = .next u ∧ requestFrame s u ∧ idleHigh u ∧
      keepsOtherReceivers s u ∧ u.trace = s.trace ++ tr ∧
      tr.map shape = shapesOf (cmdFrame 0x44#8 ++ addrFrame (BitVec.ofInt 2 p) (segRom (BitVec.ofInt 4 d))) ∧
      samplesOf tr = [r1, r2, r3] ∧ u.ackO = s.ackO ∧ u.lastAck = !r3 ∧ u.nack = (r1 || r2 || r3)

/-- 41 R150: `DISPLAY_NUMBER` in every bound state, at every value in range; the digit registers hold its digits. -/
def Obligations.DisplayNumberCompletes : Prop :=
  ∀ (s : State) (v : Int), calm s → s.bound = true → 0 ≤ v → v ≤ 9999 →
    ∃ l, l = cmdFrame 0x44#8 ++ addrFrame 0#2 (segRom (digitsOf v).d0) ++ addrFrame 1#2 (segRom (digitsOf v).d1) ++
        addrFrame 2#2 (segRom (digitsOf v).d2) ++ addrFrame 3#2 (segRom (digitsOf v).d3) ∧
      exec (.displayNumber v) s = .next (setDigits (loadList s l) (digitsOf v)) ∧
      ∃ u tr, request (.displayNumber v) s = .next u ∧ completed u ∧ keepsInputs s u ∧ keepsBinding s u ∧
        u.dig = digitsOf v ∧ idleHigh u ∧ keepsOtherReceivers s u ∧ u.trace = s.trace ++ tr ∧
        tr.map shape = shapesOf l ∧ (samplesOf tr).length = 9 ∧ u.ackO = s.ackO ∧
        (samplesOf tr).getLast? = some (!u.lastAck) ∧ u.nack = (samplesOf tr).any id

/-- 41 R153: `CLEAR_DISPLAY` in every bound state. -/
def Obligations.ClearDisplayCompletes : Prop :=
  ∀ s : State, calm s → s.bound = true →
    ∃ l, l = cmdFrame 0x44#8 ++ addrFrame 0#2 0x00#8 ++ addrFrame 1#2 0x00#8 ++ addrFrame 2#2 0x00#8 ++
        addrFrame 3#2 0x00#8 ∧
      exec .clearDisplay s = .next (loadList s l) ∧
      ∃ u tr, request .clearDisplay s = .next u ∧ requestFrame s u ∧ idleHigh u ∧ keepsOtherReceivers s u ∧
        u.trace = s.trace ++ tr ∧ tr.map shape = shapesOf l ∧ (samplesOf tr).length = 9 ∧ u.ackO = s.ackO ∧
        (samplesOf tr).getLast? = some (!u.lastAck) ∧ u.nack = (samplesOf tr).any id

/-- 41 R140, R142: `INITIALIZE` with valid ids in every state, bound or not: the lines are bound, the display is cleared
and the brightness set to 7; ten bytes, and the last one's acknowledgment in LAST_ACK. No receiver changes but the one on the
new lines and, if a transaction is open, the one on the old lines (RebindingAbandonsOpenTransaction says how). -/
def Obligations.InitializeCompletes : Prop :=
  ∀ (s : State) (c d : Nat), calm s → c < 2 ^ 32 → d < 2 ^ 32 → ¬ outOfRange (.initializeDisplay c d) →
    ∃ l, exec (.initializeDisplay c d) s = .next (loadList s l) ∧
      (∃ l0, exec (.configure c d) s = .next (loadList s l0) ∧
        l = l0 ++ (cmdFrame 0x44#8 ++ addrFrame 0#2 0x00#8 ++ addrFrame 1#2 0x00#8 ++ addrFrame 2#2 0x00#8 ++
          addrFrame 3#2 0x00#8) ++ cmdFrame 0x8F#8) ∧
      ∃ u tr, request (.initializeDisplay c d) s = .next u ∧ completed u ∧ keepsInputs s u ∧ u.dig = s.dig ∧
        u.bound = true ∧ u.clkSel.toNat = c ∧ u.dioSel.toNat = d ∧ idleHigh u ∧ u.trace = s.trace ++ tr ∧
        tr.map shape = shapesOf l ∧ (samplesOf tr).length = 10 ∧ u.ackO = s.ackO ∧
        (samplesOf tr).getLast? = some (!u.lastAck) ∧ u.nack = (samplesOf tr).any id ∧
        (∀ p, p ≠ boundPair u → p ≠ boundPair s ∨ inTxn s = false → lookupRx u.receivers p = lookupRx s.receivers p)

/-! ### Rejects -/

/-- 60 R200, R201, R202, R205: every request, in every state, with every operand: it is turned down for the first reason
that applies, in the order Illegal, Unbound, Range; then its status bit is set, it makes no line action, and nothing of
binding, lines, acknowledgment or receivers changes, and `done` is pulsed. Where no reason applies no bit is set. -/
def Obligations.RejectsAsTabled : Prop :=
  ∀ (i : Instr) (s : State), isRequest i = true →
    (∀ r, rejectedFor i s r →
      exec i s = .next (reject s r) ∧
      ∃ u, request i s = .next u ∧ u.done = true ∧ u.busy = false ∧ u.prog = [] ∧ u.nack = false ∧
        u.rejected = decide (r = .range) ∧ u.illegal = decide (r = .illegal) ∧ u.unbound = decide (r = .unbound) ∧
        keepsBinding s u ∧ keepsAck s u ∧ keepsBus s u ∧ keepsInputs s u ∧ u.dig = s.dig) ∧
    ((∀ r, ¬ rejectedFor i s r) → ∃ t, exec i s = .next t ∧ anyReject t = false ∧ t.prog ≠ [])

/-- 30 R74, 60 R201: each reserved op code, in every state, bound or not: ILLEGAL is set and nothing else of the block, the
lines or the receivers is changed; the request completes with `done`. -/
def Obligations.ReservedOpsRejectIllegal : Prop :=
  ∀ s : State, ∀ i ∈ [Instr.reserved0, .reserved7, .reservedD, .reservedE, .reservedF],
    exec i s = .next (reject s .illegal) ∧
    ∃ u, request i s = .next u ∧ u.illegal = true ∧ u.rejected = false ∧ u.unbound = false ∧ u.nack = false ∧
      u.done = true ∧ u.busy = false ∧ u.prog = [] ∧ keepsBinding s u ∧ keepsAck s u ∧ keepsBus s u ∧ keepsInputs s u ∧
      u.dig = s.dig

/-! ### Bus bytes, taken by the receiver -/

/-- 42 R182, R184: a one-byte frame of a data command or of display control, in every state with nothing after the byte:
the receiver's mode or control is set, the rest of it (R185: the mode) and all of the engine are as they were. -/
def Obligations.OneByteCommandsComplete : Prop :=
  ∀ (s : State) (l : BitVec 3), frameRest s = [] → receiversWf s.receivers = true →
    (∃ t, exec .dataAuto s = .next t ∧ rxOf t = { rxOf s with mode := some .auto } ∧ keepsOtherReceivers s t ∧
      t = { s with receivers := t.receivers, rxInbox := none, rxAddr := none }) ∧
    (∃ t, exec .dataFixed s = .next t ∧ rxOf t = { rxOf s with mode := some .fixed } ∧ keepsOtherReceivers s t ∧
      t = { s with receivers := t.receivers, rxInbox := none, rxAddr := none }) ∧
    (∃ t, exec (.displayCtrl l) s = .next t ∧ rxOf t = { rxOf s with ctrl := some { on := true, level := l } } ∧
      keepsOtherReceivers s t ∧ t = { s with receivers := t.receivers, rxInbox := none, rxAddr := none })

/-- 42 R183, R185: in fixed mode an address byte with one data byte after it addresses its position, and the data byte
then writes its pattern there and nowhere else; the mode and the control are as they were. (The rule speaks of the whole
frame; that its bytes are taken one by one, the position kept in `rxAddr` between them, is the model's, log 15.) -/
def Obligations.AddressAndDataComplete : Prop :=
  (∀ (s : State) (p : BitVec 2) (pat : Byte), s.rxInbox = some [pat] → (rxOf s).mode = some .fixed →
    ∃ t, exec (.addr p) s = .next t ∧ t = { s with rxAddr := some p }) ∧
  (∀ (s : State) (p : BitVec 2) (pat : Byte), frameRest s = [] → s.rxAddr = some p → receiversWf s.receivers = true →
    ∃ t, exec (.segmentData pat) s = .next t ∧ getDisp (rxOf t) p = some pat ∧
      (∀ q, q ≠ p → getDisp (rxOf t) q = getDisp (rxOf s) q) ∧ (rxOf t).mode = (rxOf s).mode ∧
      (rxOf t).ctrl = (rxOf s).ctrl ∧ keepsOtherReceivers s t ∧
      t = { s with receivers := t.receivers, rxInbox := none, rxAddr := none })

/-- 42 R186, 30 R84: where a bus byte stands in a frame the receiver does not define, every element becomes unknown: a
one-byte command with bytes after it, an address byte outside fixed mode or without exactly one data byte, a data byte
without an address or with bytes after it. So does the delivery of an incomplete frame or of an empty one (95 V14). Every
other receiver keeps its state. (The rule speaks of the whole frame; what each of its bytes does is the model's, log 15. So is
it that a frame with an unacknowledged byte counts as undefined, log 13.) -/
def Obligations.UndefinedFramesMakeReceiverUnknown : Prop :=
  ∀ s : State, receiversWf s.receivers = true →
    (∀ i, isRequest i = false →
      (match i with
        | .addr _ => (frameRest s).length ≠ 1 ∨ (rxOf s).mode ≠ some .fixed
        | .segmentData _ => frameRest s ≠ [] ∨ s.rxAddr = none
        | _ => frameRest s ≠ []) →
      ∃ t, exec i s = .next t ∧ rxOf t = Rx.top ∧ keepsOtherReceivers s t ∧
        t = { s with receivers := t.receivers, rxInbox := none, rxAddr := none }) ∧
    (∀ f : Frame, f.complete = false ∨ f.bytes = [] ∨ f.acked = false →
      rxOf (deliverFrame s f) = Rx.top ∧ keepsOtherReceivers s (deliverFrame s f) ∧
      deliverFrame s f =
        { s with delivered := s.delivered ++ [f], receivers := (deliverFrame s f).receivers })

/-- 42 R182 to R186: taking a delivered frame byte by byte is the reference receiver's reading of the whole frame. -/
def Obligations.ReceiverReadsWholeFrame : Prop :=
  ∀ (s : State) (bytes : List Byte), receiversWf s.receivers = true →
    ∃ t, takeFrame 2 { s with rxInbox := some bytes, rxAddr := none } = .next t ∧
      rxOf t = readFrame bytes (rxOf s) ∧ keepsOtherReceivers s t ∧
      t = { s with receivers := t.receivers, rxInbox := none, rxAddr := none }

/-! ### Headline results -/

/-- 42 R177: from idle-high with the decoder in IDLE, each request delivers exactly its frames, each complete, for every
receiver that keeps 42 R176; a request with no frames, or rejected, delivers none. -/
def Obligations.EachRequestPutsItsFramesOnTheWire : Prop :=
  ∀ (i : Instr) (s : State), calm s → idleHigh s → i.wf = true → isRequest i = true →
    i ≠ .start → (∀ v, i ≠ .writeBit v) → (∀ b, i ≠ .writeByte b) →
    ∃ u, request i s = .next u ∧
      u.delivered.map content = s.delivered.map content ++
        (if anyReject u then [] else (wireFrames i).map (fun bytes => (bytes, true)))

/-- 42 R177: a frame built of `START`, any bytes and `STOP` is delivered as those bytes, complete. -/
def Obligations.HostBuiltFrameDeliversItsBytes : Prop :=
  ∀ (s : State) (bs : List Byte), calm s → s.bound = true → idleHigh s →
    ∃ u, requests (.start :: (bs.map Instr.writeByte ++ [.stop])) s = .next u ∧ idleHigh u ∧
      u.delivered.map content = s.delivered.map content ++ [(bs, true)]

/-- 42 R175, R177: a frame built of `START`, any bits and `STOP` is delivered as its whole bytes, the ninth bit of each
group being its ACK slot, and complete exactly if no bit is left over. (With the reference receiver and eight bits left over,
that the stop condition is made is the model's, log 31.) -/
def Obligations.HostBuiltBitsDeliverWholeBytes : Prop :=
  ∀ (s : State) (vs : List Bit), calm s → s.bound = true → idleHigh s →
    ∃ u, requests (.start :: (vs.map Instr.writeBit ++ [.stop])) s = .next u ∧ idleHigh u ∧
      u.delivered.map content = s.delivered.map content ++ [(groupBytes vs, decide (vs.length % 9 = 0))]

/-- 42 R181 to R185; 41 R143, R146, R150, R153: with the reference receiver, from idle-high, every byte of a sequencer
request is acknowledged, and the display then shows what was asked. -/
def Obligations.DisplayShowsWhatWasAsked : Prop :=
  ∀ s : State, s.rxInbox = none → s.receiver = .reference → s.bound = true → idleHigh s →
    receiversWf s.receivers = true →
    (∀ l, ∃ u, request (.setBrightness l) s = .next u ∧ u.lastAck = true ∧ u.nack = false ∧
      rxOf u = { rxOf s with ctrl := some { on := true, level := clampLevel l } }) ∧
    (∀ p d : Int, 0 ≤ p → p ≤ 3 → 0 ≤ d → d ≤ 9 →
      ∃ u, request (.displayDigit p d) s = .next u ∧ u.lastAck = true ∧ u.nack = false ∧
        rxOf u = setDisp { rxOf s with mode := some .fixed } (BitVec.ofInt 2 p) (segRom (BitVec.ofInt 4 d))) ∧
    (∀ v : Int, 0 ≤ v → v ≤ 9999 →
      ∃ u, request (.displayNumber v) s = .next u ∧ u.lastAck = true ∧ u.nack = false ∧
        rxOf u = { mode := some .fixed, disp0 := some (segRom (digitsOf v).d0), disp1 := some (segRom (digitsOf v).d1)
                   disp2 := some (segRom (digitsOf v).d2), disp3 := some (segRom (digitsOf v).d3)
                   ctrl := (rxOf s).ctrl }) ∧
    (∃ u, request .clearDisplay s = .next u ∧ u.lastAck = true ∧ u.nack = false ∧
      rxOf u = { mode := some .fixed, disp0 := some 0x00#8, disp1 := some 0x00#8, disp2 := some 0x00#8
                 disp3 := some 0x00#8, ctrl := (rxOf s).ctrl })

/-- 70 R230, 41 R140: from every clean entry with the reference receiver and no reset to come, `INITIALIZE` with valid
ids leaves the receiver wholly known and every byte acknowledged. -/
def Obligations.InitializeBootsTheDisplay : Prop :=
  ∀ (s : State) (c d : Nat), cleanEntry s → s.receiver = .reference → c < 2 ^ 32 → d < 2 ^ 32 →
    ¬ outOfRange (.initializeDisplay c d) →
    ∃ u, request (.initializeDisplay c d) s = .next u ∧ statusWord u = 0x06#8 ∧
      rxOf u = { mode := some .fixed, disp0 := some 0x00#8, disp1 := some 0x00#8, disp2 := some 0x00#8
                 disp3 := some 0x00#8, ctrl := some { on := true, level := 7#3 } }

/-- 40 R122, 42 R181: with no receiver on the bus no byte is acknowledged, and each request still runs to its end: one that
sends bytes with LAST_ACK 0 and NACK 1, one that sends none with the acknowledgment as it was. -/
def Obligations.NoReceiverNoAcknowledgment : Prop :=
  ∀ (i : Instr) (s : State), isRequest i = true → s.rxInbox = none → s.receiver = .absent →
    (∀ r, ¬ rejectedFor i s r) →
    ∃ u, request i s = .next u ∧ completed u ∧
      match i with
      | .configure _ _ => keepsAck s u ∧ u.nack = false
      | .start => keepsAck s u ∧ u.nack = false
      | .stop => keepsAck s u ∧ u.nack = false
      | .writeBit _ => keepsAck s u ∧ u.nack = false
      | .writeByte _ => u.ackO = false ∧ u.lastAck = false ∧ u.nack = true
      | _ => u.ackO = s.ackO ∧ u.lastAck = false ∧ u.nack = true

/-- 40 R103: the engine's side of the waveform is the same whatever the receivers are and answer: two states with the
same binding and drivers, and any receivers that keep 42 R176, give the same actions, waits, samples and bindings, and
the same drivers and binding after. -/
def Obligations.WaveformIndependentOfReceiver : Prop :=
  ∀ (i : Instr) (s1 s2 : State), isRequest i = true → calm s1 → calm s2 → s1.bound = s2.bound →
    s1.clkSel = s2.clkSel → s1.dioSel = s2.dioSel → s1.lines = s2.lines →
    ∃ u1 u2 tr1 tr2, request i s1 = .next u1 ∧ request i s2 = .next u2 ∧
      u1.trace = s1.trace ++ tr1 ∧ u2.trace = s2.trace ++ tr2 ∧ tr1.map shape = tr2.map shape ∧
      u1.lines = u2.lines ∧ u1.bound = u2.bound ∧ u1.clkSel = u2.clkSel ∧ u1.dioSel = u2.dioSel

/-- 40 R104, 70 R238: the request level is the fold of the action level: some number of steps from an accepted request,
with no reset to come, gives the outcome the request level gives, next state or fault, for every receiver. So do the steps of
a whole run of the host's requests, which ends in the cycle after the last `done`, with `busy`, `done` and `req_valid` 0 and
no request left, though the host's moves may go on with pauses (log 30). -/
def Obligations.RequestLevelAgreesWithSteps : Prop :=
  (∀ (i : Instr) (s t : State), isRequest i = true → s.rxInbox = none → s.rstIn = [] → exec i s = .next t →
    ∃ n, Host.Core.run Sys2Proof.core n t = request i s) ∧
  (∀ s : State, s.rxInbox = none → s.rstIn = [] → s.busy = false →
    (∃ n, ∀ k, runSteps (n + k) s = run s) ∧
    ∀ u, run s = .next u → u.busy = false ∧ u.done = false ∧ reqValid u = false ∧ noOfferLeft u.hostMoves = true ∧
      (noOfferLeft s.hostMoves = true → u = idleCycle s))

/-- 70 R234: the cycles a request takes from its offer to its `done`, by the counts of its list. -/
def Obligations.RequestTiming : Prop :=
  ∀ (s t u : State) (op : BitVec 4) (a b : Word),
    exec (decodeRequest op a b) (latchRequest s op a b) = .next t → acceptAndRun op a b s = .next u →
    s.cycles + countActs t.prog * Config.settleCycles ≤ u.cycles ∧
    u.cycles ≤ s.cycles + countActs t.prog * Config.settleCycles +
      (countActs t.prog + countSamples t.prog + 2 + countUpdates t.prog) * Config.stepOverhead + 2
end

