-- ==== Sys2Proof/Laws/State.lean ====
section
/-! SUPPORT. The fields of a state after each named operation, so that no proof unfolds a record update. -/

namespace Sys2Proof.Laws

open Sys2Proof.Machine


/-! ### `setRx` -/

@[simp] theorem setRx_bound (s : State) (r : Rx) : (setRx s r).bound = s.bound := rfl
@[simp] theorem setRx_clkSel (s : State) (r : Rx) : (setRx s r).clkSel = s.clkSel := rfl
@[simp] theorem setRx_dioSel (s : State) (r : Rx) : (setRx s r).dioSel = s.dioSel := rfl
@[simp] theorem setRx_lines (s : State) (r : Rx) : (setRx s r).lines = s.lines := rfl
@[simp] theorem setRx_busy (s : State) (r : Rx) : (setRx s r).busy = s.busy := rfl
@[simp] theorem setRx_opL (s : State) (r : Rx) : (setRx s r).opL = s.opL := rfl
@[simp] theorem setRx_aL (s : State) (r : Rx) : (setRx s r).aL = s.aL := rfl
@[simp] theorem setRx_bL (s : State) (r : Rx) : (setRx s r).bL = s.bL := rfl
@[simp] theorem setRx_prog (s : State) (r : Rx) : (setRx s r).prog = s.prog := rfl
@[simp] theorem setRx_aidx (s : State) (r : Rx) : (setRx s r).aidx = s.aidx := rfl
@[simp] theorem setRx_waitCnt (s : State) (r : Rx) : (setRx s r).waitCnt = s.waitCnt := rfl
@[simp] theorem setRx_reqNack (s : State) (r : Rx) : (setRx s r).reqNack = s.reqNack := rfl
@[simp] theorem setRx_shreg (s : State) (r : Rx) : (setRx s r).shreg = s.shreg := rfl
@[simp] theorem setRx_bitcnt (s : State) (r : Rx) : (setRx s r).bitcnt = s.bitcnt := rfl
@[simp] theorem setRx_dig (s : State) (r : Rx) : (setRx s r).dig = s.dig := rfl
@[simp] theorem setRx_lastAck (s : State) (r : Rx) : (setRx s r).lastAck = s.lastAck := rfl
@[simp] theorem setRx_nack (s : State) (r : Rx) : (setRx s r).nack = s.nack := rfl
@[simp] theorem setRx_rejected (s : State) (r : Rx) : (setRx s r).rejected = s.rejected := rfl
@[simp] theorem setRx_illegal (s : State) (r : Rx) : (setRx s r).illegal = s.illegal := rfl
@[simp] theorem setRx_unbound (s : State) (r : Rx) : (setRx s r).unbound = s.unbound := rfl
@[simp] theorem setRx_ackO (s : State) (r : Rx) : (setRx s r).ackO = s.ackO := rfl
@[simp] theorem setRx_done (s : State) (r : Rx) : (setRx s r).done = s.done := rfl
@[simp] theorem setRx_trace (s : State) (r : Rx) : (setRx s r).trace = s.trace := rfl
@[simp] theorem setRx_dec (s : State) (r : Rx) : (setRx s r).dec = s.dec := rfl
@[simp] theorem setRx_delivered (s : State) (r : Rx) : (setRx s r).delivered = s.delivered := rfl
@[simp] theorem setRx_rxInbox (s : State) (r : Rx) : (setRx s r).rxInbox = s.rxInbox := rfl
@[simp] theorem setRx_rxAddr (s : State) (r : Rx) : (setRx s r).rxAddr = s.rxAddr := rfl
@[simp] theorem setRx_receivers (s : State) (r : Rx) : (setRx s r).receivers = storeRx s.receivers (boundPair s) r := rfl
@[simp] theorem setRx_receiver (s : State) (r : Rx) : (setRx s r).receiver = s.receiver := rfl
@[simp] theorem setRx_hostMoves (s : State) (r : Rx) : (setRx s r).hostMoves = s.hostMoves := rfl
@[simp] theorem setRx_rstIn (s : State) (r : Rx) : (setRx s r).rstIn = s.rstIn := rfl
@[simp] theorem setRx_obs (s : State) (r : Rx) : (setRx s r).obs = s.obs := rfl
@[simp] theorem setRx_cycles (s : State) (r : Rx) : (setRx s r).cycles = s.cycles := rfl

/-! ### `closeFrame` -/

@[simp] theorem closeFrame_bound (s : State) : (closeFrame s).bound = s.bound := rfl
@[simp] theorem closeFrame_clkSel (s : State) : (closeFrame s).clkSel = s.clkSel := rfl
@[simp] theorem closeFrame_dioSel (s : State) : (closeFrame s).dioSel = s.dioSel := rfl
@[simp] theorem closeFrame_lines (s : State) : (closeFrame s).lines = s.lines := rfl
@[simp] theorem closeFrame_busy (s : State) : (closeFrame s).busy = s.busy := rfl
@[simp] theorem closeFrame_opL (s : State) : (closeFrame s).opL = s.opL := rfl
@[simp] theorem closeFrame_aL (s : State) : (closeFrame s).aL = s.aL := rfl
@[simp] theorem closeFrame_bL (s : State) : (closeFrame s).bL = s.bL := rfl
@[simp] theorem closeFrame_prog (s : State) : (closeFrame s).prog = s.prog := rfl
@[simp] theorem closeFrame_aidx (s : State) : (closeFrame s).aidx = s.aidx := rfl
@[simp] theorem closeFrame_waitCnt (s : State) : (closeFrame s).waitCnt = s.waitCnt := rfl
@[simp] theorem closeFrame_reqNack (s : State) : (closeFrame s).reqNack = s.reqNack := rfl
@[simp] theorem closeFrame_shreg (s : State) : (closeFrame s).shreg = s.shreg := rfl
@[simp] theorem closeFrame_bitcnt (s : State) : (closeFrame s).bitcnt = s.bitcnt := rfl
@[simp] theorem closeFrame_dig (s : State) : (closeFrame s).dig = s.dig := rfl
@[simp] theorem closeFrame_lastAck (s : State) : (closeFrame s).lastAck = s.lastAck := rfl
@[simp] theorem closeFrame_nack (s : State) : (closeFrame s).nack = s.nack := rfl
@[simp] theorem closeFrame_rejected (s : State) : (closeFrame s).rejected = s.rejected := rfl
@[simp] theorem closeFrame_illegal (s : State) : (closeFrame s).illegal = s.illegal := rfl
@[simp] theorem closeFrame_unbound (s : State) : (closeFrame s).unbound = s.unbound := rfl
@[simp] theorem closeFrame_ackO (s : State) : (closeFrame s).ackO = s.ackO := rfl
@[simp] theorem closeFrame_done (s : State) : (closeFrame s).done = s.done := rfl
@[simp] theorem closeFrame_trace (s : State) : (closeFrame s).trace = s.trace := rfl
@[simp] theorem closeFrame_dec (s : State) : (closeFrame s).dec = s.dec := rfl
@[simp] theorem closeFrame_delivered (s : State) : (closeFrame s).delivered = s.delivered := rfl
@[simp] theorem closeFrame_rxInbox (s : State) : (closeFrame s).rxInbox = none := rfl
@[simp] theorem closeFrame_rxAddr (s : State) : (closeFrame s).rxAddr = none := rfl
@[simp] theorem closeFrame_receivers (s : State) : (closeFrame s).receivers = s.receivers := rfl
@[simp] theorem closeFrame_receiver (s : State) : (closeFrame s).receiver = s.receiver := rfl
@[simp] theorem closeFrame_hostMoves (s : State) : (closeFrame s).hostMoves = s.hostMoves := rfl
@[simp] theorem closeFrame_rstIn (s : State) : (closeFrame s).rstIn = s.rstIn := rfl
@[simp] theorem closeFrame_obs (s : State) : (closeFrame s).obs = s.obs := rfl
@[simp] theorem closeFrame_cycles (s : State) : (closeFrame s).cycles = s.cycles := rfl

/-! ### `finishFrame` -/

@[simp] theorem finishFrame_bound (s : State) (r : Rx) : (finishFrame s r).bound = s.bound := rfl
@[simp] theorem finishFrame_clkSel (s : State) (r : Rx) : (finishFrame s r).clkSel = s.clkSel := rfl
@[simp] theorem finishFrame_dioSel (s : State) (r : Rx) : (finishFrame s r).dioSel = s.dioSel := rfl
@[simp] theorem finishFrame_lines (s : State) (r : Rx) : (finishFrame s r).lines = s.lines := rfl
@[simp] theorem finishFrame_busy (s : State) (r : Rx) : (finishFrame s r).busy = s.busy := rfl
@[simp] theorem finishFrame_opL (s : State) (r : Rx) : (finishFrame s r).opL = s.opL := rfl
@[simp] theorem finishFrame_aL (s : State) (r : Rx) : (finishFrame s r).aL = s.aL := rfl
@[simp] theorem finishFrame_bL (s : State) (r : Rx) : (finishFrame s r).bL = s.bL := rfl
@[simp] theorem finishFrame_prog (s : State) (r : Rx) : (finishFrame s r).prog = s.prog := rfl
@[simp] theorem finishFrame_aidx (s : State) (r : Rx) : (finishFrame s r).aidx = s.aidx := rfl
@[simp] theorem finishFrame_waitCnt (s : State) (r : Rx) : (finishFrame s r).waitCnt = s.waitCnt := rfl
@[simp] theorem finishFrame_reqNack (s : State) (r : Rx) : (finishFrame s r).reqNack = s.reqNack := rfl
@[simp] theorem finishFrame_shreg (s : State) (r : Rx) : (finishFrame s r).shreg = s.shreg := rfl
@[simp] theorem finishFrame_bitcnt (s : State) (r : Rx) : (finishFrame s r).bitcnt = s.bitcnt := rfl
@[simp] theorem finishFrame_dig (s : State) (r : Rx) : (finishFrame s r).dig = s.dig := rfl
@[simp] theorem finishFrame_lastAck (s : State) (r : Rx) : (finishFrame s r).lastAck = s.lastAck := rfl
@[simp] theorem finishFrame_nack (s : State) (r : Rx) : (finishFrame s r).nack = s.nack := rfl
@[simp] theorem finishFrame_rejected (s : State) (r : Rx) : (finishFrame s r).rejected = s.rejected := rfl
@[simp] theorem finishFrame_illegal (s : State) (r : Rx) : (finishFrame s r).illegal = s.illegal := rfl
@[simp] theorem finishFrame_unbound (s : State) (r : Rx) : (finishFrame s r).unbound = s.unbound := rfl
@[simp] theorem finishFrame_ackO (s : State) (r : Rx) : (finishFrame s r).ackO = s.ackO := rfl
@[simp] theorem finishFrame_done (s : State) (r : Rx) : (finishFrame s r).done = s.done := rfl
@[simp] theorem finishFrame_trace (s : State) (r : Rx) : (finishFrame s r).trace = s.trace := rfl
@[simp] theorem finishFrame_dec (s : State) (r : Rx) : (finishFrame s r).dec = s.dec := rfl
@[simp] theorem finishFrame_delivered (s : State) (r : Rx) : (finishFrame s r).delivered = s.delivered := rfl
@[simp] theorem finishFrame_rxInbox (s : State) (r : Rx) : (finishFrame s r).rxInbox = none := rfl
@[simp] theorem finishFrame_rxAddr (s : State) (r : Rx) : (finishFrame s r).rxAddr = none := rfl
@[simp] theorem finishFrame_receivers (s : State) (r : Rx) : (finishFrame s r).receivers = storeRx s.receivers (boundPair s) r := rfl
@[simp] theorem finishFrame_receiver (s : State) (r : Rx) : (finishFrame s r).receiver = s.receiver := rfl
@[simp] theorem finishFrame_hostMoves (s : State) (r : Rx) : (finishFrame s r).hostMoves = s.hostMoves := rfl
@[simp] theorem finishFrame_rstIn (s : State) (r : Rx) : (finishFrame s r).rstIn = s.rstIn := rfl
@[simp] theorem finishFrame_obs (s : State) (r : Rx) : (finishFrame s r).obs = s.obs := rfl
@[simp] theorem finishFrame_cycles (s : State) (r : Rx) : (finishFrame s r).cycles = s.cycles := rfl

/-! ### `latchRequest` -/

@[simp] theorem latchRequest_bound (s : State) (op : BitVec 4) (a b : Word) : (latchRequest s op a b).bound = s.bound := rfl
@[simp] theorem latchRequest_clkSel (s : State) (op : BitVec 4) (a b : Word) : (latchRequest s op a b).clkSel = s.clkSel := rfl
@[simp] theorem latchRequest_dioSel (s : State) (op : BitVec 4) (a b : Word) : (latchRequest s op a b).dioSel = s.dioSel := rfl
@[simp] theorem latchRequest_lines (s : State) (op : BitVec 4) (a b : Word) : (latchRequest s op a b).lines = s.lines := rfl
@[simp] theorem latchRequest_busy (s : State) (op : BitVec 4) (a b : Word) : (latchRequest s op a b).busy = s.busy := rfl
@[simp] theorem latchRequest_opL (s : State) (op : BitVec 4) (a b : Word) : (latchRequest s op a b).opL = op := rfl
@[simp] theorem latchRequest_aL (s : State) (op : BitVec 4) (a b : Word) : (latchRequest s op a b).aL = a := rfl
@[simp] theorem latchRequest_bL (s : State) (op : BitVec 4) (a b : Word) : (latchRequest s op a b).bL = b := rfl
@[simp] theorem latchRequest_prog (s : State) (op : BitVec 4) (a b : Word) : (latchRequest s op a b).prog = s.prog := rfl
@[simp] theorem latchRequest_aidx (s : State) (op : BitVec 4) (a b : Word) : (latchRequest s op a b).aidx = s.aidx := rfl
@[simp] theorem latchRequest_waitCnt (s : State) (op : BitVec 4) (a b : Word) : (latchRequest s op a b).waitCnt = s.waitCnt := rfl
@[simp] theorem latchRequest_reqNack (s : State) (op : BitVec 4) (a b : Word) : (latchRequest s op a b).reqNack = s.reqNack := rfl
@[simp] theorem latchRequest_shreg (s : State) (op : BitVec 4) (a b : Word) : (latchRequest s op a b).shreg = s.shreg := rfl
@[simp] theorem latchRequest_bitcnt (s : State) (op : BitVec 4) (a b : Word) : (latchRequest s op a b).bitcnt = s.bitcnt := rfl
@[simp] theorem latchRequest_dig (s : State) (op : BitVec 4) (a b : Word) : (latchRequest s op a b).dig = s.dig := rfl
@[simp] theorem latchRequest_lastAck (s : State) (op : BitVec 4) (a b : Word) : (latchRequest s op a b).lastAck = s.lastAck := rfl
@[simp] theorem latchRequest_nack (s : State) (op : BitVec 4) (a b : Word) : (latchRequest s op a b).nack = s.nack := rfl
@[simp] theorem latchRequest_rejected (s : State) (op : BitVec 4) (a b : Word) : (latchRequest s op a b).rejected = s.rejected := rfl
@[simp] theorem latchRequest_illegal (s : State) (op : BitVec 4) (a b : Word) : (latchRequest s op a b).illegal = s.illegal := rfl
@[simp] theorem latchRequest_unbound (s : State) (op : BitVec 4) (a b : Word) : (latchRequest s op a b).unbound = s.unbound := rfl
@[simp] theorem latchRequest_ackO (s : State) (op : BitVec 4) (a b : Word) : (latchRequest s op a b).ackO = s.ackO := rfl
@[simp] theorem latchRequest_done (s : State) (op : BitVec 4) (a b : Word) : (latchRequest s op a b).done = s.done := rfl
@[simp] theorem latchRequest_trace (s : State) (op : BitVec 4) (a b : Word) : (latchRequest s op a b).trace = s.trace := rfl
@[simp] theorem latchRequest_dec (s : State) (op : BitVec 4) (a b : Word) : (latchRequest s op a b).dec = s.dec := rfl
@[simp] theorem latchRequest_delivered (s : State) (op : BitVec 4) (a b : Word) : (latchRequest s op a b).delivered = s.delivered := rfl
@[simp] theorem latchRequest_rxInbox (s : State) (op : BitVec 4) (a b : Word) : (latchRequest s op a b).rxInbox = s.rxInbox := rfl
@[simp] theorem latchRequest_rxAddr (s : State) (op : BitVec 4) (a b : Word) : (latchRequest s op a b).rxAddr = s.rxAddr := rfl
@[simp] theorem latchRequest_receivers (s : State) (op : BitVec 4) (a b : Word) : (latchRequest s op a b).receivers = s.receivers := rfl
@[simp] theorem latchRequest_receiver (s : State) (op : BitVec 4) (a b : Word) : (latchRequest s op a b).receiver = s.receiver := rfl
@[simp] theorem latchRequest_hostMoves (s : State) (op : BitVec 4) (a b : Word) : (latchRequest s op a b).hostMoves = s.hostMoves.tail := rfl
@[simp] theorem latchRequest_rstIn (s : State) (op : BitVec 4) (a b : Word) : (latchRequest s op a b).rstIn = s.rstIn := rfl
@[simp] theorem latchRequest_obs (s : State) (op : BitVec 4) (a b : Word) : (latchRequest s op a b).obs = s.obs := rfl
@[simp] theorem latchRequest_cycles (s : State) (op : BitVec 4) (a b : Word) : (latchRequest s op a b).cycles = s.cycles + 1 := rfl

/-! ### `beginRequest` -/

@[simp] theorem beginRequest_bound (s : State) : (beginRequest s).bound = s.bound := rfl
@[simp] theorem beginRequest_clkSel (s : State) : (beginRequest s).clkSel = s.clkSel := rfl
@[simp] theorem beginRequest_dioSel (s : State) : (beginRequest s).dioSel = s.dioSel := rfl
@[simp] theorem beginRequest_lines (s : State) : (beginRequest s).lines = s.lines := rfl
@[simp] theorem beginRequest_busy (s : State) : (beginRequest s).busy = true := rfl
@[simp] theorem beginRequest_opL (s : State) : (beginRequest s).opL = s.opL := rfl
@[simp] theorem beginRequest_aL (s : State) : (beginRequest s).aL = s.aL := rfl
@[simp] theorem beginRequest_bL (s : State) : (beginRequest s).bL = s.bL := rfl
@[simp] theorem beginRequest_prog (s : State) : (beginRequest s).prog = [] := rfl
@[simp] theorem beginRequest_aidx (s : State) : (beginRequest s).aidx = 0 := rfl
@[simp] theorem beginRequest_waitCnt (s : State) : (beginRequest s).waitCnt = s.waitCnt := rfl
@[simp] theorem beginRequest_reqNack (s : State) : (beginRequest s).reqNack = false := rfl
@[simp] theorem beginRequest_shreg (s : State) : (beginRequest s).shreg = s.shreg := rfl
@[simp] theorem beginRequest_bitcnt (s : State) : (beginRequest s).bitcnt = s.bitcnt := rfl
@[simp] theorem beginRequest_dig (s : State) : (beginRequest s).dig = s.dig := rfl
@[simp] theorem beginRequest_lastAck (s : State) : (beginRequest s).lastAck = s.lastAck := rfl
@[simp] theorem beginRequest_nack (s : State) : (beginRequest s).nack = false := rfl
@[simp] theorem beginRequest_rejected (s : State) : (beginRequest s).rejected = false := rfl
@[simp] theorem beginRequest_illegal (s : State) : (beginRequest s).illegal = false := rfl
@[simp] theorem beginRequest_unbound (s : State) : (beginRequest s).unbound = false := rfl
@[simp] theorem beginRequest_ackO (s : State) : (beginRequest s).ackO = s.ackO := rfl
@[simp] theorem beginRequest_done (s : State) : (beginRequest s).done = false := rfl
@[simp] theorem beginRequest_trace (s : State) : (beginRequest s).trace = s.trace := rfl
@[simp] theorem beginRequest_dec (s : State) : (beginRequest s).dec = s.dec := rfl
@[simp] theorem beginRequest_delivered (s : State) : (beginRequest s).delivered = s.delivered := rfl
@[simp] theorem beginRequest_rxInbox (s : State) : (beginRequest s).rxInbox = s.rxInbox := rfl
@[simp] theorem beginRequest_rxAddr (s : State) : (beginRequest s).rxAddr = s.rxAddr := rfl
@[simp] theorem beginRequest_receivers (s : State) : (beginRequest s).receivers = s.receivers := rfl
@[simp] theorem beginRequest_receiver (s : State) : (beginRequest s).receiver = s.receiver := rfl
@[simp] theorem beginRequest_hostMoves (s : State) : (beginRequest s).hostMoves = s.hostMoves := rfl
@[simp] theorem beginRequest_rstIn (s : State) : (beginRequest s).rstIn = s.rstIn := rfl
@[simp] theorem beginRequest_obs (s : State) : (beginRequest s).obs = s.obs := rfl
@[simp] theorem beginRequest_cycles (s : State) : (beginRequest s).cycles = s.cycles := rfl

/-! ### `finishRequest` -/

@[simp] theorem finishRequest_bound (s : State) : (finishRequest s).bound = s.bound := rfl
@[simp] theorem finishRequest_clkSel (s : State) : (finishRequest s).clkSel = s.clkSel := rfl
@[simp] theorem finishRequest_dioSel (s : State) : (finishRequest s).dioSel = s.dioSel := rfl
@[simp] theorem finishRequest_lines (s : State) : (finishRequest s).lines = s.lines := rfl
@[simp] theorem finishRequest_busy (s : State) : (finishRequest s).busy = false := rfl
@[simp] theorem finishRequest_opL (s : State) : (finishRequest s).opL = s.opL := rfl
@[simp] theorem finishRequest_aL (s : State) : (finishRequest s).aL = s.aL := rfl
@[simp] theorem finishRequest_bL (s : State) : (finishRequest s).bL = s.bL := rfl
@[simp] theorem finishRequest_prog (s : State) : (finishRequest s).prog = s.prog := rfl
@[simp] theorem finishRequest_aidx (s : State) : (finishRequest s).aidx = s.aidx := rfl
@[simp] theorem finishRequest_waitCnt (s : State) : (finishRequest s).waitCnt = s.waitCnt := rfl
@[simp] theorem finishRequest_reqNack (s : State) : (finishRequest s).reqNack = s.reqNack := rfl
@[simp] theorem finishRequest_shreg (s : State) : (finishRequest s).shreg = s.shreg := rfl
@[simp] theorem finishRequest_bitcnt (s : State) : (finishRequest s).bitcnt = s.bitcnt := rfl
@[simp] theorem finishRequest_dig (s : State) : (finishRequest s).dig = s.dig := rfl
@[simp] theorem finishRequest_lastAck (s : State) : (finishRequest s).lastAck = s.lastAck := rfl
@[simp] theorem finishRequest_nack (s : State) : (finishRequest s).nack = s.reqNack := rfl
@[simp] theorem finishRequest_rejected (s : State) : (finishRequest s).rejected = s.rejected := rfl
@[simp] theorem finishRequest_illegal (s : State) : (finishRequest s).illegal = s.illegal := rfl
@[simp] theorem finishRequest_unbound (s : State) : (finishRequest s).unbound = s.unbound := rfl
@[simp] theorem finishRequest_ackO (s : State) : (finishRequest s).ackO = s.ackO := rfl
@[simp] theorem finishRequest_done (s : State) : (finishRequest s).done = true := rfl
@[simp] theorem finishRequest_trace (s : State) : (finishRequest s).trace = s.trace := rfl
@[simp] theorem finishRequest_dec (s : State) : (finishRequest s).dec = s.dec := rfl
@[simp] theorem finishRequest_delivered (s : State) : (finishRequest s).delivered = s.delivered := rfl
@[simp] theorem finishRequest_rxInbox (s : State) : (finishRequest s).rxInbox = s.rxInbox := rfl
@[simp] theorem finishRequest_rxAddr (s : State) : (finishRequest s).rxAddr = s.rxAddr := rfl
@[simp] theorem finishRequest_receivers (s : State) : (finishRequest s).receivers = s.receivers := rfl
@[simp] theorem finishRequest_receiver (s : State) : (finishRequest s).receiver = s.receiver := rfl
@[simp] theorem finishRequest_hostMoves (s : State) : (finishRequest s).hostMoves = s.hostMoves := rfl
@[simp] theorem finishRequest_rstIn (s : State) : (finishRequest s).rstIn = s.rstIn := rfl
@[simp] theorem finishRequest_obs (s : State) : (finishRequest s).obs = s.obs := rfl
@[simp] theorem finishRequest_cycles (s : State) : (finishRequest s).cycles = s.cycles + 1 := rfl

/-! ### `idleCycle` -/

@[simp] theorem idleCycle_bound (s : State) : (idleCycle s).bound = s.bound := rfl
@[simp] theorem idleCycle_clkSel (s : State) : (idleCycle s).clkSel = s.clkSel := rfl
@[simp] theorem idleCycle_dioSel (s : State) : (idleCycle s).dioSel = s.dioSel := rfl
@[simp] theorem idleCycle_lines (s : State) : (idleCycle s).lines = s.lines := rfl
@[simp] theorem idleCycle_busy (s : State) : (idleCycle s).busy = s.busy := rfl
@[simp] theorem idleCycle_opL (s : State) : (idleCycle s).opL = s.opL := rfl
@[simp] theorem idleCycle_aL (s : State) : (idleCycle s).aL = s.aL := rfl
@[simp] theorem idleCycle_bL (s : State) : (idleCycle s).bL = s.bL := rfl
@[simp] theorem idleCycle_prog (s : State) : (idleCycle s).prog = s.prog := rfl
@[simp] theorem idleCycle_aidx (s : State) : (idleCycle s).aidx = s.aidx := rfl
@[simp] theorem idleCycle_waitCnt (s : State) : (idleCycle s).waitCnt = s.waitCnt := rfl
@[simp] theorem idleCycle_reqNack (s : State) : (idleCycle s).reqNack = s.reqNack := rfl
@[simp] theorem idleCycle_shreg (s : State) : (idleCycle s).shreg = s.shreg := rfl
@[simp] theorem idleCycle_bitcnt (s : State) : (idleCycle s).bitcnt = s.bitcnt := rfl
@[simp] theorem idleCycle_dig (s : State) : (idleCycle s).dig = s.dig := rfl
@[simp] theorem idleCycle_lastAck (s : State) : (idleCycle s).lastAck = s.lastAck := rfl
@[simp] theorem idleCycle_nack (s : State) : (idleCycle s).nack = s.nack := rfl
@[simp] theorem idleCycle_rejected (s : State) : (idleCycle s).rejected = s.rejected := rfl
@[simp] theorem idleCycle_illegal (s : State) : (idleCycle s).illegal = s.illegal := rfl
@[simp] theorem idleCycle_unbound (s : State) : (idleCycle s).unbound = s.unbound := rfl
@[simp] theorem idleCycle_ackO (s : State) : (idleCycle s).ackO = s.ackO := rfl
@[simp] theorem idleCycle_done (s : State) : (idleCycle s).done = false := rfl
@[simp] theorem idleCycle_trace (s : State) : (idleCycle s).trace = s.trace := rfl
@[simp] theorem idleCycle_dec (s : State) : (idleCycle s).dec = s.dec := rfl
@[simp] theorem idleCycle_delivered (s : State) : (idleCycle s).delivered = s.delivered := rfl
@[simp] theorem idleCycle_rxInbox (s : State) : (idleCycle s).rxInbox = s.rxInbox := rfl
@[simp] theorem idleCycle_rxAddr (s : State) : (idleCycle s).rxAddr = s.rxAddr := rfl
@[simp] theorem idleCycle_receivers (s : State) : (idleCycle s).receivers = s.receivers := rfl
@[simp] theorem idleCycle_receiver (s : State) : (idleCycle s).receiver = s.receiver := rfl
@[simp] theorem idleCycle_hostMoves (s : State) : (idleCycle s).hostMoves = s.hostMoves.tail := rfl
@[simp] theorem idleCycle_rstIn (s : State) : (idleCycle s).rstIn = s.rstIn := rfl
@[simp] theorem idleCycle_obs (s : State) : (idleCycle s).obs = s.obs := rfl
@[simp] theorem idleCycle_cycles (s : State) : (idleCycle s).cycles = s.cycles + 1 := rfl

/-! ### `takeRst` -/

@[simp] theorem takeRst_bound (s : State) : (takeRst s).bound = s.bound := rfl
@[simp] theorem takeRst_clkSel (s : State) : (takeRst s).clkSel = s.clkSel := rfl
@[simp] theorem takeRst_dioSel (s : State) : (takeRst s).dioSel = s.dioSel := rfl
@[simp] theorem takeRst_lines (s : State) : (takeRst s).lines = s.lines := rfl
@[simp] theorem takeRst_busy (s : State) : (takeRst s).busy = s.busy := rfl
@[simp] theorem takeRst_opL (s : State) : (takeRst s).opL = s.opL := rfl
@[simp] theorem takeRst_aL (s : State) : (takeRst s).aL = s.aL := rfl
@[simp] theorem takeRst_bL (s : State) : (takeRst s).bL = s.bL := rfl
@[simp] theorem takeRst_prog (s : State) : (takeRst s).prog = s.prog := rfl
@[simp] theorem takeRst_aidx (s : State) : (takeRst s).aidx = s.aidx := rfl
@[simp] theorem takeRst_waitCnt (s : State) : (takeRst s).waitCnt = s.waitCnt := rfl
@[simp] theorem takeRst_reqNack (s : State) : (takeRst s).reqNack = s.reqNack := rfl
@[simp] theorem takeRst_shreg (s : State) : (takeRst s).shreg = s.shreg := rfl
@[simp] theorem takeRst_bitcnt (s : State) : (takeRst s).bitcnt = s.bitcnt := rfl
@[simp] theorem takeRst_dig (s : State) : (takeRst s).dig = s.dig := rfl
@[simp] theorem takeRst_lastAck (s : State) : (takeRst s).lastAck = s.lastAck := rfl
@[simp] theorem takeRst_nack (s : State) : (takeRst s).nack = s.nack := rfl
@[simp] theorem takeRst_rejected (s : State) : (takeRst s).rejected = s.rejected := rfl
@[simp] theorem takeRst_illegal (s : State) : (takeRst s).illegal = s.illegal := rfl
@[simp] theorem takeRst_unbound (s : State) : (takeRst s).unbound = s.unbound := rfl
@[simp] theorem takeRst_ackO (s : State) : (takeRst s).ackO = s.ackO := rfl
@[simp] theorem takeRst_done (s : State) : (takeRst s).done = s.done := rfl
@[simp] theorem takeRst_trace (s : State) : (takeRst s).trace = s.trace := rfl
@[simp] theorem takeRst_dec (s : State) : (takeRst s).dec = s.dec := rfl
@[simp] theorem takeRst_delivered (s : State) : (takeRst s).delivered = s.delivered := rfl
@[simp] theorem takeRst_rxInbox (s : State) : (takeRst s).rxInbox = s.rxInbox := rfl
@[simp] theorem takeRst_rxAddr (s : State) : (takeRst s).rxAddr = s.rxAddr := rfl
@[simp] theorem takeRst_receivers (s : State) : (takeRst s).receivers = s.receivers := rfl
@[simp] theorem takeRst_receiver (s : State) : (takeRst s).receiver = s.receiver := rfl
@[simp] theorem takeRst_hostMoves (s : State) : (takeRst s).hostMoves = s.hostMoves := rfl
@[simp] theorem takeRst_rstIn (s : State) : (takeRst s).rstIn = s.rstIn.tail := rfl
@[simp] theorem takeRst_obs (s : State) : (takeRst s).obs = s.obs := rfl
@[simp] theorem takeRst_cycles (s : State) : (takeRst s).cycles = s.cycles := rfl

/-! ### `ackSample` -/

@[simp] theorem ackSample_bound (s : State) (v : Bit) : (ackSample s v).bound = s.bound := rfl
@[simp] theorem ackSample_clkSel (s : State) (v : Bit) : (ackSample s v).clkSel = s.clkSel := rfl
@[simp] theorem ackSample_dioSel (s : State) (v : Bit) : (ackSample s v).dioSel = s.dioSel := rfl
@[simp] theorem ackSample_lines (s : State) (v : Bit) : (ackSample s v).lines = s.lines := rfl
@[simp] theorem ackSample_busy (s : State) (v : Bit) : (ackSample s v).busy = s.busy := rfl
@[simp] theorem ackSample_opL (s : State) (v : Bit) : (ackSample s v).opL = s.opL := rfl
@[simp] theorem ackSample_aL (s : State) (v : Bit) : (ackSample s v).aL = s.aL := rfl
@[simp] theorem ackSample_bL (s : State) (v : Bit) : (ackSample s v).bL = s.bL := rfl
@[simp] theorem ackSample_prog (s : State) (v : Bit) : (ackSample s v).prog = s.prog := rfl
@[simp] theorem ackSample_aidx (s : State) (v : Bit) : (ackSample s v).aidx = s.aidx := rfl
@[simp] theorem ackSample_waitCnt (s : State) (v : Bit) : (ackSample s v).waitCnt = s.waitCnt := rfl
@[simp] theorem ackSample_reqNack (s : State) (v : Bit) : (ackSample s v).reqNack = (s.reqNack || v) := rfl
@[simp] theorem ackSample_shreg (s : State) (v : Bit) : (ackSample s v).shreg = s.shreg := rfl
@[simp] theorem ackSample_bitcnt (s : State) (v : Bit) : (ackSample s v).bitcnt = s.bitcnt := rfl
@[simp] theorem ackSample_dig (s : State) (v : Bit) : (ackSample s v).dig = s.dig := rfl
@[simp] theorem ackSample_lastAck (s : State) (v : Bit) : (ackSample s v).lastAck = !v := rfl
@[simp] theorem ackSample_nack (s : State) (v : Bit) : (ackSample s v).nack = s.nack := rfl
@[simp] theorem ackSample_rejected (s : State) (v : Bit) : (ackSample s v).rejected = s.rejected := rfl
@[simp] theorem ackSample_illegal (s : State) (v : Bit) : (ackSample s v).illegal = s.illegal := rfl
@[simp] theorem ackSample_unbound (s : State) (v : Bit) : (ackSample s v).unbound = s.unbound := rfl
@[simp] theorem ackSample_ackO (s : State) (v : Bit) : (ackSample s v).ackO = s.ackO := rfl
@[simp] theorem ackSample_done (s : State) (v : Bit) : (ackSample s v).done = s.done := rfl
@[simp] theorem ackSample_trace (s : State) (v : Bit) : (ackSample s v).trace = s.trace := rfl
@[simp] theorem ackSample_dec (s : State) (v : Bit) : (ackSample s v).dec = s.dec := rfl
@[simp] theorem ackSample_delivered (s : State) (v : Bit) : (ackSample s v).delivered = s.delivered := rfl
@[simp] theorem ackSample_rxInbox (s : State) (v : Bit) : (ackSample s v).rxInbox = s.rxInbox := rfl
@[simp] theorem ackSample_rxAddr (s : State) (v : Bit) : (ackSample s v).rxAddr = s.rxAddr := rfl
@[simp] theorem ackSample_receivers (s : State) (v : Bit) : (ackSample s v).receivers = s.receivers := rfl
@[simp] theorem ackSample_receiver (s : State) (v : Bit) : (ackSample s v).receiver = s.receiver := rfl
@[simp] theorem ackSample_hostMoves (s : State) (v : Bit) : (ackSample s v).hostMoves = s.hostMoves := rfl
@[simp] theorem ackSample_rstIn (s : State) (v : Bit) : (ackSample s v).rstIn = s.rstIn := rfl
@[simp] theorem ackSample_obs (s : State) (v : Bit) : (ackSample s v).obs = s.obs := rfl
@[simp] theorem ackSample_cycles (s : State) (v : Bit) : (ackSample s v).cycles = s.cycles := rfl

/-! ### `advance` -/

@[simp] theorem advance_bound (s : State) (rest : List PStep) : (advance s rest).bound = s.bound := rfl
@[simp] theorem advance_clkSel (s : State) (rest : List PStep) : (advance s rest).clkSel = s.clkSel := rfl
@[simp] theorem advance_dioSel (s : State) (rest : List PStep) : (advance s rest).dioSel = s.dioSel := rfl
@[simp] theorem advance_lines (s : State) (rest : List PStep) : (advance s rest).lines = s.lines := rfl
@[simp] theorem advance_busy (s : State) (rest : List PStep) : (advance s rest).busy = s.busy := rfl
@[simp] theorem advance_opL (s : State) (rest : List PStep) : (advance s rest).opL = s.opL := rfl
@[simp] theorem advance_aL (s : State) (rest : List PStep) : (advance s rest).aL = s.aL := rfl
@[simp] theorem advance_bL (s : State) (rest : List PStep) : (advance s rest).bL = s.bL := rfl
@[simp] theorem advance_prog (s : State) (rest : List PStep) : (advance s rest).prog = rest := rfl
@[simp] theorem advance_aidx (s : State) (rest : List PStep) : (advance s rest).aidx = s.aidx + 1 := rfl
@[simp] theorem advance_waitCnt (s : State) (rest : List PStep) : (advance s rest).waitCnt = s.waitCnt := rfl
@[simp] theorem advance_reqNack (s : State) (rest : List PStep) : (advance s rest).reqNack = s.reqNack := rfl
@[simp] theorem advance_shreg (s : State) (rest : List PStep) : (advance s rest).shreg = s.shreg := rfl
@[simp] theorem advance_bitcnt (s : State) (rest : List PStep) : (advance s rest).bitcnt = s.bitcnt := rfl
@[simp] theorem advance_dig (s : State) (rest : List PStep) : (advance s rest).dig = s.dig := rfl
@[simp] theorem advance_lastAck (s : State) (rest : List PStep) : (advance s rest).lastAck = s.lastAck := rfl
@[simp] theorem advance_nack (s : State) (rest : List PStep) : (advance s rest).nack = s.nack := rfl
@[simp] theorem advance_rejected (s : State) (rest : List PStep) : (advance s rest).rejected = s.rejected := rfl
@[simp] theorem advance_illegal (s : State) (rest : List PStep) : (advance s rest).illegal = s.illegal := rfl
@[simp] theorem advance_unbound (s : State) (rest : List PStep) : (advance s rest).unbound = s.unbound := rfl
@[simp] theorem advance_ackO (s : State) (rest : List PStep) : (advance s rest).ackO = s.ackO := rfl
@[simp] theorem advance_done (s : State) (rest : List PStep) : (advance s rest).done = s.done := rfl
@[simp] theorem advance_trace (s : State) (rest : List PStep) : (advance s rest).trace = s.trace := rfl
@[simp] theorem advance_dec (s : State) (rest : List PStep) : (advance s rest).dec = s.dec := rfl
@[simp] theorem advance_delivered (s : State) (rest : List PStep) : (advance s rest).delivered = s.delivered := rfl
@[simp] theorem advance_rxInbox (s : State) (rest : List PStep) : (advance s rest).rxInbox = s.rxInbox := rfl
@[simp] theorem advance_rxAddr (s : State) (rest : List PStep) : (advance s rest).rxAddr = s.rxAddr := rfl
@[simp] theorem advance_receivers (s : State) (rest : List PStep) : (advance s rest).receivers = s.receivers := rfl
@[simp] theorem advance_receiver (s : State) (rest : List PStep) : (advance s rest).receiver = s.receiver := rfl
@[simp] theorem advance_hostMoves (s : State) (rest : List PStep) : (advance s rest).hostMoves = s.hostMoves := rfl
@[simp] theorem advance_rstIn (s : State) (rest : List PStep) : (advance s rest).rstIn = s.rstIn := rfl
@[simp] theorem advance_obs (s : State) (rest : List PStep) : (advance s rest).obs = s.obs := rfl
@[simp] theorem advance_cycles (s : State) (rest : List PStep) : (advance s rest).cycles = s.cycles + Config.overheadAt s.cycles s.aidx := rfl

/-! ### `openFrame` -/

@[simp] theorem openFrame_bound (s : State) (bytes : List Byte) : (openFrame s bytes).bound = s.bound := rfl
@[simp] theorem openFrame_clkSel (s : State) (bytes : List Byte) : (openFrame s bytes).clkSel = s.clkSel := rfl
@[simp] theorem openFrame_dioSel (s : State) (bytes : List Byte) : (openFrame s bytes).dioSel = s.dioSel := rfl
@[simp] theorem openFrame_lines (s : State) (bytes : List Byte) : (openFrame s bytes).lines = s.lines := rfl
@[simp] theorem openFrame_busy (s : State) (bytes : List Byte) : (openFrame s bytes).busy = s.busy := rfl
@[simp] theorem openFrame_opL (s : State) (bytes : List Byte) : (openFrame s bytes).opL = s.opL := rfl
@[simp] theorem openFrame_aL (s : State) (bytes : List Byte) : (openFrame s bytes).aL = s.aL := rfl
@[simp] theorem openFrame_bL (s : State) (bytes : List Byte) : (openFrame s bytes).bL = s.bL := rfl
@[simp] theorem openFrame_prog (s : State) (bytes : List Byte) : (openFrame s bytes).prog = s.prog := rfl
@[simp] theorem openFrame_aidx (s : State) (bytes : List Byte) : (openFrame s bytes).aidx = s.aidx := rfl
@[simp] theorem openFrame_waitCnt (s : State) (bytes : List Byte) : (openFrame s bytes).waitCnt = s.waitCnt := rfl
@[simp] theorem openFrame_reqNack (s : State) (bytes : List Byte) : (openFrame s bytes).reqNack = s.reqNack := rfl
@[simp] theorem openFrame_shreg (s : State) (bytes : List Byte) : (openFrame s bytes).shreg = s.shreg := rfl
@[simp] theorem openFrame_bitcnt (s : State) (bytes : List Byte) : (openFrame s bytes).bitcnt = s.bitcnt := rfl
@[simp] theorem openFrame_dig (s : State) (bytes : List Byte) : (openFrame s bytes).dig = s.dig := rfl
@[simp] theorem openFrame_lastAck (s : State) (bytes : List Byte) : (openFrame s bytes).lastAck = s.lastAck := rfl
@[simp] theorem openFrame_nack (s : State) (bytes : List Byte) : (openFrame s bytes).nack = s.nack := rfl
@[simp] theorem openFrame_rejected (s : State) (bytes : List Byte) : (openFrame s bytes).rejected = s.rejected := rfl
@[simp] theorem openFrame_illegal (s : State) (bytes : List Byte) : (openFrame s bytes).illegal = s.illegal := rfl
@[simp] theorem openFrame_unbound (s : State) (bytes : List Byte) : (openFrame s bytes).unbound = s.unbound := rfl
@[simp] theorem openFrame_ackO (s : State) (bytes : List Byte) : (openFrame s bytes).ackO = s.ackO := rfl
@[simp] theorem openFrame_done (s : State) (bytes : List Byte) : (openFrame s bytes).done = s.done := rfl
@[simp] theorem openFrame_trace (s : State) (bytes : List Byte) : (openFrame s bytes).trace = s.trace := rfl
@[simp] theorem openFrame_dec (s : State) (bytes : List Byte) : (openFrame s bytes).dec = s.dec := rfl
@[simp] theorem openFrame_delivered (s : State) (bytes : List Byte) : (openFrame s bytes).delivered = s.delivered := rfl
@[simp] theorem openFrame_rxInbox (s : State) (bytes : List Byte) : (openFrame s bytes).rxInbox = some bytes := rfl
@[simp] theorem openFrame_rxAddr (s : State) (bytes : List Byte) : (openFrame s bytes).rxAddr = none := rfl
@[simp] theorem openFrame_receivers (s : State) (bytes : List Byte) : (openFrame s bytes).receivers = s.receivers := rfl
@[simp] theorem openFrame_receiver (s : State) (bytes : List Byte) : (openFrame s bytes).receiver = s.receiver := rfl
@[simp] theorem openFrame_hostMoves (s : State) (bytes : List Byte) : (openFrame s bytes).hostMoves = s.hostMoves := rfl
@[simp] theorem openFrame_rstIn (s : State) (bytes : List Byte) : (openFrame s bytes).rstIn = s.rstIn := rfl
@[simp] theorem openFrame_obs (s : State) (bytes : List Byte) : (openFrame s bytes).obs = s.obs := rfl
@[simp] theorem openFrame_cycles (s : State) (bytes : List Byte) : (openFrame s bytes).cycles = s.cycles := rfl

/-! ### `takeByte` -/

@[simp] theorem takeByte_bound (s : State) (rest : List Byte) : (takeByte s rest).bound = s.bound := rfl
@[simp] theorem takeByte_clkSel (s : State) (rest : List Byte) : (takeByte s rest).clkSel = s.clkSel := rfl
@[simp] theorem takeByte_dioSel (s : State) (rest : List Byte) : (takeByte s rest).dioSel = s.dioSel := rfl
@[simp] theorem takeByte_lines (s : State) (rest : List Byte) : (takeByte s rest).lines = s.lines := rfl
@[simp] theorem takeByte_busy (s : State) (rest : List Byte) : (takeByte s rest).busy = s.busy := rfl
@[simp] theorem takeByte_opL (s : State) (rest : List Byte) : (takeByte s rest).opL = s.opL := rfl
@[simp] theorem takeByte_aL (s : State) (rest : List Byte) : (takeByte s rest).aL = s.aL := rfl
@[simp] theorem takeByte_bL (s : State) (rest : List Byte) : (takeByte s rest).bL = s.bL := rfl
@[simp] theorem takeByte_prog (s : State) (rest : List Byte) : (takeByte s rest).prog = s.prog := rfl
@[simp] theorem takeByte_aidx (s : State) (rest : List Byte) : (takeByte s rest).aidx = s.aidx := rfl
@[simp] theorem takeByte_waitCnt (s : State) (rest : List Byte) : (takeByte s rest).waitCnt = s.waitCnt := rfl
@[simp] theorem takeByte_reqNack (s : State) (rest : List Byte) : (takeByte s rest).reqNack = s.reqNack := rfl
@[simp] theorem takeByte_shreg (s : State) (rest : List Byte) : (takeByte s rest).shreg = s.shreg := rfl
@[simp] theorem takeByte_bitcnt (s : State) (rest : List Byte) : (takeByte s rest).bitcnt = s.bitcnt := rfl
@[simp] theorem takeByte_dig (s : State) (rest : List Byte) : (takeByte s rest).dig = s.dig := rfl
@[simp] theorem takeByte_lastAck (s : State) (rest : List Byte) : (takeByte s rest).lastAck = s.lastAck := rfl
@[simp] theorem takeByte_nack (s : State) (rest : List Byte) : (takeByte s rest).nack = s.nack := rfl
@[simp] theorem takeByte_rejected (s : State) (rest : List Byte) : (takeByte s rest).rejected = s.rejected := rfl
@[simp] theorem takeByte_illegal (s : State) (rest : List Byte) : (takeByte s rest).illegal = s.illegal := rfl
@[simp] theorem takeByte_unbound (s : State) (rest : List Byte) : (takeByte s rest).unbound = s.unbound := rfl
@[simp] theorem takeByte_ackO (s : State) (rest : List Byte) : (takeByte s rest).ackO = s.ackO := rfl
@[simp] theorem takeByte_done (s : State) (rest : List Byte) : (takeByte s rest).done = s.done := rfl
@[simp] theorem takeByte_trace (s : State) (rest : List Byte) : (takeByte s rest).trace = s.trace := rfl
@[simp] theorem takeByte_dec (s : State) (rest : List Byte) : (takeByte s rest).dec = s.dec := rfl
@[simp] theorem takeByte_delivered (s : State) (rest : List Byte) : (takeByte s rest).delivered = s.delivered := rfl
@[simp] theorem takeByte_rxInbox (s : State) (rest : List Byte) : (takeByte s rest).rxInbox = some rest := rfl
@[simp] theorem takeByte_rxAddr (s : State) (rest : List Byte) : (takeByte s rest).rxAddr = s.rxAddr := rfl
@[simp] theorem takeByte_receivers (s : State) (rest : List Byte) : (takeByte s rest).receivers = s.receivers := rfl
@[simp] theorem takeByte_receiver (s : State) (rest : List Byte) : (takeByte s rest).receiver = s.receiver := rfl
@[simp] theorem takeByte_hostMoves (s : State) (rest : List Byte) : (takeByte s rest).hostMoves = s.hostMoves := rfl
@[simp] theorem takeByte_rstIn (s : State) (rest : List Byte) : (takeByte s rest).rstIn = s.rstIn := rfl
@[simp] theorem takeByte_obs (s : State) (rest : List Byte) : (takeByte s rest).obs = s.obs := rfl
@[simp] theorem takeByte_cycles (s : State) (rest : List Byte) : (takeByte s rest).cycles = s.cycles := rfl

/-! ### `addressPosition` -/

@[simp] theorem addressPosition_bound (s : State) (p : BitVec 2) : (addressPosition s p).bound = s.bound := rfl
@[simp] theorem addressPosition_clkSel (s : State) (p : BitVec 2) : (addressPosition s p).clkSel = s.clkSel := rfl
@[simp] theorem addressPosition_dioSel (s : State) (p : BitVec 2) : (addressPosition s p).dioSel = s.dioSel := rfl
@[simp] theorem addressPosition_lines (s : State) (p : BitVec 2) : (addressPosition s p).lines = s.lines := rfl
@[simp] theorem addressPosition_busy (s : State) (p : BitVec 2) : (addressPosition s p).busy = s.busy := rfl
@[simp] theorem addressPosition_opL (s : State) (p : BitVec 2) : (addressPosition s p).opL = s.opL := rfl
@[simp] theorem addressPosition_aL (s : State) (p : BitVec 2) : (addressPosition s p).aL = s.aL := rfl
@[simp] theorem addressPosition_bL (s : State) (p : BitVec 2) : (addressPosition s p).bL = s.bL := rfl
@[simp] theorem addressPosition_prog (s : State) (p : BitVec 2) : (addressPosition s p).prog = s.prog := rfl
@[simp] theorem addressPosition_aidx (s : State) (p : BitVec 2) : (addressPosition s p).aidx = s.aidx := rfl
@[simp] theorem addressPosition_waitCnt (s : State) (p : BitVec 2) : (addressPosition s p).waitCnt = s.waitCnt := rfl
@[simp] theorem addressPosition_reqNack (s : State) (p : BitVec 2) : (addressPosition s p).reqNack = s.reqNack := rfl
@[simp] theorem addressPosition_shreg (s : State) (p : BitVec 2) : (addressPosition s p).shreg = s.shreg := rfl
@[simp] theorem addressPosition_bitcnt (s : State) (p : BitVec 2) : (addressPosition s p).bitcnt = s.bitcnt := rfl
@[simp] theorem addressPosition_dig (s : State) (p : BitVec 2) : (addressPosition s p).dig = s.dig := rfl
@[simp] theorem addressPosition_lastAck (s : State) (p : BitVec 2) : (addressPosition s p).lastAck = s.lastAck := rfl
@[simp] theorem addressPosition_nack (s : State) (p : BitVec 2) : (addressPosition s p).nack = s.nack := rfl
@[simp] theorem addressPosition_rejected (s : State) (p : BitVec 2) : (addressPosition s p).rejected = s.rejected := rfl
@[simp] theorem addressPosition_illegal (s : State) (p : BitVec 2) : (addressPosition s p).illegal = s.illegal := rfl
@[simp] theorem addressPosition_unbound (s : State) (p : BitVec 2) : (addressPosition s p).unbound = s.unbound := rfl
@[simp] theorem addressPosition_ackO (s : State) (p : BitVec 2) : (addressPosition s p).ackO = s.ackO := rfl
@[simp] theorem addressPosition_done (s : State) (p : BitVec 2) : (addressPosition s p).done = s.done := rfl
@[simp] theorem addressPosition_trace (s : State) (p : BitVec 2) : (addressPosition s p).trace = s.trace := rfl
@[simp] theorem addressPosition_dec (s : State) (p : BitVec 2) : (addressPosition s p).dec = s.dec := rfl
@[simp] theorem addressPosition_delivered (s : State) (p : BitVec 2) : (addressPosition s p).delivered = s.delivered := rfl
@[simp] theorem addressPosition_rxInbox (s : State) (p : BitVec 2) : (addressPosition s p).rxInbox = s.rxInbox := rfl
@[simp] theorem addressPosition_rxAddr (s : State) (p : BitVec 2) : (addressPosition s p).rxAddr = some p := rfl
@[simp] theorem addressPosition_receivers (s : State) (p : BitVec 2) : (addressPosition s p).receivers = s.receivers := rfl
@[simp] theorem addressPosition_receiver (s : State) (p : BitVec 2) : (addressPosition s p).receiver = s.receiver := rfl
@[simp] theorem addressPosition_hostMoves (s : State) (p : BitVec 2) : (addressPosition s p).hostMoves = s.hostMoves := rfl
@[simp] theorem addressPosition_rstIn (s : State) (p : BitVec 2) : (addressPosition s p).rstIn = s.rstIn := rfl
@[simp] theorem addressPosition_obs (s : State) (p : BitVec 2) : (addressPosition s p).obs = s.obs := rfl
@[simp] theorem addressPosition_cycles (s : State) (p : BitVec 2) : (addressPosition s p).cycles = s.cycles := rfl

/-! ### `loadList` -/

@[simp] theorem loadList_bound (s : State) (l : List PStep) : (loadList s l).bound = s.bound := rfl
@[simp] theorem loadList_clkSel (s : State) (l : List PStep) : (loadList s l).clkSel = s.clkSel := rfl
@[simp] theorem loadList_dioSel (s : State) (l : List PStep) : (loadList s l).dioSel = s.dioSel := rfl
@[simp] theorem loadList_lines (s : State) (l : List PStep) : (loadList s l).lines = s.lines := rfl
@[simp] theorem loadList_busy (s : State) (l : List PStep) : (loadList s l).busy = true := rfl
@[simp] theorem loadList_opL (s : State) (l : List PStep) : (loadList s l).opL = s.opL := rfl
@[simp] theorem loadList_aL (s : State) (l : List PStep) : (loadList s l).aL = s.aL := rfl
@[simp] theorem loadList_bL (s : State) (l : List PStep) : (loadList s l).bL = s.bL := rfl
@[simp] theorem loadList_prog (s : State) (l : List PStep) : (loadList s l).prog = l := rfl
@[simp] theorem loadList_aidx (s : State) (l : List PStep) : (loadList s l).aidx = 0 := rfl
@[simp] theorem loadList_waitCnt (s : State) (l : List PStep) : (loadList s l).waitCnt = s.waitCnt := rfl
@[simp] theorem loadList_reqNack (s : State) (l : List PStep) : (loadList s l).reqNack = false := rfl
@[simp] theorem loadList_shreg (s : State) (l : List PStep) : (loadList s l).shreg = s.shreg := rfl
@[simp] theorem loadList_bitcnt (s : State) (l : List PStep) : (loadList s l).bitcnt = s.bitcnt := rfl
@[simp] theorem loadList_dig (s : State) (l : List PStep) : (loadList s l).dig = s.dig := rfl
@[simp] theorem loadList_lastAck (s : State) (l : List PStep) : (loadList s l).lastAck = s.lastAck := rfl
@[simp] theorem loadList_nack (s : State) (l : List PStep) : (loadList s l).nack = false := rfl
@[simp] theorem loadList_rejected (s : State) (l : List PStep) : (loadList s l).rejected = false := rfl
@[simp] theorem loadList_illegal (s : State) (l : List PStep) : (loadList s l).illegal = false := rfl
@[simp] theorem loadList_unbound (s : State) (l : List PStep) : (loadList s l).unbound = false := rfl
@[simp] theorem loadList_ackO (s : State) (l : List PStep) : (loadList s l).ackO = s.ackO := rfl
@[simp] theorem loadList_done (s : State) (l : List PStep) : (loadList s l).done = false := rfl
@[simp] theorem loadList_trace (s : State) (l : List PStep) : (loadList s l).trace = s.trace := rfl
@[simp] theorem loadList_dec (s : State) (l : List PStep) : (loadList s l).dec = s.dec := rfl
@[simp] theorem loadList_delivered (s : State) (l : List PStep) : (loadList s l).delivered = s.delivered := rfl
@[simp] theorem loadList_rxInbox (s : State) (l : List PStep) : (loadList s l).rxInbox = s.rxInbox := rfl
@[simp] theorem loadList_rxAddr (s : State) (l : List PStep) : (loadList s l).rxAddr = s.rxAddr := rfl
@[simp] theorem loadList_receivers (s : State) (l : List PStep) : (loadList s l).receivers = s.receivers := rfl
@[simp] theorem loadList_receiver (s : State) (l : List PStep) : (loadList s l).receiver = s.receiver := rfl
@[simp] theorem loadList_hostMoves (s : State) (l : List PStep) : (loadList s l).hostMoves = s.hostMoves := rfl
@[simp] theorem loadList_rstIn (s : State) (l : List PStep) : (loadList s l).rstIn = s.rstIn := rfl
@[simp] theorem loadList_obs (s : State) (l : List PStep) : (loadList s l).obs = s.obs := rfl
@[simp] theorem loadList_cycles (s : State) (l : List PStep) : (loadList s l).cycles = s.cycles := rfl

/-! ### `setDigits` -/

@[simp] theorem setDigits_bound (s : State) (d : Digits) : (setDigits s d).bound = s.bound := rfl
@[simp] theorem setDigits_clkSel (s : State) (d : Digits) : (setDigits s d).clkSel = s.clkSel := rfl
@[simp] theorem setDigits_dioSel (s : State) (d : Digits) : (setDigits s d).dioSel = s.dioSel := rfl
@[simp] theorem setDigits_lines (s : State) (d : Digits) : (setDigits s d).lines = s.lines := rfl
@[simp] theorem setDigits_busy (s : State) (d : Digits) : (setDigits s d).busy = s.busy := rfl
@[simp] theorem setDigits_opL (s : State) (d : Digits) : (setDigits s d).opL = s.opL := rfl
@[simp] theorem setDigits_aL (s : State) (d : Digits) : (setDigits s d).aL = s.aL := rfl
@[simp] theorem setDigits_bL (s : State) (d : Digits) : (setDigits s d).bL = s.bL := rfl
@[simp] theorem setDigits_prog (s : State) (d : Digits) : (setDigits s d).prog = s.prog := rfl
@[simp] theorem setDigits_aidx (s : State) (d : Digits) : (setDigits s d).aidx = s.aidx := rfl
@[simp] theorem setDigits_waitCnt (s : State) (d : Digits) : (setDigits s d).waitCnt = s.waitCnt := rfl
@[simp] theorem setDigits_reqNack (s : State) (d : Digits) : (setDigits s d).reqNack = s.reqNack := rfl
@[simp] theorem setDigits_shreg (s : State) (d : Digits) : (setDigits s d).shreg = s.shreg := rfl
@[simp] theorem setDigits_bitcnt (s : State) (d : Digits) : (setDigits s d).bitcnt = s.bitcnt := rfl
@[simp] theorem setDigits_dig (s : State) (d : Digits) : (setDigits s d).dig = d := rfl
@[simp] theorem setDigits_lastAck (s : State) (d : Digits) : (setDigits s d).lastAck = s.lastAck := rfl
@[simp] theorem setDigits_nack (s : State) (d : Digits) : (setDigits s d).nack = s.nack := rfl
@[simp] theorem setDigits_rejected (s : State) (d : Digits) : (setDigits s d).rejected = s.rejected := rfl
@[simp] theorem setDigits_illegal (s : State) (d : Digits) : (setDigits s d).illegal = s.illegal := rfl
@[simp] theorem setDigits_unbound (s : State) (d : Digits) : (setDigits s d).unbound = s.unbound := rfl
@[simp] theorem setDigits_ackO (s : State) (d : Digits) : (setDigits s d).ackO = s.ackO := rfl
@[simp] theorem setDigits_done (s : State) (d : Digits) : (setDigits s d).done = s.done := rfl
@[simp] theorem setDigits_trace (s : State) (d : Digits) : (setDigits s d).trace = s.trace := rfl
@[simp] theorem setDigits_dec (s : State) (d : Digits) : (setDigits s d).dec = s.dec := rfl
@[simp] theorem setDigits_delivered (s : State) (d : Digits) : (setDigits s d).delivered = s.delivered := rfl
@[simp] theorem setDigits_rxInbox (s : State) (d : Digits) : (setDigits s d).rxInbox = s.rxInbox := rfl
@[simp] theorem setDigits_rxAddr (s : State) (d : Digits) : (setDigits s d).rxAddr = s.rxAddr := rfl
@[simp] theorem setDigits_receivers (s : State) (d : Digits) : (setDigits s d).receivers = s.receivers := rfl
@[simp] theorem setDigits_receiver (s : State) (d : Digits) : (setDigits s d).receiver = s.receiver := rfl
@[simp] theorem setDigits_hostMoves (s : State) (d : Digits) : (setDigits s d).hostMoves = s.hostMoves := rfl
@[simp] theorem setDigits_rstIn (s : State) (d : Digits) : (setDigits s d).rstIn = s.rstIn := rfl
@[simp] theorem setDigits_obs (s : State) (d : Digits) : (setDigits s d).obs = s.obs := rfl
@[simp] theorem setDigits_cycles (s : State) (d : Digits) : (setDigits s d).cycles = s.cycles := rfl

/-! ### `setDecoder` -/

@[simp] theorem setDecoder_bound (s : State) (d : Decoder) : (setDecoder s d).bound = s.bound := rfl
@[simp] theorem setDecoder_clkSel (s : State) (d : Decoder) : (setDecoder s d).clkSel = s.clkSel := rfl
@[simp] theorem setDecoder_dioSel (s : State) (d : Decoder) : (setDecoder s d).dioSel = s.dioSel := rfl
@[simp] theorem setDecoder_lines (s : State) (d : Decoder) : (setDecoder s d).lines = s.lines := rfl
@[simp] theorem setDecoder_busy (s : State) (d : Decoder) : (setDecoder s d).busy = s.busy := rfl
@[simp] theorem setDecoder_opL (s : State) (d : Decoder) : (setDecoder s d).opL = s.opL := rfl
@[simp] theorem setDecoder_aL (s : State) (d : Decoder) : (setDecoder s d).aL = s.aL := rfl
@[simp] theorem setDecoder_bL (s : State) (d : Decoder) : (setDecoder s d).bL = s.bL := rfl
@[simp] theorem setDecoder_prog (s : State) (d : Decoder) : (setDecoder s d).prog = s.prog := rfl
@[simp] theorem setDecoder_aidx (s : State) (d : Decoder) : (setDecoder s d).aidx = s.aidx := rfl
@[simp] theorem setDecoder_waitCnt (s : State) (d : Decoder) : (setDecoder s d).waitCnt = s.waitCnt := rfl
@[simp] theorem setDecoder_reqNack (s : State) (d : Decoder) : (setDecoder s d).reqNack = s.reqNack := rfl
@[simp] theorem setDecoder_shreg (s : State) (d : Decoder) : (setDecoder s d).shreg = s.shreg := rfl
@[simp] theorem setDecoder_bitcnt (s : State) (d : Decoder) : (setDecoder s d).bitcnt = s.bitcnt := rfl
@[simp] theorem setDecoder_dig (s : State) (d : Decoder) : (setDecoder s d).dig = s.dig := rfl
@[simp] theorem setDecoder_lastAck (s : State) (d : Decoder) : (setDecoder s d).lastAck = s.lastAck := rfl
@[simp] theorem setDecoder_nack (s : State) (d : Decoder) : (setDecoder s d).nack = s.nack := rfl
@[simp] theorem setDecoder_rejected (s : State) (d : Decoder) : (setDecoder s d).rejected = s.rejected := rfl
@[simp] theorem setDecoder_illegal (s : State) (d : Decoder) : (setDecoder s d).illegal = s.illegal := rfl
@[simp] theorem setDecoder_unbound (s : State) (d : Decoder) : (setDecoder s d).unbound = s.unbound := rfl
@[simp] theorem setDecoder_ackO (s : State) (d : Decoder) : (setDecoder s d).ackO = s.ackO := rfl
@[simp] theorem setDecoder_done (s : State) (d : Decoder) : (setDecoder s d).done = s.done := rfl
@[simp] theorem setDecoder_trace (s : State) (d : Decoder) : (setDecoder s d).trace = s.trace := rfl
@[simp] theorem setDecoder_dec (s : State) (d : Decoder) : (setDecoder s d).dec = d := rfl
@[simp] theorem setDecoder_delivered (s : State) (d : Decoder) : (setDecoder s d).delivered = s.delivered := rfl
@[simp] theorem setDecoder_rxInbox (s : State) (d : Decoder) : (setDecoder s d).rxInbox = s.rxInbox := rfl
@[simp] theorem setDecoder_rxAddr (s : State) (d : Decoder) : (setDecoder s d).rxAddr = s.rxAddr := rfl
@[simp] theorem setDecoder_receivers (s : State) (d : Decoder) : (setDecoder s d).receivers = s.receivers := rfl
@[simp] theorem setDecoder_receiver (s : State) (d : Decoder) : (setDecoder s d).receiver = s.receiver := rfl
@[simp] theorem setDecoder_hostMoves (s : State) (d : Decoder) : (setDecoder s d).hostMoves = s.hostMoves := rfl
@[simp] theorem setDecoder_rstIn (s : State) (d : Decoder) : (setDecoder s d).rstIn = s.rstIn := rfl
@[simp] theorem setDecoder_obs (s : State) (d : Decoder) : (setDecoder s d).obs = s.obs := rfl
@[simp] theorem setDecoder_cycles (s : State) (d : Decoder) : (setDecoder s d).cycles = s.cycles := rfl

/-! ### `recordFrame` -/

@[simp] theorem recordFrame_bound (s : State) (f : Frame) : (recordFrame s f).bound = s.bound := rfl
@[simp] theorem recordFrame_clkSel (s : State) (f : Frame) : (recordFrame s f).clkSel = s.clkSel := rfl
@[simp] theorem recordFrame_dioSel (s : State) (f : Frame) : (recordFrame s f).dioSel = s.dioSel := rfl
@[simp] theorem recordFrame_lines (s : State) (f : Frame) : (recordFrame s f).lines = s.lines := rfl
@[simp] theorem recordFrame_busy (s : State) (f : Frame) : (recordFrame s f).busy = s.busy := rfl
@[simp] theorem recordFrame_opL (s : State) (f : Frame) : (recordFrame s f).opL = s.opL := rfl
@[simp] theorem recordFrame_aL (s : State) (f : Frame) : (recordFrame s f).aL = s.aL := rfl
@[simp] theorem recordFrame_bL (s : State) (f : Frame) : (recordFrame s f).bL = s.bL := rfl
@[simp] theorem recordFrame_prog (s : State) (f : Frame) : (recordFrame s f).prog = s.prog := rfl
@[simp] theorem recordFrame_aidx (s : State) (f : Frame) : (recordFrame s f).aidx = s.aidx := rfl
@[simp] theorem recordFrame_waitCnt (s : State) (f : Frame) : (recordFrame s f).waitCnt = s.waitCnt := rfl
@[simp] theorem recordFrame_reqNack (s : State) (f : Frame) : (recordFrame s f).reqNack = s.reqNack := rfl
@[simp] theorem recordFrame_shreg (s : State) (f : Frame) : (recordFrame s f).shreg = s.shreg := rfl
@[simp] theorem recordFrame_bitcnt (s : State) (f : Frame) : (recordFrame s f).bitcnt = s.bitcnt := rfl
@[simp] theorem recordFrame_dig (s : State) (f : Frame) : (recordFrame s f).dig = s.dig := rfl
@[simp] theorem recordFrame_lastAck (s : State) (f : Frame) : (recordFrame s f).lastAck = s.lastAck := rfl
@[simp] theorem recordFrame_nack (s : State) (f : Frame) : (recordFrame s f).nack = s.nack := rfl
@[simp] theorem recordFrame_rejected (s : State) (f : Frame) : (recordFrame s f).rejected = s.rejected := rfl
@[simp] theorem recordFrame_illegal (s : State) (f : Frame) : (recordFrame s f).illegal = s.illegal := rfl
@[simp] theorem recordFrame_unbound (s : State) (f : Frame) : (recordFrame s f).unbound = s.unbound := rfl
@[simp] theorem recordFrame_ackO (s : State) (f : Frame) : (recordFrame s f).ackO = s.ackO := rfl
@[simp] theorem recordFrame_done (s : State) (f : Frame) : (recordFrame s f).done = s.done := rfl
@[simp] theorem recordFrame_trace (s : State) (f : Frame) : (recordFrame s f).trace = s.trace := rfl
@[simp] theorem recordFrame_dec (s : State) (f : Frame) : (recordFrame s f).dec = s.dec := rfl
@[simp] theorem recordFrame_delivered (s : State) (f : Frame) : (recordFrame s f).delivered = s.delivered ++ [f] := rfl
@[simp] theorem recordFrame_rxInbox (s : State) (f : Frame) : (recordFrame s f).rxInbox = s.rxInbox := rfl
@[simp] theorem recordFrame_rxAddr (s : State) (f : Frame) : (recordFrame s f).rxAddr = s.rxAddr := rfl
@[simp] theorem recordFrame_receivers (s : State) (f : Frame) : (recordFrame s f).receivers = s.receivers := rfl
@[simp] theorem recordFrame_receiver (s : State) (f : Frame) : (recordFrame s f).receiver = s.receiver := rfl
@[simp] theorem recordFrame_hostMoves (s : State) (f : Frame) : (recordFrame s f).hostMoves = s.hostMoves := rfl
@[simp] theorem recordFrame_rstIn (s : State) (f : Frame) : (recordFrame s f).rstIn = s.rstIn := rfl
@[simp] theorem recordFrame_obs (s : State) (f : Frame) : (recordFrame s f).obs = s.obs := rfl
@[simp] theorem recordFrame_cycles (s : State) (f : Frame) : (recordFrame s f).cycles = s.cycles := rfl

/-! ### `recordAct` -/

@[simp] theorem recordAct_bound (a : LineAction) (rest : List PStep) (v : Bit) (s : State) : (recordAct a rest v s).bound = s.bound := rfl
@[simp] theorem recordAct_clkSel (a : LineAction) (rest : List PStep) (v : Bit) (s : State) : (recordAct a rest v s).clkSel = s.clkSel := rfl
@[simp] theorem recordAct_dioSel (a : LineAction) (rest : List PStep) (v : Bit) (s : State) : (recordAct a rest v s).dioSel = s.dioSel := rfl
@[simp] theorem recordAct_lines (a : LineAction) (rest : List PStep) (v : Bit) (s : State) : (recordAct a rest v s).lines = applyAction a s.lines := rfl
@[simp] theorem recordAct_busy (a : LineAction) (rest : List PStep) (v : Bit) (s : State) : (recordAct a rest v s).busy = s.busy := rfl
@[simp] theorem recordAct_opL (a : LineAction) (rest : List PStep) (v : Bit) (s : State) : (recordAct a rest v s).opL = s.opL := rfl
@[simp] theorem recordAct_aL (a : LineAction) (rest : List PStep) (v : Bit) (s : State) : (recordAct a rest v s).aL = s.aL := rfl
@[simp] theorem recordAct_bL (a : LineAction) (rest : List PStep) (v : Bit) (s : State) : (recordAct a rest v s).bL = s.bL := rfl
@[simp] theorem recordAct_prog (a : LineAction) (rest : List PStep) (v : Bit) (s : State) : (recordAct a rest v s).prog = .wait :: rest := rfl
@[simp] theorem recordAct_aidx (a : LineAction) (rest : List PStep) (v : Bit) (s : State) : (recordAct a rest v s).aidx = s.aidx + 1 := rfl
@[simp] theorem recordAct_waitCnt (a : LineAction) (rest : List PStep) (v : Bit) (s : State) : (recordAct a rest v s).waitCnt = Config.settleCycles := rfl
@[simp] theorem recordAct_reqNack (a : LineAction) (rest : List PStep) (v : Bit) (s : State) : (recordAct a rest v s).reqNack = s.reqNack := rfl
@[simp] theorem recordAct_shreg (a : LineAction) (rest : List PStep) (v : Bit) (s : State) : (recordAct a rest v s).shreg = s.shreg := rfl
@[simp] theorem recordAct_bitcnt (a : LineAction) (rest : List PStep) (v : Bit) (s : State) : (recordAct a rest v s).bitcnt = s.bitcnt := rfl
@[simp] theorem recordAct_dig (a : LineAction) (rest : List PStep) (v : Bit) (s : State) : (recordAct a rest v s).dig = s.dig := rfl
@[simp] theorem recordAct_lastAck (a : LineAction) (rest : List PStep) (v : Bit) (s : State) : (recordAct a rest v s).lastAck = s.lastAck := rfl
@[simp] theorem recordAct_nack (a : LineAction) (rest : List PStep) (v : Bit) (s : State) : (recordAct a rest v s).nack = s.nack := rfl
@[simp] theorem recordAct_rejected (a : LineAction) (rest : List PStep) (v : Bit) (s : State) : (recordAct a rest v s).rejected = s.rejected := rfl
@[simp] theorem recordAct_illegal (a : LineAction) (rest : List PStep) (v : Bit) (s : State) : (recordAct a rest v s).illegal = s.illegal := rfl
@[simp] theorem recordAct_unbound (a : LineAction) (rest : List PStep) (v : Bit) (s : State) : (recordAct a rest v s).unbound = s.unbound := rfl
@[simp] theorem recordAct_ackO (a : LineAction) (rest : List PStep) (v : Bit) (s : State) : (recordAct a rest v s).ackO = s.ackO := rfl
@[simp] theorem recordAct_done (a : LineAction) (rest : List PStep) (v : Bit) (s : State) : (recordAct a rest v s).done = s.done := rfl
@[simp] theorem recordAct_trace (a : LineAction) (rest : List PStep) (v : Bit) (s : State) : (recordAct a rest v s).trace = s.trace ++ [.ev a (clkBus (applyAction a s.lines) s.obs) v] := rfl
@[simp] theorem recordAct_dec (a : LineAction) (rest : List PStep) (v : Bit) (s : State) : (recordAct a rest v s).dec = s.dec := rfl
@[simp] theorem recordAct_delivered (a : LineAction) (rest : List PStep) (v : Bit) (s : State) : (recordAct a rest v s).delivered = s.delivered := rfl
@[simp] theorem recordAct_rxInbox (a : LineAction) (rest : List PStep) (v : Bit) (s : State) : (recordAct a rest v s).rxInbox = s.rxInbox := rfl
@[simp] theorem recordAct_rxAddr (a : LineAction) (rest : List PStep) (v : Bit) (s : State) : (recordAct a rest v s).rxAddr = s.rxAddr := rfl
@[simp] theorem recordAct_receivers (a : LineAction) (rest : List PStep) (v : Bit) (s : State) : (recordAct a rest v s).receivers = s.receivers := rfl
@[simp] theorem recordAct_receiver (a : LineAction) (rest : List PStep) (v : Bit) (s : State) : (recordAct a rest v s).receiver = s.receiver := rfl
@[simp] theorem recordAct_hostMoves (a : LineAction) (rest : List PStep) (v : Bit) (s : State) : (recordAct a rest v s).hostMoves = s.hostMoves := rfl
@[simp] theorem recordAct_rstIn (a : LineAction) (rest : List PStep) (v : Bit) (s : State) : (recordAct a rest v s).rstIn = s.rstIn := rfl
@[simp] theorem recordAct_obs (a : LineAction) (rest : List PStep) (v : Bit) (s : State) : (recordAct a rest v s).obs = s.obs + 1 := rfl
@[simp] theorem recordAct_cycles (a : LineAction) (rest : List PStep) (v : Bit) (s : State) : (recordAct a rest v s).cycles = s.cycles + Config.overheadAt s.cycles s.aidx := rfl

/-! ### `recordWait` -/

@[simp] theorem recordWait_bound (rest : List PStep) (s : State) : (recordWait rest s).bound = s.bound := rfl
@[simp] theorem recordWait_clkSel (rest : List PStep) (s : State) : (recordWait rest s).clkSel = s.clkSel := rfl
@[simp] theorem recordWait_dioSel (rest : List PStep) (s : State) : (recordWait rest s).dioSel = s.dioSel := rfl
@[simp] theorem recordWait_lines (rest : List PStep) (s : State) : (recordWait rest s).lines = s.lines := rfl
@[simp] theorem recordWait_busy (rest : List PStep) (s : State) : (recordWait rest s).busy = s.busy := rfl
@[simp] theorem recordWait_opL (rest : List PStep) (s : State) : (recordWait rest s).opL = s.opL := rfl
@[simp] theorem recordWait_aL (rest : List PStep) (s : State) : (recordWait rest s).aL = s.aL := rfl
@[simp] theorem recordWait_bL (rest : List PStep) (s : State) : (recordWait rest s).bL = s.bL := rfl
@[simp] theorem recordWait_prog (rest : List PStep) (s : State) : (recordWait rest s).prog = rest := rfl
@[simp] theorem recordWait_aidx (rest : List PStep) (s : State) : (recordWait rest s).aidx = s.aidx + 1 := rfl
@[simp] theorem recordWait_waitCnt (rest : List PStep) (s : State) : (recordWait rest s).waitCnt = 0 := rfl
@[simp] theorem recordWait_reqNack (rest : List PStep) (s : State) : (recordWait rest s).reqNack = s.reqNack := rfl
@[simp] theorem recordWait_shreg (rest : List PStep) (s : State) : (recordWait rest s).shreg = s.shreg := rfl
@[simp] theorem recordWait_bitcnt (rest : List PStep) (s : State) : (recordWait rest s).bitcnt = s.bitcnt := rfl
@[simp] theorem recordWait_dig (rest : List PStep) (s : State) : (recordWait rest s).dig = s.dig := rfl
@[simp] theorem recordWait_lastAck (rest : List PStep) (s : State) : (recordWait rest s).lastAck = s.lastAck := rfl
@[simp] theorem recordWait_nack (rest : List PStep) (s : State) : (recordWait rest s).nack = s.nack := rfl
@[simp] theorem recordWait_rejected (rest : List PStep) (s : State) : (recordWait rest s).rejected = s.rejected := rfl
@[simp] theorem recordWait_illegal (rest : List PStep) (s : State) : (recordWait rest s).illegal = s.illegal := rfl
@[simp] theorem recordWait_unbound (rest : List PStep) (s : State) : (recordWait rest s).unbound = s.unbound := rfl
@[simp] theorem recordWait_ackO (rest : List PStep) (s : State) : (recordWait rest s).ackO = s.ackO := rfl
@[simp] theorem recordWait_done (rest : List PStep) (s : State) : (recordWait rest s).done = s.done := rfl
@[simp] theorem recordWait_trace (rest : List PStep) (s : State) : (recordWait rest s).trace = s.trace ++ [.w] := rfl
@[simp] theorem recordWait_dec (rest : List PStep) (s : State) : (recordWait rest s).dec = s.dec := rfl
@[simp] theorem recordWait_delivered (rest : List PStep) (s : State) : (recordWait rest s).delivered = s.delivered := rfl
@[simp] theorem recordWait_rxInbox (rest : List PStep) (s : State) : (recordWait rest s).rxInbox = s.rxInbox := rfl
@[simp] theorem recordWait_rxAddr (rest : List PStep) (s : State) : (recordWait rest s).rxAddr = s.rxAddr := rfl
@[simp] theorem recordWait_receivers (rest : List PStep) (s : State) : (recordWait rest s).receivers = s.receivers := rfl
@[simp] theorem recordWait_receiver (rest : List PStep) (s : State) : (recordWait rest s).receiver = s.receiver := rfl
@[simp] theorem recordWait_hostMoves (rest : List PStep) (s : State) : (recordWait rest s).hostMoves = s.hostMoves := rfl
@[simp] theorem recordWait_rstIn (rest : List PStep) (s : State) : (recordWait rest s).rstIn = s.rstIn := rfl
@[simp] theorem recordWait_obs (rest : List PStep) (s : State) : (recordWait rest s).obs = s.obs := rfl
@[simp] theorem recordWait_cycles (rest : List PStep) (s : State) : (recordWait rest s).cycles = s.cycles + s.waitCnt := rfl

/-! ### `recordSample` -/

@[simp] theorem recordSample_bound (rest : List PStep) (v : Bit) (s : State) : (recordSample rest v s).bound = s.bound := rfl
@[simp] theorem recordSample_clkSel (rest : List PStep) (v : Bit) (s : State) : (recordSample rest v s).clkSel = s.clkSel := rfl
@[simp] theorem recordSample_dioSel (rest : List PStep) (v : Bit) (s : State) : (recordSample rest v s).dioSel = s.dioSel := rfl
@[simp] theorem recordSample_lines (rest : List PStep) (v : Bit) (s : State) : (recordSample rest v s).lines = s.lines := rfl
@[simp] theorem recordSample_busy (rest : List PStep) (v : Bit) (s : State) : (recordSample rest v s).busy = s.busy := rfl
@[simp] theorem recordSample_opL (rest : List PStep) (v : Bit) (s : State) : (recordSample rest v s).opL = s.opL := rfl
@[simp] theorem recordSample_aL (rest : List PStep) (v : Bit) (s : State) : (recordSample rest v s).aL = s.aL := rfl
@[simp] theorem recordSample_bL (rest : List PStep) (v : Bit) (s : State) : (recordSample rest v s).bL = s.bL := rfl
@[simp] theorem recordSample_prog (rest : List PStep) (v : Bit) (s : State) : (recordSample rest v s).prog = rest := rfl
@[simp] theorem recordSample_aidx (rest : List PStep) (v : Bit) (s : State) : (recordSample rest v s).aidx = s.aidx + 1 := rfl
@[simp] theorem recordSample_waitCnt (rest : List PStep) (v : Bit) (s : State) : (recordSample rest v s).waitCnt = s.waitCnt := rfl
@[simp] theorem recordSample_reqNack (rest : List PStep) (v : Bit) (s : State) : (recordSample rest v s).reqNack = (s.reqNack || v) := rfl
@[simp] theorem recordSample_shreg (rest : List PStep) (v : Bit) (s : State) : (recordSample rest v s).shreg = s.shreg := rfl
@[simp] theorem recordSample_bitcnt (rest : List PStep) (v : Bit) (s : State) : (recordSample rest v s).bitcnt = s.bitcnt := rfl
@[simp] theorem recordSample_dig (rest : List PStep) (v : Bit) (s : State) : (recordSample rest v s).dig = s.dig := rfl
@[simp] theorem recordSample_lastAck (rest : List PStep) (v : Bit) (s : State) : (recordSample rest v s).lastAck = !v := rfl
@[simp] theorem recordSample_nack (rest : List PStep) (v : Bit) (s : State) : (recordSample rest v s).nack = s.nack := rfl
@[simp] theorem recordSample_rejected (rest : List PStep) (v : Bit) (s : State) : (recordSample rest v s).rejected = s.rejected := rfl
@[simp] theorem recordSample_illegal (rest : List PStep) (v : Bit) (s : State) : (recordSample rest v s).illegal = s.illegal := rfl
@[simp] theorem recordSample_unbound (rest : List PStep) (v : Bit) (s : State) : (recordSample rest v s).unbound = s.unbound := rfl
@[simp] theorem recordSample_ackO (rest : List PStep) (v : Bit) (s : State) : (recordSample rest v s).ackO = s.ackO := rfl
@[simp] theorem recordSample_done (rest : List PStep) (v : Bit) (s : State) : (recordSample rest v s).done = s.done := rfl
@[simp] theorem recordSample_trace (rest : List PStep) (v : Bit) (s : State) : (recordSample rest v s).trace = s.trace ++ [.s v] := rfl
@[simp] theorem recordSample_dec (rest : List PStep) (v : Bit) (s : State) : (recordSample rest v s).dec = s.dec := rfl
@[simp] theorem recordSample_delivered (rest : List PStep) (v : Bit) (s : State) : (recordSample rest v s).delivered = s.delivered := rfl
@[simp] theorem recordSample_rxInbox (rest : List PStep) (v : Bit) (s : State) : (recordSample rest v s).rxInbox = s.rxInbox := rfl
@[simp] theorem recordSample_rxAddr (rest : List PStep) (v : Bit) (s : State) : (recordSample rest v s).rxAddr = s.rxAddr := rfl
@[simp] theorem recordSample_receivers (rest : List PStep) (v : Bit) (s : State) : (recordSample rest v s).receivers = s.receivers := rfl
@[simp] theorem recordSample_receiver (rest : List PStep) (v : Bit) (s : State) : (recordSample rest v s).receiver = s.receiver := rfl
@[simp] theorem recordSample_hostMoves (rest : List PStep) (v : Bit) (s : State) : (recordSample rest v s).hostMoves = s.hostMoves := rfl
@[simp] theorem recordSample_rstIn (rest : List PStep) (v : Bit) (s : State) : (recordSample rest v s).rstIn = s.rstIn := rfl
@[simp] theorem recordSample_obs (rest : List PStep) (v : Bit) (s : State) : (recordSample rest v s).obs = s.obs + 1 := rfl
@[simp] theorem recordSample_cycles (rest : List PStep) (v : Bit) (s : State) : (recordSample rest v s).cycles = s.cycles + Config.overheadAt s.cycles s.aidx := rfl

/-! ### `recordBind` -/

@[simp] theorem recordBind_bound (c d : Word) (rest : List PStep) (s : State) : (recordBind c d rest s).bound = true := rfl
@[simp] theorem recordBind_clkSel (c d : Word) (rest : List PStep) (s : State) : (recordBind c d rest s).clkSel = c := rfl
@[simp] theorem recordBind_dioSel (c d : Word) (rest : List PStep) (s : State) : (recordBind c d rest s).dioSel = d := rfl
@[simp] theorem recordBind_lines (c d : Word) (rest : List PStep) (s : State) : (recordBind c d rest s).lines = undrive s.lines := rfl
@[simp] theorem recordBind_busy (c d : Word) (rest : List PStep) (s : State) : (recordBind c d rest s).busy = s.busy := rfl
@[simp] theorem recordBind_opL (c d : Word) (rest : List PStep) (s : State) : (recordBind c d rest s).opL = s.opL := rfl
@[simp] theorem recordBind_aL (c d : Word) (rest : List PStep) (s : State) : (recordBind c d rest s).aL = s.aL := rfl
@[simp] theorem recordBind_bL (c d : Word) (rest : List PStep) (s : State) : (recordBind c d rest s).bL = s.bL := rfl
@[simp] theorem recordBind_prog (c d : Word) (rest : List PStep) (s : State) : (recordBind c d rest s).prog = rest := rfl
@[simp] theorem recordBind_aidx (c d : Word) (rest : List PStep) (s : State) : (recordBind c d rest s).aidx = s.aidx + 1 := rfl
@[simp] theorem recordBind_waitCnt (c d : Word) (rest : List PStep) (s : State) : (recordBind c d rest s).waitCnt = s.waitCnt := rfl
@[simp] theorem recordBind_reqNack (c d : Word) (rest : List PStep) (s : State) : (recordBind c d rest s).reqNack = s.reqNack := rfl
@[simp] theorem recordBind_shreg (c d : Word) (rest : List PStep) (s : State) : (recordBind c d rest s).shreg = s.shreg := rfl
@[simp] theorem recordBind_bitcnt (c d : Word) (rest : List PStep) (s : State) : (recordBind c d rest s).bitcnt = s.bitcnt := rfl
@[simp] theorem recordBind_dig (c d : Word) (rest : List PStep) (s : State) : (recordBind c d rest s).dig = s.dig := rfl
@[simp] theorem recordBind_lastAck (c d : Word) (rest : List PStep) (s : State) : (recordBind c d rest s).lastAck = s.lastAck := rfl
@[simp] theorem recordBind_nack (c d : Word) (rest : List PStep) (s : State) : (recordBind c d rest s).nack = s.nack := rfl
@[simp] theorem recordBind_rejected (c d : Word) (rest : List PStep) (s : State) : (recordBind c d rest s).rejected = s.rejected := rfl
@[simp] theorem recordBind_illegal (c d : Word) (rest : List PStep) (s : State) : (recordBind c d rest s).illegal = s.illegal := rfl
@[simp] theorem recordBind_unbound (c d : Word) (rest : List PStep) (s : State) : (recordBind c d rest s).unbound = s.unbound := rfl
@[simp] theorem recordBind_ackO (c d : Word) (rest : List PStep) (s : State) : (recordBind c d rest s).ackO = s.ackO := rfl
@[simp] theorem recordBind_done (c d : Word) (rest : List PStep) (s : State) : (recordBind c d rest s).done = s.done := rfl
@[simp] theorem recordBind_trace (c d : Word) (rest : List PStep) (s : State) : (recordBind c d rest s).trace = s.trace ++ [.bind c d] := rfl
@[simp] theorem recordBind_dec (c d : Word) (rest : List PStep) (s : State) : (recordBind c d rest s).dec = Decoder.start := rfl
@[simp] theorem recordBind_delivered (c d : Word) (rest : List PStep) (s : State) : (recordBind c d rest s).delivered = s.delivered := rfl
@[simp] theorem recordBind_rxInbox (c d : Word) (rest : List PStep) (s : State) : (recordBind c d rest s).rxInbox = s.rxInbox := rfl
@[simp] theorem recordBind_rxAddr (c d : Word) (rest : List PStep) (s : State) : (recordBind c d rest s).rxAddr = s.rxAddr := rfl
@[simp] theorem recordBind_receivers (c d : Word) (rest : List PStep) (s : State) : (recordBind c d rest s).receivers = s.receivers := rfl
@[simp] theorem recordBind_receiver (c d : Word) (rest : List PStep) (s : State) : (recordBind c d rest s).receiver = s.receiver := rfl
@[simp] theorem recordBind_hostMoves (c d : Word) (rest : List PStep) (s : State) : (recordBind c d rest s).hostMoves = s.hostMoves := rfl
@[simp] theorem recordBind_rstIn (c d : Word) (rest : List PStep) (s : State) : (recordBind c d rest s).rstIn = s.rstIn := rfl
@[simp] theorem recordBind_obs (c d : Word) (rest : List PStep) (s : State) : (recordBind c d rest s).obs = s.obs := rfl
@[simp] theorem recordBind_cycles (c d : Word) (rest : List PStep) (s : State) : (recordBind c d rest s).cycles = s.cycles + Config.overheadAt s.cycles s.aidx := rfl

/-! ### `abandonTxn` -/

@[simp] theorem abandonTxn_bound (s : State) : (abandonTxn s).bound = s.bound := by
  unfold abandonTxn; split <;> rfl
@[simp] theorem abandonTxn_clkSel (s : State) : (abandonTxn s).clkSel = s.clkSel := by
  unfold abandonTxn; split <;> rfl
@[simp] theorem abandonTxn_dioSel (s : State) : (abandonTxn s).dioSel = s.dioSel := by
  unfold abandonTxn; split <;> rfl
@[simp] theorem abandonTxn_lines (s : State) : (abandonTxn s).lines = s.lines := by
  unfold abandonTxn; split <;> rfl
@[simp] theorem abandonTxn_busy (s : State) : (abandonTxn s).busy = s.busy := by
  unfold abandonTxn; split <;> rfl
@[simp] theorem abandonTxn_opL (s : State) : (abandonTxn s).opL = s.opL := by
  unfold abandonTxn; split <;> rfl
@[simp] theorem abandonTxn_aL (s : State) : (abandonTxn s).aL = s.aL := by
  unfold abandonTxn; split <;> rfl
@[simp] theorem abandonTxn_bL (s : State) : (abandonTxn s).bL = s.bL := by
  unfold abandonTxn; split <;> rfl
@[simp] theorem abandonTxn_prog (s : State) : (abandonTxn s).prog = s.prog := by
  unfold abandonTxn; split <;> rfl
@[simp] theorem abandonTxn_aidx (s : State) : (abandonTxn s).aidx = s.aidx := by
  unfold abandonTxn; split <;> rfl
@[simp] theorem abandonTxn_waitCnt (s : State) : (abandonTxn s).waitCnt = s.waitCnt := by
  unfold abandonTxn; split <;> rfl
@[simp] theorem abandonTxn_reqNack (s : State) : (abandonTxn s).reqNack = s.reqNack := by
  unfold abandonTxn; split <;> rfl
@[simp] theorem abandonTxn_shreg (s : State) : (abandonTxn s).shreg = s.shreg := by
  unfold abandonTxn; split <;> rfl
@[simp] theorem abandonTxn_bitcnt (s : State) : (abandonTxn s).bitcnt = s.bitcnt := by
  unfold abandonTxn; split <;> rfl
@[simp] theorem abandonTxn_dig (s : State) : (abandonTxn s).dig = s.dig := by
  unfold abandonTxn; split <;> rfl
@[simp] theorem abandonTxn_lastAck (s : State) : (abandonTxn s).lastAck = s.lastAck := by
  unfold abandonTxn; split <;> rfl
@[simp] theorem abandonTxn_nack (s : State) : (abandonTxn s).nack = s.nack := by
  unfold abandonTxn; split <;> rfl
@[simp] theorem abandonTxn_rejected (s : State) : (abandonTxn s).rejected = s.rejected := by
  unfold abandonTxn; split <;> rfl
@[simp] theorem abandonTxn_illegal (s : State) : (abandonTxn s).illegal = s.illegal := by
  unfold abandonTxn; split <;> rfl
@[simp] theorem abandonTxn_unbound (s : State) : (abandonTxn s).unbound = s.unbound := by
  unfold abandonTxn; split <;> rfl
@[simp] theorem abandonTxn_ackO (s : State) : (abandonTxn s).ackO = s.ackO := by
  unfold abandonTxn; split <;> rfl
@[simp] theorem abandonTxn_done (s : State) : (abandonTxn s).done = s.done := by
  unfold abandonTxn; split <;> rfl
@[simp] theorem abandonTxn_trace (s : State) : (abandonTxn s).trace = s.trace := by
  unfold abandonTxn; split <;> rfl
@[simp] theorem abandonTxn_dec (s : State) : (abandonTxn s).dec = s.dec := by
  unfold abandonTxn; split <;> rfl
@[simp] theorem abandonTxn_delivered (s : State) : (abandonTxn s).delivered = s.delivered := by
  unfold abandonTxn; split <;> rfl
@[simp] theorem abandonTxn_rxInbox (s : State) : (abandonTxn s).rxInbox = s.rxInbox := by
  unfold abandonTxn; split <;> rfl
@[simp] theorem abandonTxn_rxAddr (s : State) : (abandonTxn s).rxAddr = s.rxAddr := by
  unfold abandonTxn; split <;> rfl
@[simp] theorem abandonTxn_receiver (s : State) : (abandonTxn s).receiver = s.receiver := by
  unfold abandonTxn; split <;> rfl
@[simp] theorem abandonTxn_hostMoves (s : State) : (abandonTxn s).hostMoves = s.hostMoves := by
  unfold abandonTxn; split <;> rfl
@[simp] theorem abandonTxn_rstIn (s : State) : (abandonTxn s).rstIn = s.rstIn := by
  unfold abandonTxn; split <;> rfl
@[simp] theorem abandonTxn_obs (s : State) : (abandonTxn s).obs = s.obs := by
  unfold abandonTxn; split <;> rfl
@[simp] theorem abandonTxn_cycles (s : State) : (abandonTxn s).cycles = s.cycles := by
  unfold abandonTxn; split <;> rfl

/-! ### `reject` -/

@[simp] theorem reject_bound (s : State) (r : Reject) : (reject s r).bound = s.bound := by
  cases r <;> rfl
@[simp] theorem reject_clkSel (s : State) (r : Reject) : (reject s r).clkSel = s.clkSel := by
  cases r <;> rfl
@[simp] theorem reject_dioSel (s : State) (r : Reject) : (reject s r).dioSel = s.dioSel := by
  cases r <;> rfl
@[simp] theorem reject_lines (s : State) (r : Reject) : (reject s r).lines = s.lines := by
  cases r <;> rfl
@[simp] theorem reject_opL (s : State) (r : Reject) : (reject s r).opL = s.opL := by
  cases r <;> rfl
@[simp] theorem reject_aL (s : State) (r : Reject) : (reject s r).aL = s.aL := by
  cases r <;> rfl
@[simp] theorem reject_bL (s : State) (r : Reject) : (reject s r).bL = s.bL := by
  cases r <;> rfl
@[simp] theorem reject_waitCnt (s : State) (r : Reject) : (reject s r).waitCnt = s.waitCnt := by
  cases r <;> rfl
@[simp] theorem reject_shreg (s : State) (r : Reject) : (reject s r).shreg = s.shreg := by
  cases r <;> rfl
@[simp] theorem reject_bitcnt (s : State) (r : Reject) : (reject s r).bitcnt = s.bitcnt := by
  cases r <;> rfl
@[simp] theorem reject_dig (s : State) (r : Reject) : (reject s r).dig = s.dig := by
  cases r <;> rfl
@[simp] theorem reject_lastAck (s : State) (r : Reject) : (reject s r).lastAck = s.lastAck := by
  cases r <;> rfl
@[simp] theorem reject_ackO (s : State) (r : Reject) : (reject s r).ackO = s.ackO := by
  cases r <;> rfl
@[simp] theorem reject_trace (s : State) (r : Reject) : (reject s r).trace = s.trace := by
  cases r <;> rfl
@[simp] theorem reject_dec (s : State) (r : Reject) : (reject s r).dec = s.dec := by
  cases r <;> rfl
@[simp] theorem reject_delivered (s : State) (r : Reject) : (reject s r).delivered = s.delivered := by
  cases r <;> rfl
@[simp] theorem reject_rxInbox (s : State) (r : Reject) : (reject s r).rxInbox = s.rxInbox := by
  cases r <;> rfl
@[simp] theorem reject_rxAddr (s : State) (r : Reject) : (reject s r).rxAddr = s.rxAddr := by
  cases r <;> rfl
@[simp] theorem reject_receivers (s : State) (r : Reject) : (reject s r).receivers = s.receivers := by
  cases r <;> rfl
@[simp] theorem reject_receiver (s : State) (r : Reject) : (reject s r).receiver = s.receiver := by
  cases r <;> rfl
@[simp] theorem reject_hostMoves (s : State) (r : Reject) : (reject s r).hostMoves = s.hostMoves := by
  cases r <;> rfl
@[simp] theorem reject_rstIn (s : State) (r : Reject) : (reject s r).rstIn = s.rstIn := by
  cases r <;> rfl
@[simp] theorem reject_obs (s : State) (r : Reject) : (reject s r).obs = s.obs := by
  cases r <;> rfl
@[simp] theorem reject_cycles (s : State) (r : Reject) : (reject s r).cycles = s.cycles := by
  cases r <;> rfl
@[simp] theorem reject_busy (s : State) (r : Reject) : (reject s r).busy = true := by
  cases r <;> rfl
@[simp] theorem reject_nack (s : State) (r : Reject) : (reject s r).nack = false := by
  cases r <;> rfl
@[simp] theorem reject_reqNack (s : State) (r : Reject) : (reject s r).reqNack = false := by
  cases r <;> rfl
@[simp] theorem reject_aidx (s : State) (r : Reject) : (reject s r).aidx = 0 := by
  cases r <;> rfl
@[simp] theorem reject_prog (s : State) (r : Reject) : (reject s r).prog = [] := by
  cases r <;> rfl
@[simp] theorem reject_done (s : State) (r : Reject) : (reject s r).done = false := by
  cases r <;> rfl

/-! ### `acceptRequest` -/

@[simp] theorem acceptRequest_bound (s : State) (body : Except Reject (List PStep)) : (acceptRequest s body).bound = s.bound := by
  cases body with
  | ok l => rfl
  | error r => exact reject_bound s r
@[simp] theorem acceptRequest_clkSel (s : State) (body : Except Reject (List PStep)) : (acceptRequest s body).clkSel = s.clkSel := by
  cases body with
  | ok l => rfl
  | error r => exact reject_clkSel s r
@[simp] theorem acceptRequest_dioSel (s : State) (body : Except Reject (List PStep)) : (acceptRequest s body).dioSel = s.dioSel := by
  cases body with
  | ok l => rfl
  | error r => exact reject_dioSel s r
@[simp] theorem acceptRequest_lines (s : State) (body : Except Reject (List PStep)) : (acceptRequest s body).lines = s.lines := by
  cases body with
  | ok l => rfl
  | error r => exact reject_lines s r
@[simp] theorem acceptRequest_opL (s : State) (body : Except Reject (List PStep)) : (acceptRequest s body).opL = s.opL := by
  cases body with
  | ok l => rfl
  | error r => exact reject_opL s r
@[simp] theorem acceptRequest_aL (s : State) (body : Except Reject (List PStep)) : (acceptRequest s body).aL = s.aL := by
  cases body with
  | ok l => rfl
  | error r => exact reject_aL s r
@[simp] theorem acceptRequest_bL (s : State) (body : Except Reject (List PStep)) : (acceptRequest s body).bL = s.bL := by
  cases body with
  | ok l => rfl
  | error r => exact reject_bL s r
@[simp] theorem acceptRequest_waitCnt (s : State) (body : Except Reject (List PStep)) : (acceptRequest s body).waitCnt = s.waitCnt := by
  cases body with
  | ok l => rfl
  | error r => exact reject_waitCnt s r
@[simp] theorem acceptRequest_shreg (s : State) (body : Except Reject (List PStep)) : (acceptRequest s body).shreg = s.shreg := by
  cases body with
  | ok l => rfl
  | error r => exact reject_shreg s r
@[simp] theorem acceptRequest_bitcnt (s : State) (body : Except Reject (List PStep)) : (acceptRequest s body).bitcnt = s.bitcnt := by
  cases body with
  | ok l => rfl
  | error r => exact reject_bitcnt s r
@[simp] theorem acceptRequest_dig (s : State) (body : Except Reject (List PStep)) : (acceptRequest s body).dig = s.dig := by
  cases body with
  | ok l => rfl
  | error r => exact reject_dig s r
@[simp] theorem acceptRequest_lastAck (s : State) (body : Except Reject (List PStep)) : (acceptRequest s body).lastAck = s.lastAck := by
  cases body with
  | ok l => rfl
  | error r => exact reject_lastAck s r
@[simp] theorem acceptRequest_ackO (s : State) (body : Except Reject (List PStep)) : (acceptRequest s body).ackO = s.ackO := by
  cases body with
  | ok l => rfl
  | error r => exact reject_ackO s r
@[simp] theorem acceptRequest_trace (s : State) (body : Except Reject (List PStep)) : (acceptRequest s body).trace = s.trace := by
  cases body with
  | ok l => rfl
  | error r => exact reject_trace s r
@[simp] theorem acceptRequest_dec (s : State) (body : Except Reject (List PStep)) : (acceptRequest s body).dec = s.dec := by
  cases body with
  | ok l => rfl
  | error r => exact reject_dec s r
@[simp] theorem acceptRequest_delivered (s : State) (body : Except Reject (List PStep)) : (acceptRequest s body).delivered = s.delivered := by
  cases body with
  | ok l => rfl
  | error r => exact reject_delivered s r
@[simp] theorem acceptRequest_rxInbox (s : State) (body : Except Reject (List PStep)) : (acceptRequest s body).rxInbox = s.rxInbox := by
  cases body with
  | ok l => rfl
  | error r => exact reject_rxInbox s r
@[simp] theorem acceptRequest_rxAddr (s : State) (body : Except Reject (List PStep)) : (acceptRequest s body).rxAddr = s.rxAddr := by
  cases body with
  | ok l => rfl
  | error r => exact reject_rxAddr s r
@[simp] theorem acceptRequest_receivers (s : State) (body : Except Reject (List PStep)) : (acceptRequest s body).receivers = s.receivers := by
  cases body with
  | ok l => rfl
  | error r => exact reject_receivers s r
@[simp] theorem acceptRequest_receiver (s : State) (body : Except Reject (List PStep)) : (acceptRequest s body).receiver = s.receiver := by
  cases body with
  | ok l => rfl
  | error r => exact reject_receiver s r
@[simp] theorem acceptRequest_hostMoves (s : State) (body : Except Reject (List PStep)) : (acceptRequest s body).hostMoves = s.hostMoves := by
  cases body with
  | ok l => rfl
  | error r => exact reject_hostMoves s r
@[simp] theorem acceptRequest_rstIn (s : State) (body : Except Reject (List PStep)) : (acceptRequest s body).rstIn = s.rstIn := by
  cases body with
  | ok l => rfl
  | error r => exact reject_rstIn s r
@[simp] theorem acceptRequest_obs (s : State) (body : Except Reject (List PStep)) : (acceptRequest s body).obs = s.obs := by
  cases body with
  | ok l => rfl
  | error r => exact reject_obs s r
@[simp] theorem acceptRequest_cycles (s : State) (body : Except Reject (List PStep)) : (acceptRequest s body).cycles = s.cycles := by
  cases body with
  | ok l => rfl
  | error r => exact reject_cycles s r
@[simp] theorem acceptRequest_busy (s : State) (body : Except Reject (List PStep)) : (acceptRequest s body).busy = true := by
  cases body with
  | ok l => rfl
  | error r => exact reject_busy s r
@[simp] theorem acceptRequest_nack (s : State) (body : Except Reject (List PStep)) : (acceptRequest s body).nack = false := by
  cases body with
  | ok l => rfl
  | error r => exact reject_nack s r
@[simp] theorem acceptRequest_reqNack (s : State) (body : Except Reject (List PStep)) : (acceptRequest s body).reqNack = false := by
  cases body with
  | ok l => rfl
  | error r => exact reject_reqNack s r
@[simp] theorem acceptRequest_aidx (s : State) (body : Except Reject (List PStep)) : (acceptRequest s body).aidx = 0 := by
  cases body with
  | ok l => rfl
  | error r => exact reject_aidx s r
@[simp] theorem acceptRequest_done (s : State) (body : Except Reject (List PStep)) : (acceptRequest s body).done = false := by
  cases body with
  | ok l => rfl
  | error r => exact reject_done s r

/-! ### `applyUpdate` -/

@[simp] theorem applyUpdate_bound (s : State) (u : Update) : (applyUpdate s u).bound = s.bound := by
  cases u <;> rfl
@[simp] theorem applyUpdate_clkSel (s : State) (u : Update) : (applyUpdate s u).clkSel = s.clkSel := by
  cases u <;> rfl
@[simp] theorem applyUpdate_dioSel (s : State) (u : Update) : (applyUpdate s u).dioSel = s.dioSel := by
  cases u <;> rfl
@[simp] theorem applyUpdate_lines (s : State) (u : Update) : (applyUpdate s u).lines = s.lines := by
  cases u <;> rfl
@[simp] theorem applyUpdate_busy (s : State) (u : Update) : (applyUpdate s u).busy = s.busy := by
  cases u <;> rfl
@[simp] theorem applyUpdate_opL (s : State) (u : Update) : (applyUpdate s u).opL = s.opL := by
  cases u <;> rfl
@[simp] theorem applyUpdate_aL (s : State) (u : Update) : (applyUpdate s u).aL = s.aL := by
  cases u <;> rfl
@[simp] theorem applyUpdate_bL (s : State) (u : Update) : (applyUpdate s u).bL = s.bL := by
  cases u <;> rfl
@[simp] theorem applyUpdate_prog (s : State) (u : Update) : (applyUpdate s u).prog = s.prog := by
  cases u <;> rfl
@[simp] theorem applyUpdate_aidx (s : State) (u : Update) : (applyUpdate s u).aidx = s.aidx := by
  cases u <;> rfl
@[simp] theorem applyUpdate_waitCnt (s : State) (u : Update) : (applyUpdate s u).waitCnt = s.waitCnt := by
  cases u <;> rfl
@[simp] theorem applyUpdate_reqNack (s : State) (u : Update) : (applyUpdate s u).reqNack = s.reqNack := by
  cases u <;> rfl
@[simp] theorem applyUpdate_dig (s : State) (u : Update) : (applyUpdate s u).dig = s.dig := by
  cases u <;> rfl
@[simp] theorem applyUpdate_lastAck (s : State) (u : Update) : (applyUpdate s u).lastAck = s.lastAck := by
  cases u <;> rfl
@[simp] theorem applyUpdate_nack (s : State) (u : Update) : (applyUpdate s u).nack = s.nack := by
  cases u <;> rfl
@[simp] theorem applyUpdate_rejected (s : State) (u : Update) : (applyUpdate s u).rejected = s.rejected := by
  cases u <;> rfl
@[simp] theorem applyUpdate_illegal (s : State) (u : Update) : (applyUpdate s u).illegal = s.illegal := by
  cases u <;> rfl
@[simp] theorem applyUpdate_unbound (s : State) (u : Update) : (applyUpdate s u).unbound = s.unbound := by
  cases u <;> rfl
@[simp] theorem applyUpdate_done (s : State) (u : Update) : (applyUpdate s u).done = s.done := by
  cases u <;> rfl
@[simp] theorem applyUpdate_trace (s : State) (u : Update) : (applyUpdate s u).trace = s.trace := by
  cases u <;> rfl
@[simp] theorem applyUpdate_dec (s : State) (u : Update) : (applyUpdate s u).dec = s.dec := by
  cases u <;> rfl
@[simp] theorem applyUpdate_delivered (s : State) (u : Update) : (applyUpdate s u).delivered = s.delivered := by
  cases u <;> rfl
@[simp] theorem applyUpdate_rxInbox (s : State) (u : Update) : (applyUpdate s u).rxInbox = s.rxInbox := by
  cases u <;> rfl
@[simp] theorem applyUpdate_rxAddr (s : State) (u : Update) : (applyUpdate s u).rxAddr = s.rxAddr := by
  cases u <;> rfl
@[simp] theorem applyUpdate_receivers (s : State) (u : Update) : (applyUpdate s u).receivers = s.receivers := by
  cases u <;> rfl
@[simp] theorem applyUpdate_receiver (s : State) (u : Update) : (applyUpdate s u).receiver = s.receiver := by
  cases u <;> rfl
@[simp] theorem applyUpdate_hostMoves (s : State) (u : Update) : (applyUpdate s u).hostMoves = s.hostMoves := by
  cases u <;> rfl
@[simp] theorem applyUpdate_rstIn (s : State) (u : Update) : (applyUpdate s u).rstIn = s.rstIn := by
  cases u <;> rfl
@[simp] theorem applyUpdate_obs (s : State) (u : Update) : (applyUpdate s u).obs = s.obs := by
  cases u <;> rfl
@[simp] theorem applyUpdate_cycles (s : State) (u : Update) : (applyUpdate s u).cycles = s.cycles := by
  cases u <;> rfl

/-! ### `deliverFrame` -/

@[simp] theorem deliverFrame_bound (s : State) (f : Frame) : (deliverFrame s f).bound = s.bound := by
  unfold deliverFrame; split <;> rfl
@[simp] theorem deliverFrame_clkSel (s : State) (f : Frame) : (deliverFrame s f).clkSel = s.clkSel := by
  unfold deliverFrame; split <;> rfl
@[simp] theorem deliverFrame_dioSel (s : State) (f : Frame) : (deliverFrame s f).dioSel = s.dioSel := by
  unfold deliverFrame; split <;> rfl
@[simp] theorem deliverFrame_lines (s : State) (f : Frame) : (deliverFrame s f).lines = s.lines := by
  unfold deliverFrame; split <;> rfl
@[simp] theorem deliverFrame_busy (s : State) (f : Frame) : (deliverFrame s f).busy = s.busy := by
  unfold deliverFrame; split <;> rfl
@[simp] theorem deliverFrame_opL (s : State) (f : Frame) : (deliverFrame s f).opL = s.opL := by
  unfold deliverFrame; split <;> rfl
@[simp] theorem deliverFrame_aL (s : State) (f : Frame) : (deliverFrame s f).aL = s.aL := by
  unfold deliverFrame; split <;> rfl
@[simp] theorem deliverFrame_bL (s : State) (f : Frame) : (deliverFrame s f).bL = s.bL := by
  unfold deliverFrame; split <;> rfl
@[simp] theorem deliverFrame_prog (s : State) (f : Frame) : (deliverFrame s f).prog = s.prog := by
  unfold deliverFrame; split <;> rfl
@[simp] theorem deliverFrame_aidx (s : State) (f : Frame) : (deliverFrame s f).aidx = s.aidx := by
  unfold deliverFrame; split <;> rfl
@[simp] theorem deliverFrame_waitCnt (s : State) (f : Frame) : (deliverFrame s f).waitCnt = s.waitCnt := by
  unfold deliverFrame; split <;> rfl
@[simp] theorem deliverFrame_reqNack (s : State) (f : Frame) : (deliverFrame s f).reqNack = s.reqNack := by
  unfold deliverFrame; split <;> rfl
@[simp] theorem deliverFrame_shreg (s : State) (f : Frame) : (deliverFrame s f).shreg = s.shreg := by
  unfold deliverFrame; split <;> rfl
@[simp] theorem deliverFrame_bitcnt (s : State) (f : Frame) : (deliverFrame s f).bitcnt = s.bitcnt := by
  unfold deliverFrame; split <;> rfl
@[simp] theorem deliverFrame_dig (s : State) (f : Frame) : (deliverFrame s f).dig = s.dig := by
  unfold deliverFrame; split <;> rfl
@[simp] theorem deliverFrame_lastAck (s : State) (f : Frame) : (deliverFrame s f).lastAck = s.lastAck := by
  unfold deliverFrame; split <;> rfl
@[simp] theorem deliverFrame_nack (s : State) (f : Frame) : (deliverFrame s f).nack = s.nack := by
  unfold deliverFrame; split <;> rfl
@[simp] theorem deliverFrame_rejected (s : State) (f : Frame) : (deliverFrame s f).rejected = s.rejected := by
  unfold deliverFrame; split <;> rfl
@[simp] theorem deliverFrame_illegal (s : State) (f : Frame) : (deliverFrame s f).illegal = s.illegal := by
  unfold deliverFrame; split <;> rfl
@[simp] theorem deliverFrame_unbound (s : State) (f : Frame) : (deliverFrame s f).unbound = s.unbound := by
  unfold deliverFrame; split <;> rfl
@[simp] theorem deliverFrame_ackO (s : State) (f : Frame) : (deliverFrame s f).ackO = s.ackO := by
  unfold deliverFrame; split <;> rfl
@[simp] theorem deliverFrame_done (s : State) (f : Frame) : (deliverFrame s f).done = s.done := by
  unfold deliverFrame; split <;> rfl
@[simp] theorem deliverFrame_trace (s : State) (f : Frame) : (deliverFrame s f).trace = s.trace := by
  unfold deliverFrame; split <;> rfl
@[simp] theorem deliverFrame_dec (s : State) (f : Frame) : (deliverFrame s f).dec = s.dec := by
  unfold deliverFrame; split <;> rfl
@[simp] theorem deliverFrame_receiver (s : State) (f : Frame) : (deliverFrame s f).receiver = s.receiver := by
  unfold deliverFrame; split <;> rfl
@[simp] theorem deliverFrame_hostMoves (s : State) (f : Frame) : (deliverFrame s f).hostMoves = s.hostMoves := by
  unfold deliverFrame; split <;> rfl
@[simp] theorem deliverFrame_rstIn (s : State) (f : Frame) : (deliverFrame s f).rstIn = s.rstIn := by
  unfold deliverFrame; split <;> rfl
@[simp] theorem deliverFrame_obs (s : State) (f : Frame) : (deliverFrame s f).obs = s.obs := by
  unfold deliverFrame; split <;> rfl
@[simp] theorem deliverFrame_cycles (s : State) (f : Frame) : (deliverFrame s f).cycles = s.cycles := by
  unfold deliverFrame; split <;> rfl

/-! ### `busChange` -/

@[simp] theorem busChange_bound (s : State) (c v : Bit) : (busChange s c v).bound = s.bound := by
  unfold busChange
  split
  · rfl
  · exact deliverFrame_bound _ _
@[simp] theorem busChange_clkSel (s : State) (c v : Bit) : (busChange s c v).clkSel = s.clkSel := by
  unfold busChange
  split
  · rfl
  · exact deliverFrame_clkSel _ _
@[simp] theorem busChange_dioSel (s : State) (c v : Bit) : (busChange s c v).dioSel = s.dioSel := by
  unfold busChange
  split
  · rfl
  · exact deliverFrame_dioSel _ _
@[simp] theorem busChange_lines (s : State) (c v : Bit) : (busChange s c v).lines = s.lines := by
  unfold busChange
  split
  · rfl
  · exact deliverFrame_lines _ _
@[simp] theorem busChange_busy (s : State) (c v : Bit) : (busChange s c v).busy = s.busy := by
  unfold busChange
  split
  · rfl
  · exact deliverFrame_busy _ _
@[simp] theorem busChange_opL (s : State) (c v : Bit) : (busChange s c v).opL = s.opL := by
  unfold busChange
  split
  · rfl
  · exact deliverFrame_opL _ _
@[simp] theorem busChange_aL (s : State) (c v : Bit) : (busChange s c v).aL = s.aL := by
  unfold busChange
  split
  · rfl
  · exact deliverFrame_aL _ _
@[simp] theorem busChange_bL (s : State) (c v : Bit) : (busChange s c v).bL = s.bL := by
  unfold busChange
  split
  · rfl
  · exact deliverFrame_bL _ _
@[simp] theorem busChange_prog (s : State) (c v : Bit) : (busChange s c v).prog = s.prog := by
  unfold busChange
  split
  · rfl
  · exact deliverFrame_prog _ _
@[simp] theorem busChange_aidx (s : State) (c v : Bit) : (busChange s c v).aidx = s.aidx := by
  unfold busChange
  split
  · rfl
  · exact deliverFrame_aidx _ _
@[simp] theorem busChange_waitCnt (s : State) (c v : Bit) : (busChange s c v).waitCnt = s.waitCnt := by
  unfold busChange
  split
  · rfl
  · exact deliverFrame_waitCnt _ _
@[simp] theorem busChange_reqNack (s : State) (c v : Bit) : (busChange s c v).reqNack = s.reqNack := by
  unfold busChange
  split
  · rfl
  · exact deliverFrame_reqNack _ _
@[simp] theorem busChange_shreg (s : State) (c v : Bit) : (busChange s c v).shreg = s.shreg := by
  unfold busChange
  split
  · rfl
  · exact deliverFrame_shreg _ _
@[simp] theorem busChange_bitcnt (s : State) (c v : Bit) : (busChange s c v).bitcnt = s.bitcnt := by
  unfold busChange
  split
  · rfl
  · exact deliverFrame_bitcnt _ _
@[simp] theorem busChange_dig (s : State) (c v : Bit) : (busChange s c v).dig = s.dig := by
  unfold busChange
  split
  · rfl
  · exact deliverFrame_dig _ _
@[simp] theorem busChange_lastAck (s : State) (c v : Bit) : (busChange s c v).lastAck = s.lastAck := by
  unfold busChange
  split
  · rfl
  · exact deliverFrame_lastAck _ _
@[simp] theorem busChange_nack (s : State) (c v : Bit) : (busChange s c v).nack = s.nack := by
  unfold busChange
  split
  · rfl
  · exact deliverFrame_nack _ _
@[simp] theorem busChange_rejected (s : State) (c v : Bit) : (busChange s c v).rejected = s.rejected := by
  unfold busChange
  split
  · rfl
  · exact deliverFrame_rejected _ _
@[simp] theorem busChange_illegal (s : State) (c v : Bit) : (busChange s c v).illegal = s.illegal := by
  unfold busChange
  split
  · rfl
  · exact deliverFrame_illegal _ _
@[simp] theorem busChange_unbound (s : State) (c v : Bit) : (busChange s c v).unbound = s.unbound := by
  unfold busChange
  split
  · rfl
  · exact deliverFrame_unbound _ _
@[simp] theorem busChange_ackO (s : State) (c v : Bit) : (busChange s c v).ackO = s.ackO := by
  unfold busChange
  split
  · rfl
  · exact deliverFrame_ackO _ _
@[simp] theorem busChange_done (s : State) (c v : Bit) : (busChange s c v).done = s.done := by
  unfold busChange
  split
  · rfl
  · exact deliverFrame_done _ _
@[simp] theorem busChange_trace (s : State) (c v : Bit) : (busChange s c v).trace = s.trace := by
  unfold busChange
  split
  · rfl
  · exact deliverFrame_trace _ _
@[simp] theorem busChange_receiver (s : State) (c v : Bit) : (busChange s c v).receiver = s.receiver := by
  unfold busChange
  split
  · rfl
  · exact deliverFrame_receiver _ _
@[simp] theorem busChange_hostMoves (s : State) (c v : Bit) : (busChange s c v).hostMoves = s.hostMoves := by
  unfold busChange
  split
  · rfl
  · exact deliverFrame_hostMoves _ _
@[simp] theorem busChange_rstIn (s : State) (c v : Bit) : (busChange s c v).rstIn = s.rstIn := by
  unfold busChange
  split
  · rfl
  · exact deliverFrame_rstIn _ _
@[simp] theorem busChange_obs (s : State) (c v : Bit) : (busChange s c v).obs = s.obs := by
  unfold busChange
  split
  · rfl
  · exact deliverFrame_obs _ _
@[simp] theorem busChange_cycles (s : State) (c v : Bit) : (busChange s c v).cycles = s.cycles := by
  unfold busChange
  split
  · rfl
  · exact deliverFrame_cycles _ _

@[simp] theorem acceptRequest_ok (s : State) (l : List PStep) : acceptRequest s (.ok l) = loadList s l := rfl

@[simp] theorem acceptRequest_error (s : State) (r : Reject) : acceptRequest s (.error r) = reject s r := rfl

@[simp] theorem busChange_decoder (s : State) (c v : Bit) : (busChange s c v).dec = (decodePair s.dec c v).1 := by
  unfold busChange
  split
  · rfl
  · unfold deliverFrame
    split <;> rfl

@[simp] theorem andThen_next (s : State) (f : State → Result) : andThen (.next s) f = f s := rfl

@[simp] theorem andThen_fault (e : Fault) (f : State → Result) : andThen (.fault e) f = .fault e := rfl

@[simp] theorem andThen_refused (e : Refusal) (f : State → Result) : andThen (.refused e) f = .refused e := rfl

theorem andThen_assoc (r : Result) (f g : State → Result) :
    andThen (andThen r f) g = andThen r (fun s => andThen (f s) g) := by
  cases r <;> rfl

end Sys2Proof.Laws
end

