-- ==== Sys2Proof/Laws/Receivers.lean ====
section
/-! SUPPORT. The laws of the receivers' store: a read after a write to the same pair gives what was written, a write
leaves every other pair alone, and every write keeps the canonical form. -/

namespace Sys2Proof.Laws

open Sys2Proof.Machine

theorem pairKey_injective {p q : LinePair} (h : pairKey p = pairKey q) : p = q := by
  obtain ⟨pc, pd⟩ := p
  obtain ⟨qc, qd⟩ := q
  have h1 := pc.isLt
  have h2 := pd.isLt
  have h3 := qc.isLt
  have h4 := qd.isLt
  simp only [pairKey] at h
  have hc : pc.toNat = qc.toNat := by omega
  have hd : pd.toNat = qd.toNat := by omega
  rw [BitVec.eq_of_toNat_eq hc, BitVec.eq_of_toNat_eq hd]

theorem receiversWf_cons {q : LinePair} {x : Rx} {m : Receivers} :
    receiversWf ((q, x) :: m) = true ↔
      x ≠ Rx.top ∧ (∀ e ∈ m, pairKey q < pairKey e.1) ∧ receiversWf m = true := by
  simp [receiversWf, and_assoc]

theorem lookupRx_eq_top {m : Receivers} {p : LinePair} (h : ∀ e ∈ m, e.1 ≠ p) : lookupRx m p = Rx.top := by
  induction m with
  | nil => rfl
  | cons e m ih =>
    obtain ⟨q, x⟩ := e
    have hq : q ≠ p := h (q, x) (by simp)
    simp only [lookupRx, hq, if_false]
    exact ih (fun e he => h e (by simp [he]))

theorem mem_storeRx {m : Receivers} {p : LinePair} {r : Rx} {e : LinePair × Rx} (h : e ∈ storeRx m p r) :
    e ∈ m ∨ (e = (p, r) ∧ r ≠ Rx.top) := by
  induction m with
  | nil =>
    by_cases hr : r = Rx.top
    · simp [storeRx, hr] at h
    · simp only [storeRx, if_neg hr, List.mem_singleton] at h
      exact .inr ⟨h, hr⟩
  | cons e' m ih =>
    obtain ⟨q, x⟩ := e'
    simp only [storeRx] at h
    split at h
    · split at h
      · exact .inl h
      · rename_i hr
        rcases List.mem_cons.1 h with h | h
        · exact .inr ⟨h, hr⟩
        · exact .inl h
    · split at h
      · split at h
        · exact .inl (by simp [h])
        · rename_i hr
          rcases List.mem_cons.1 h with h | h
          · exact .inr ⟨h, hr⟩
          · exact .inl (by simp [h])
      · rcases List.mem_cons.1 h with h | h
        · exact .inl (by simp [h])
        · rcases ih h with h | h
          · exact .inl (by simp [h])
          · exact .inr h

/-- Every write keeps the canonical form. -/
theorem receiversWf_storeRx {m : Receivers} (h : receiversWf m = true) (p : LinePair) (r : Rx) :
    receiversWf (storeRx m p r) = true := by
  induction m with
  | nil =>
    by_cases hr : r = Rx.top
    · simp [storeRx, hr, receiversWf]
    · simp [storeRx, hr, receiversWf]
  | cons e m ih =>
    obtain ⟨q, x⟩ := e
    obtain ⟨hx, hlt, hm⟩ := receiversWf_cons.1 h
    simp only [storeRx]
    split
    · rename_i hpq
      split
      · exact h
      · rename_i hr
        refine receiversWf_cons.2 ⟨hr, ?_, h⟩
        intro e he
        rcases List.mem_cons.1 he with rfl | he
        · exact hpq
        · exact lt_trans hpq (hlt e he)
    · rename_i hpq
      split
      · rename_i hqp
        subst hqp
        split
        · exact hm
        · rename_i hr
          exact receiversWf_cons.2 ⟨hr, hlt, hm⟩
      · rename_i hqp
        refine receiversWf_cons.2 ⟨hx, ?_, ih hm⟩
        intro e he
        rcases mem_storeRx he with he | ⟨rfl, -⟩
        · exact hlt e he
        · have : pairKey q ≠ pairKey p := fun hk => hqp (pairKey_injective hk)
          dsimp only
          omega

/-- A read after a write to the same pair. -/
theorem lookupRx_storeRx_self {m : Receivers} (h : receiversWf m = true) (p : LinePair) (r : Rx) :
    lookupRx (storeRx m p r) p = r := by
  induction m with
  | nil =>
    by_cases hr : r = Rx.top
    · simp [storeRx, hr, lookupRx]
    · simp [storeRx, hr, lookupRx]
  | cons e m ih =>
    obtain ⟨q, x⟩ := e
    obtain ⟨-, hlt, hm⟩ := receiversWf_cons.1 h
    simp only [storeRx]
    split
    · rename_i hpq
      split
      · rename_i hr
        rw [hr]
        apply lookupRx_eq_top
        intro e he hp
        rcases List.mem_cons.1 he with rfl | he
        · change q = p at hp
          rw [hp] at hpq
          exact lt_irrefl _ hpq
        · have := hlt e he
          rw [hp] at this
          omega
      · simp [lookupRx]
    · split
      · rename_i hqp
        subst hqp
        split
        · rename_i hr
          rw [hr]
          apply lookupRx_eq_top
          intro e he hp
          have := hlt e he
          rw [hp] at this
          exact lt_irrefl _ this
        · simp [lookupRx]
      · rename_i hqp
        simp only [lookupRx, if_neg hqp]
        exact ih hm

/-- A write leaves every other pair alone. -/
theorem lookupRx_storeRx_other {m : Receivers} {p q : LinePair} (r : Rx) (hne : q ≠ p) :
    lookupRx (storeRx m p r) q = lookupRx m q := by
  induction m with
  | nil =>
    by_cases hr : r = Rx.top
    · simp [storeRx, hr]
    · simp [storeRx, hr, lookupRx, hne.symm]
  | cons e m ih =>
    obtain ⟨k, x⟩ := e
    simp only [storeRx]
    split
    · split
      · rfl
      · simp [lookupRx, hne.symm]
    · split
      · rename_i hkp
        subst hkp
        split
        · simp [lookupRx, hne.symm]
        · simp [lookupRx, hne.symm]
      · simp only [lookupRx, ih]

/-- A read of the bound pair after a write to it. -/
theorem rxOf_setRx {s : State} (h : receiversWf s.receivers = true) (r : Rx) : rxOf (setRx s r) = r :=
  lookupRx_storeRx_self h _ r

end Sys2Proof.Laws
end

