-- ==== Sys2Proof/Laws/Steps.lean ====
section
/-! SUPPORT. What each step operation can do, said once: an observation, the receiver taking a frame, one entry of a list
with its wait, a whole list. -/

namespace Sys2Proof.Laws

open Sys2Proof.Machine

/-! ### Observations -/

/-- A receiver that keeps 42 R176 never faults an observation. -/
theorem observeDio_calm {s : State} (h : s.receiver ≠ .rogue) (l : Lines) (rest : List PStep) :
    observeDio s l rest = .ok (if l.dioOe then l.dioLatch else releasedLevel s rest) := by
  unfold observeDio
  cases hr : s.receiver <;> simp_all

/-- The level that a line action leaves on DIO, for a receiver that keeps 42 R176. -/
def levelAfter (a : LineAction) (rest : List PStep) (s : State) : Bit :=
  if (applyAction a s.lines).dioOe then (applyAction a s.lines).dioLatch else releasedLevel s rest

/-- The state a line action leaves, before its wait, when DIO reads `v`. -/
def afterAct (a : LineAction) (rest : List PStep) (v : Bit) (s : State) : State :=
  busChange (recordAct a rest v s) (clkBus (applyAction a s.lines) s.obs) v

/-- A line action ends in its event or in the fault of an observation. -/
theorem actStep_eq (a : LineAction) (rest : List PStep) (s : State) :
    actStep a rest s =
      match observeDio s (applyAction a s.lines) rest with
      | .error f => .fault f
      | .ok v => .next (afterAct a rest v s) := rfl

theorem actStep_calm {s : State} (h : s.receiver ≠ .rogue) (a : LineAction) (rest : List PStep) :
    actStep a rest s = .next (afterAct a rest (levelAfter a rest s) s) := by
  rw [actStep_eq, observeDio_calm h]
  rfl

/-- The level a sample reads, for a receiver that keeps 42 R176. -/
def sampleLevel (rest : List PStep) (s : State) : Bit :=
  if s.lines.dioOe then s.lines.dioLatch else releasedLevel s rest

theorem sampleStep_calm {s : State} (h : s.receiver ≠ .rogue) (rest : List PStep) :
    sampleStep rest s = .next (recordSample rest (sampleLevel rest s) s) := by
  unfold sampleStep
  rw [observeDio_calm h]
  rfl

/-! ### The bus and the decoder -/

/-- The bus change of an action: the decoder's step, and the delivery of its frame. -/
theorem busChange_cases (s : State) (c v : Bit) :
    ((decodePair s.dec c v).2 = none ∧ busChange s c v = setDecoder s (decodePair s.dec c v).1) ∨
      ∃ f, (decodePair s.dec c v).2 = some f ∧
        busChange s c v = deliverFrame (setDecoder s (decodePair s.dec c v).1) f := by
  unfold busChange
  split
  · rename_i h
    exact .inl ⟨h, rfl⟩
  · rename_i f h
    exact .inr ⟨f, h, rfl⟩

/-- A delivered frame either waits to be taken or makes the receiver unknown (42 R186). -/
theorem deliverFrame_cases (s : State) (f : Frame) :
    (f.complete = true ∧ f.acked = true ∧ f.bytes ≠ [] ∧
      deliverFrame s f = openFrame (recordFrame s f) f.bytes) ∨
    ((f.complete && f.acked && !f.bytes.isEmpty) = false ∧ deliverFrame s f = setRx (recordFrame s f) Rx.top) := by
  unfold deliverFrame
  split
  · rename_i h
    simp only [Bool.and_eq_true, Bool.not_eq_true', List.isEmpty_eq_false_iff] at h
    exact .inl ⟨h.1.1, h.1.2, h.2, rfl⟩
  · rename_i h
    exact .inr ⟨by simpa using h, rfl⟩

@[simp] theorem deliverFrame_delivered (s : State) (f : Frame) : (deliverFrame s f).delivered = s.delivered ++ [f] := by
  rcases deliverFrame_cases s f with ⟨-, -, -, e⟩ | ⟨-, e⟩ <;> simp [e]

@[simp] theorem busChange_delivered (s : State) (c v : Bit) :
    (busChange s c v).delivered = s.delivered ++ (decodePair s.dec c v).2.toList := by
  rcases busChange_cases s c v with ⟨h, e⟩ | ⟨f, h, e⟩ <;> simp [h, e]

theorem commitBit_phase (d : Decoder) (c : Bit) : (commitBit d c).phase = d.phase := by
  unfold commitBit
  split
  · rfl
  · split <;> rfl

theorem clkEdge_phase (d : Decoder) (c0 c v : Bit) : (clkEdge d c0 c v).phase = d.phase := by
  unfold clkEdge
  split
  · rfl
  · split
    · rfl
    · exact commitBit_phase _ _
  · rfl

theorem commitBit_bits {d : Decoder} (h : d.bits.length ≤ 8) (c : Bit) : (commitBit d c).bits.length ≤ 8 := by
  unfold commitBit
  split
  · exact h
  · split
    · simp; omega
    · simp

theorem clkEdge_bits {d : Decoder} (h : d.bits.length ≤ 8) (c0 c v : Bit) : (clkEdge d c0 c v).bits.length ≤ 8 := by
  unfold clkEdge
  split
  · exact h
  · split
    · exact h
    · exact commitBit_bits h _
  · exact h

theorem dioEdge_bits {d : Decoder} (h : d.bits.length ≤ 8) (c v0 v : Bit) : (dioEdge d c v0 v).1.bits.length ≤ 8 := by
  unfold dioEdge
  split
  · exact h
  · split
    · split
      · exact h
      · simp [startCondition]
    · exact h

/-- The decoder never holds more than eight bits (42 R171). -/
theorem decodePair_bits {d : Decoder} (h : d.bits.length ≤ 8) (c v : Bit) :
    (decodePair d c v).1.bits.length ≤ 8 := by
  unfold decodePair
  split
  · exact h
  · exact clkEdge_bits (dioEdge_bits h _ _ _) _ _ _

@[simp] theorem decodePair_prev (d : Decoder) (c v : Bit) : (decodePair d c v).1.prev = some (c, v) := by
  unfold decodePair
  split <;> rfl

/-! ### Bus bytes -/

/-- A bus byte ends in the receiver's new state, or addresses a position (42 R182 to R186). -/
theorem exec_busByte {i : Instr} (h : isRequest i = false) (s : State) :
    (∃ r, exec i s = .next (finishFrame s r)) ∨
      ∃ p, i = .addr p ∧ (frameRest s).length = 1 ∧ exec i s = .next (addressPosition s p) := by
  have one : ∀ r, ∃ r', oneByteFrame s r = finishFrame s r' := by
    intro r
    unfold oneByteFrame undefinedFrame
    split
    · exact ⟨r, rfl⟩
    · exact ⟨Rx.top, rfl⟩
  cases i <;> simp only [isRequest, Bool.true_eq_false] at h
  · obtain ⟨r, hr⟩ := one { rxOf s with mode := some .auto }
    exact .inl ⟨r, by rw [← hr]; rfl⟩
  · obtain ⟨r, hr⟩ := one { rxOf s with mode := some .fixed }
    exact .inl ⟨r, by rw [← hr]; rfl⟩
  · rename_i p
    by_cases hc : (frameRest s).length = 1 ∧ (rxOf s).mode = some .fixed
    · exact .inr ⟨p, rfl, hc.1, by simp [exec, execAddr, hc]⟩
    · exact .inl ⟨Rx.top, by simp only [exec, execAddr, if_neg hc]; rfl⟩
  · rename_i l
    obtain ⟨r, hr⟩ := one { rxOf s with ctrl := some { on := true, level := l } }
    exact .inl ⟨r, by rw [← hr]; rfl⟩
  · rename_i pat
    cases ha : s.rxAddr with
    | none => exact .inl ⟨Rx.top, by simp only [exec, execSegmentData, ha]; rfl⟩
    | some p =>
      obtain ⟨r, hr⟩ := one (setDisp (rxOf s) p pat)
      exact .inl ⟨r, by simp only [exec, execSegmentData, ha, hr]⟩

/-- What decodes as a bus byte is no request. -/
theorem decode_bus_isRequest {b : Byte} {i : Instr} (h : decode (.command b) = .ok i ∨ decode (.data b) = .ok i) :
    isRequest i = false := by
  rcases h with h | h
  · simp only [decode, decodeCommand] at h
    split at h
    · cases h; rfl
    · split at h
      · cases h; rfl
      · split at h
        · cases h; rfl
        · split at h
          · cases h; rfl
          · cases h
  · simp only [decode, Except.ok.injEq] at h
    subst h
    rfl

@[simp] theorem finishFrame_takeByte (s : State) (rest : List Byte) (r : Rx) :
    finishFrame (takeByte s rest) r = finishFrame s r := rfl

@[simp] theorem finishFrame_addressPosition (s : State) (p : BitVec 2) (r : Rx) :
    finishFrame (addressPosition s p) r = finishFrame s r := rfl

@[simp] theorem takeFrame_none {s : State} (h : s.rxInbox = none) (k : Nat) : takeFrame k s = .next s := by
  cases k with
  | zero => rfl
  | succ k => simp only [takeFrame, h]

theorem takeFrame_finished (k : Nat) (s : State) (r : Rx) :
    takeFrame k (finishFrame s r) = .next (finishFrame s r) := takeFrame_none rfl k

/-- What the receiver does with the next byte of a frame: its reading is done, or a position is addressed. -/
theorem fetchBusByte_cases (s : State) (bytes : List Byte) :
    (∃ r, fetchBusByte s bytes = .go (.next (finishFrame s r))) ∨
    (∃ i b rest r, bytes = b :: rest ∧ isRequest i = false ∧ fetchBusByte s bytes = .instr i (takeByte s rest) ∧
      exec i (takeByte s rest) = .next (finishFrame s r)) ∨
    (s.rxAddr = none ∧ ∃ p b b', bytes = [b, b'] ∧ fetchBusByte s bytes = .instr (.addr p) (takeByte s [b']) ∧
      exec (.addr p) (takeByte s [b']) = .next (addressPosition (takeByte s [b']) p)) := by
  cases bytes with
  | nil => exact .inl ⟨Rx.top, rfl⟩
  | cons b rest =>
    cases ha : s.rxAddr with
    | some p =>
      refine .inr (.inl ?_)
      rcases exec_busByte (i := .segmentData b) rfl (takeByte s rest) with ⟨r, hr⟩ | ⟨q, hq, -⟩
      · exact ⟨.segmentData b, b, rest, r, rfl, rfl, by simp [fetchBusByte, ha, decode], by simpa using hr⟩
      · cases hq
    | none =>
      cases hd : decode (.command b) with
      | error e => exact .inl ⟨Rx.top, by simp only [fetchBusByte, ha, hd]; rfl⟩
      | ok i =>
        have hi := decode_bus_isRequest (.inl hd)
        have hf : fetchBusByte s (b :: rest) = .instr i (takeByte s rest) := by simp only [fetchBusByte, ha, hd]
        rcases exec_busByte hi (takeByte s rest) with ⟨r, hr⟩ | ⟨p, rfl, hl, hx⟩
        · exact .inr (.inl ⟨i, b, rest, r, rfl, hi, hf, by simpa using hr⟩)
        · refine .inr (.inr ⟨rfl, p, b, ?_⟩)
          simp only [frameRest, takeByte_rxInbox, Option.getD_some, List.length_eq_one_iff] at hl
          obtain ⟨b', rfl⟩ := hl
          exact ⟨b', rfl, hf, hx⟩

/-- The receiver takes a waiting frame in at most two steps: all that changes is its own state. -/
theorem takeFrame_some {s : State} {bytes : List Byte} (h : s.rxInbox = some bytes) :
    ∃ r, takeFrame 2 s = .next (finishFrame s r) := by
  unfold takeFrame
  rw [h]
  dsimp only
  rcases fetchBusByte_cases s bytes with ⟨r, hr⟩ | ⟨i, b, rest, r, -, -, hf, hx⟩ | ⟨ha, p, b, b', rfl, hf, hx⟩
  · exact ⟨r, by rw [hr]; simp only [andThen_next, takeFrame_finished]⟩
  · exact ⟨r, by rw [hf]; simp only [hx, andThen_next, takeFrame_finished]⟩
  · rw [hf]
    simp only [hx, andThen_next]
    unfold takeFrame
    simp only [addressPosition_rxInbox, takeByte_rxInbox]
    rcases fetchBusByte_cases (addressPosition (takeByte s [b']) p) [b'] with
      ⟨r, hr⟩ | ⟨i, c, rest, r, -, -, hf', hx'⟩ | ⟨ha', -⟩
    · exact ⟨r, by rw [hr]; simp [takeFrame]⟩
    · exact ⟨r, by rw [hf']; simp only [hx', andThen_next, takeFrame]; rfl⟩
    · simp at ha'

/-! ### One entry with its wait -/

/-- What no line action, wait or taken frame changes. -/
structure Same (s u : State) : Prop where
  bound : u.bound = s.bound
  clkSel : u.clkSel = s.clkSel
  dioSel : u.dioSel = s.dioSel
  busy : u.busy = s.busy
  opL : u.opL = s.opL
  aL : u.aL = s.aL
  bL : u.bL = s.bL
  reqNack : u.reqNack = s.reqNack
  shreg : u.shreg = s.shreg
  bitcnt : u.bitcnt = s.bitcnt
  dig : u.dig = s.dig
  lastAck : u.lastAck = s.lastAck
  nack : u.nack = s.nack
  rejected : u.rejected = s.rejected
  illegal : u.illegal = s.illegal
  unbound : u.unbound = s.unbound
  ackO : u.ackO = s.ackO
  done : u.done = s.done
  receiver : u.receiver = s.receiver
  hostMoves : u.hostMoves = s.hostMoves
  rstIn : u.rstIn = s.rstIn

/-- A line action with its wait and whatever the receiver takes. The receivers' store changes at the bound pair only, and
only when a frame is delivered. -/
structure ActDone (a : LineAction) (rest : List PStep) (s u : State) : Prop where
  same : Same s u
  lines : u.lines = applyAction a s.lines
  prog : u.prog = rest
  aidx : u.aidx = s.aidx + 2
  waitCnt : u.waitCnt = 0
  obs : u.obs = s.obs + 1
  cycles : u.cycles = s.cycles + Config.overheadAt s.cycles s.aidx + Config.settleCycles
  trace : u.trace =
    s.trace ++ [.ev a (clkBus (applyAction a s.lines) s.obs) (levelAfter a rest s), .w]
  dec : u.dec = (decodePair s.dec (clkBus (applyAction a s.lines) s.obs) (levelAfter a rest s)).1
  delivered : u.delivered =
    s.delivered ++ (decodePair s.dec (clkBus (applyAction a s.lines) s.obs) (levelAfter a rest s)).2.toList
  inbox : u.rxInbox = none
  addr : s.rxAddr = none → u.rxAddr = none
  receivers : u.receivers = s.receivers ∨ ∃ r, u.receivers = storeRx s.receivers (boundPair s) r
  quiet : (decodePair s.dec (clkBus (applyAction a s.lines) s.obs) (levelAfter a rest s)).2 = none →
    u.receivers = s.receivers

theorem wholeEntry_act {s : State} (h : calm s) (a : LineAction) (rest : List PStep) :
    ∃ u, wholeEntry (.act a) rest s = .next u ∧ ActDone a rest s u := by
  obtain ⟨hin, hrog⟩ := h
  simp only [wholeEntry, actStep_calm hrog, andThen_next, afterAct]
  generalize hv : levelAfter a rest s = v
  generalize hc : clkBus (applyAction a s.lines) s.obs = c
  have key : ∃ t, takeFrame 2 (busChange (recordAct a rest v s) c v) = .next t ∧
      (t = busChange (recordAct a rest v s) c v ∧ t.rxInbox = none ∨
        ∃ r, t = finishFrame (busChange (recordAct a rest v s) c v) r) := by
    cases hb : (busChange (recordAct a rest v s) c v).rxInbox with
    | none => exact ⟨_, takeFrame_none hb 2, .inl ⟨rfl, hb⟩⟩
    | some bytes =>
      obtain ⟨r, hr⟩ := takeFrame_some hb
      exact ⟨_, hr, .inr ⟨r, rfl⟩⟩
  obtain ⟨t, ht, hcase⟩ := key
  have hlines : (busChange (recordAct a rest v s) c v).lines = applyAction a s.lines := by simp
  have hstore : (busChange (recordAct a rest v s) c v).receivers = s.receivers ∨
      ((decodePair s.dec c v).2 ≠ none ∧ (busChange (recordAct a rest v s) c v).receivers =
        storeRx s.receivers (boundPair s) Rx.top ∧ (busChange (recordAct a rest v s) c v).rxInbox = none) := by
    rcases busChange_cases (recordAct a rest v s) c v with ⟨-, e⟩ | ⟨f, hf, e⟩
    · exact .inl (by rw [e]; rfl)
    · rcases deliverFrame_cases (setDecoder (recordAct a rest v s) (decodePair (recordAct a rest v s).dec c v).1) f with
        ⟨-, -, -, e'⟩ | ⟨-, e'⟩
      · exact .inl (by rw [e, e']; rfl)
      · refine .inr ⟨?_, by rw [e, e']; rfl, by rw [e, e']; simpa using hin⟩
        simp only [recordAct_dec] at hf
        simp [hf]
  have hquiet : (decodePair s.dec c v).2 = none →
      busChange (recordAct a rest v s) c v = setDecoder (recordAct a rest v s) (decodePair s.dec c v).1 := by
    intro hn
    rcases busChange_cases (recordAct a rest v s) c v with ⟨-, e⟩ | ⟨f, hf, -⟩
    · exact e
    · simp only [recordAct_dec, hn, reduceCtorEq] at hf
  rw [ht, andThen_next]
  rcases hcase with ⟨rfl, hnone⟩ | ⟨r, rfl⟩
  · refine ⟨_, rfl, ?_⟩
    constructor
    · constructor <;> simp
    all_goals first | (simp [hv, hc]; done) | skip
    · exact hnone
    · intro hx
      rcases busChange_cases (recordAct a rest v s) c v with ⟨-, e⟩ | ⟨f, hf, e⟩
      · simpa [e] using hx
      · rcases deliverFrame_cases (setDecoder (recordAct a rest v s) (decodePair (recordAct a rest v s).dec c v).1) f with
          ⟨-, -, -, e'⟩ | ⟨-, e'⟩ <;> (rw [recordWait_rxAddr, e, e']; simp [hx])
    · rcases hstore with h | ⟨-, h, -⟩
      · exact .inl (by simpa using h)
      · exact .inr ⟨Rx.top, by simpa using h⟩
    · rw [hv, hc]
      intro hn
      simp [hquiet hn]
  · refine ⟨_, rfl, ?_⟩
    constructor
    · constructor <;> simp
    all_goals first | (simp [hv, hc]; done) | skip
    · rcases hstore with h | ⟨-, h, hi⟩
      · exact .inr ⟨r, by simp [h, boundPair]⟩
      · rw [takeFrame_none hi] at ht
        have hrec := congrArg (fun o => (nextState o).map (fun q => q.receivers)) ht
        simp only [nextState, Option.map_some, Option.some.injEq] at hrec
        exact .inr ⟨Rx.top, by rw [recordWait_receivers, ← hrec, h]⟩
    · rw [hv, hc]
      intro hn
      rw [hquiet hn, takeFrame_none (by simpa using hin)] at ht
      have hrec := congrArg (fun o => (nextState o).map (fun q => q.receivers)) ht
      simp only [nextState, Option.map_some, Option.some.injEq] at hrec
      rw [recordWait_receivers, hquiet hn, ← hrec]
      rfl

/-- Every entry completes under a receiver that keeps 42 R176. -/
theorem wholeEntry_calm {s : State} (h : calm s) (e : PStep) (rest : List PStep) :
    ∃ u, wholeEntry e rest s = .next u ∧ calm u := by
  cases e with
  | act a =>
    obtain ⟨u, hu, hd⟩ := wholeEntry_act h a rest
    exact ⟨u, hu, hd.inbox, by rw [hd.same.receiver]; exact h.2⟩
  | wait => exact ⟨_, rfl, h⟩
  | sample => exact ⟨_, sampleStep_calm h.2 rest, h⟩
  | update u => exact ⟨_, rfl, by simpa [calm] using h⟩
  | bind c d => exact ⟨_, rfl, by simpa [calm] using h⟩

/-- Every list runs to its `done` under a receiver that keeps 42 R176 (60 R206: the engine has no hang of its own). -/
theorem runList_calm (l : List PStep) {s : State} (h : calm s) : ∃ u, runList l s = .next u ∧ calm u := by
  induction l generalizing s with
  | nil => exact ⟨_, rfl, h⟩
  | cons e rest ih =>
    obtain ⟨u, hu, hc⟩ := wholeEntry_calm h e rest
    obtain ⟨w, hw, hcw⟩ := ih hc
    exact ⟨w, by simp only [runList, hu, andThen_next, hw], hcw⟩

theorem runList_cons {e : PStep} {rest : List PStep} {s u : State} (h : wholeEntry e rest s = .next u) :
    runList (e :: rest) s = runList rest u := by
  simp only [runList, h, andThen_next]

/-! ### What an instruction can answer -/

/-- Every instruction answers a next state: none faults, none is refused. -/
theorem exec_next (i : Instr) (s : State) : ∃ t, exec i s = .next t := by
  cases i <;> exact ⟨_, rfl⟩

/-- The acceptance of a request changes nothing outside the request and status registers (40 R105, 60 R200), but for the
digit registers of `DISPLAY_NUMBER`. -/
theorem exec_request_frame {i : Instr} (h : isRequest i = true) {s t : State} (he : exec i s = .next t) :
    t.busy = true ∧ t.done = false ∧ t.nack = false ∧ t.reqNack = false ∧ t.aidx = 0 ∧ t.waitCnt = s.waitCnt ∧
      t.cycles = s.cycles ∧ keepsInputs s t ∧ keepsBinding s t ∧ keepsAck s t ∧ keepsBus s t ∧
      ((∀ v, i ≠ .displayNumber v) → t.dig = s.dig) := by
  cases i <;> simp only [isRequest, Bool.false_eq_true] at h <;>
    (simp only [exec, Host.Outcome.next.injEq, execConfigure, execStart, execStop, execWriteBit, execWriteByte,
      execWriteCommand, execInitialize, execSetBrightness, execDisplayDigit, execDisplayNumber, execClearDisplay,
      execReserved0, execReserved7, execReservedD, execReservedE, execReservedF] at he
     subst he
     simp [keepsInputs, keepsBinding, keepsAck, keepsBus])

end Sys2Proof.Laws
end

