-- ==== Sys2Proof/Laws/Runs.lean ====
section
/-! SUPPORT. What a run of a step list does, said once: its parts, and everything that does not depend on the decoder. -/

namespace Sys2Proof.Laws

open Sys2Proof.Machine

/-! ### A list in parts -/

/-- The entries of a list, with `rest` still to run after them. -/
def runEntries : List PStep → List PStep → State → Result
  | [], _, s => .next s
  | e :: l, rest, s => andThen (wholeEntry e (l ++ rest) s) (runEntries l rest)

theorem runEntries_append (l1 l2 rest : List PStep) (s : State) :
    runEntries (l1 ++ l2) rest s = andThen (runEntries l1 (l2 ++ rest) s) (runEntries l2 rest) := by
  induction l1 generalizing s with
  | nil => rfl
  | cons e l ih =>
    simp only [List.cons_append, runEntries, List.append_assoc, andThen_assoc]
    congr 1
    funext t
    exact ih t

theorem runList_append (l rest : List PStep) (s : State) :
    runList (l ++ rest) s = andThen (runEntries l rest s) (runList rest) := by
  induction l generalizing s with
  | nil => rfl
  | cons e l ih =>
    simp only [List.cons_append, runList, runEntries, andThen_assoc]
    congr 1
    funext t
    exact ih t

/-- A whole list is its entries and `finish`. -/
theorem runList_eq (l : List PStep) (s : State) :
    runList l s = andThen (runEntries l [] s) (fun u => .next (finishRequest u)) := by
  have h := runList_append l [] s
  rw [List.append_nil] at h
  exact h

/-! ### What the engine's side of a list does -/

/-- The drivers after a list. -/
def linesAfter : List PStep → Lines → Lines
  | [], l => l
  | .act a :: rest, l => linesAfter rest (applyAction a l)
  | .bind _ _ :: rest, l => linesAfter rest (undrive l)
  | .wait :: rest, l => linesAfter rest l
  | .sample :: rest, l => linesAfter rest l
  | .update _ :: rest, l => linesAfter rest l

@[simp] theorem linesAfter_append (l1 l2 : List PStep) (l : Lines) :
    linesAfter (l1 ++ l2) l = linesAfter l2 (linesAfter l1 l) := by
  induction l1 generalizing l with
  | nil => rfl
  | cons e l1 ih => cases e <;> simp [linesAfter, ih]

/-- A list of no binding. -/
def noBind : List PStep → Bool
  | [] => true
  | .bind _ _ :: _ => false
  | .act _ :: l => noBind l
  | .wait :: l => noBind l
  | .sample :: l => noBind l
  | .update _ :: l => noBind l

/-- A list that does not latch `ack_o`. -/
def noLatch : List PStep → Bool
  | [] => true
  | .update .latchAck :: _ => false
  | .update (.loadShift _) :: l => noLatch l
  | .update .shiftBit :: l => noLatch l
  | .bind _ _ :: l => noLatch l
  | .act _ :: l => noLatch l
  | .wait :: l => noLatch l
  | .sample :: l => noLatch l

@[simp] theorem noBind_append (l1 l2 : List PStep) : noBind (l1 ++ l2) = (noBind l1 && noBind l2) := by
  induction l1 with
  | nil => rfl
  | cons e l1 ih => cases e <;> simp [noBind, ih]

@[simp] theorem noLatch_append (l1 l2 : List PStep) : noLatch (l1 ++ l2) = (noLatch l1 && noLatch l2) := by
  induction l1 with
  | nil => rfl
  | cons e l1 ih =>
    cases e with
    | update u => cases u <;> simp [noLatch, ih]
    | act a => simp [noLatch, ih]
    | wait => simp [noLatch, ih]
    | sample => simp [noLatch, ih]
    | bind c d => simp [noLatch, ih]

@[simp] theorem shapesOf_append (l1 l2 : List PStep) : shapesOf (l1 ++ l2) = shapesOf l1 ++ shapesOf l2 := by
  induction l1 with
  | nil => rfl
  | cons e l1 ih => cases e <;> simp [shapesOf, ih]

@[simp] theorem countActs_append (l1 l2 : List PStep) : countActs (l1 ++ l2) = countActs l1 + countActs l2 := by
  induction l1 with
  | nil => simp [countActs]
  | cons e l1 ih => cases e <;> simp [countActs, ih]; omega

@[simp] theorem countSamples_append (l1 l2 : List PStep) :
    countSamples (l1 ++ l2) = countSamples l1 + countSamples l2 := by
  induction l1 with
  | nil => simp [countSamples]
  | cons e l1 ih => cases e <;> simp [countSamples, ih]; omega

@[simp] theorem countUpdates_append (l1 l2 : List PStep) :
    countUpdates (l1 ++ l2) = countUpdates l1 + countUpdates l2 := by
  induction l1 with
  | nil => simp [countUpdates]
  | cons e l1 ih => cases e <;> simp [countUpdates, ih]; omega

@[simp] theorem samplesOf_append (l1 l2 : List TraceEntry) : samplesOf (l1 ++ l2) = samplesOf l1 ++ samplesOf l2 := by
  induction l1 with
  | nil => rfl
  | cons e l1 ih => cases e <;> simp [samplesOf, ih]

/-- LAST_ACK after samples that read these levels (40 R121). -/
def ackAfter (levels : List Bit) (old : Bool) : Bool :=
  match levels.getLast? with
  | some r => !r
  | none => old

theorem ackAfter_append (l1 l2 : List Bit) (old : Bool) : ackAfter (l1 ++ l2) old = ackAfter l2 (ackAfter l1 old) := by
  cases l2 using List.reverseRecOn with
  | nil => simp [ackAfter]
  | append_singleton l2 x => rw [← List.append_assoc]; simp [ackAfter]

/-- Everything a list with no binding does, whatever the decoder and the receiver make of it; `tr` is what it adds to the
trace. -/
structure ListDone (l : List PStep) (tr : List TraceEntry) (s u : State) : Prop where
  bound : u.bound = s.bound
  clkSel : u.clkSel = s.clkSel
  dioSel : u.dioSel = s.dioSel
  busy : u.busy = s.busy
  opL : u.opL = s.opL
  aL : u.aL = s.aL
  bL : u.bL = s.bL
  dig : u.dig = s.dig
  nack : u.nack = s.nack
  rejected : u.rejected = s.rejected
  illegal : u.illegal = s.illegal
  unbound : u.unbound = s.unbound
  done : u.done = s.done
  receiver : u.receiver = s.receiver
  hostMoves : u.hostMoves = s.hostMoves
  rstIn : u.rstIn = s.rstIn
  inbox : u.rxInbox = none
  lines : u.lines = linesAfter l s.lines
  trace : u.trace = s.trace ++ tr
  shapes : tr.map shape = shapesOf l
  samples : (samplesOf tr).length = countSamples l
  lastAck : u.lastAck = ackAfter (samplesOf tr) s.lastAck
  reqNack : u.reqNack = (s.reqNack || (samplesOf tr).any id)
  ackO : noLatch l = true → u.ackO = s.ackO
  others : keepsOtherReceivers s u
  delivered : s.delivered <+: u.delivered

theorem ListDone.calm {l : List PStep} {tr : List TraceEntry} {s u : State} (h : ListDone l tr s u)
    (hs : Machine.calm s) : Machine.calm u := ⟨h.inbox, by rw [h.receiver]; exact hs.2⟩

theorem ListDone.boundPair {l : List PStep} {tr : List TraceEntry} {s u : State} (h : ListDone l tr s u) :
    Machine.boundPair u = Machine.boundPair s := by
  simp [Machine.boundPair, h.clkSel, h.dioSel]

theorem keepsOtherReceivers_trans {s u w : State} (h1 : keepsOtherReceivers s u) (hp : boundPair u = boundPair s)
    (h2 : keepsOtherReceivers u w) : keepsOtherReceivers s w := by
  intro p hne
  rw [h2 p (by rw [hp]; exact hne), h1 p hne]

theorem keepsOtherReceivers_store {s u : State}
    (h : u.receivers = s.receivers ∨ ∃ r, u.receivers = storeRx s.receivers (boundPair s) r) :
    keepsOtherReceivers s u := by
  intro p hne
  rcases h with h | ⟨r, h⟩
  · rw [h]
  · rw [h]
    exact lookupRx_storeRx_other r hne

/-- Two lists one after the other. -/
theorem ListDone.append {l1 l2 : List PStep} {tr1 tr2 : List TraceEntry} {s u w : State} (h1 : ListDone l1 tr1 s u)
    (h2 : ListDone l2 tr2 u w) : ListDone (l1 ++ l2) (tr1 ++ tr2) s w where
  bound := h2.bound.trans h1.bound
  clkSel := h2.clkSel.trans h1.clkSel
  dioSel := h2.dioSel.trans h1.dioSel
  busy := h2.busy.trans h1.busy
  opL := h2.opL.trans h1.opL
  aL := h2.aL.trans h1.aL
  bL := h2.bL.trans h1.bL
  dig := h2.dig.trans h1.dig
  nack := h2.nack.trans h1.nack
  rejected := h2.rejected.trans h1.rejected
  illegal := h2.illegal.trans h1.illegal
  unbound := h2.unbound.trans h1.unbound
  done := h2.done.trans h1.done
  receiver := h2.receiver.trans h1.receiver
  hostMoves := h2.hostMoves.trans h1.hostMoves
  rstIn := h2.rstIn.trans h1.rstIn
  inbox := h2.inbox
  lines := by rw [h2.lines, h1.lines, linesAfter_append]
  trace := by rw [h2.trace, h1.trace, List.append_assoc]
  shapes := by simp [h1.shapes, h2.shapes]
  samples := by simp [h1.samples, h2.samples]
  lastAck := by rw [h2.lastAck, h1.lastAck, samplesOf_append, ackAfter_append]
  reqNack := by rw [h2.reqNack, h1.reqNack, samplesOf_append, List.any_append, Bool.or_assoc]
  ackO := by
    intro h
    rw [noLatch_append, Bool.and_eq_true] at h
    rw [h2.ackO h.2, h1.ackO h.1]
  others := keepsOtherReceivers_trans h1.others h1.boundPair h2.others
  delivered := h1.delivered.trans h2.delivered

/-- The empty list. -/
theorem ListDone.nil {s : State} (h : s.rxInbox = none) : ListDone [] [] s s := by
  constructor <;> first | rfl | exact h | simp [samplesOf, keepsOtherReceivers]

/-- A line action with its wait. -/
theorem ActDone.listDone {a : LineAction} {rest : List PStep} {s u : State} (h : ActDone a rest s u) :
    ListDone [.act a] [.ev a (clkBus (applyAction a s.lines) s.obs) (levelAfter a rest s), .w] s u := by
  obtain ⟨hs, hlines, -, -, -, -, -, htr, -, hdel, hin, -, hrec, -⟩ := h
  constructor
  all_goals first
    | exact hs.bound | exact hs.clkSel | exact hs.dioSel | exact hs.busy | exact hs.opL | exact hs.aL | exact hs.bL
    | exact hs.dig | exact hs.nack | exact hs.rejected | exact hs.illegal | exact hs.unbound | exact hs.done
    | exact hs.receiver | exact hs.hostMoves | exact hs.rstIn | exact hin | exact hlines | exact htr | rfl
    | exact hs.lastAck | (simpa [samplesOf] using hs.reqNack) | exact fun _ => hs.ackO
    | exact keepsOtherReceivers_store hrec | (rw [hdel]; exact List.prefix_append _ _)

/-- A sample. -/
theorem sample_listDone {s : State} (h : calm s) (rest : List PStep) :
    ListDone [.sample] [.s (sampleLevel rest s)] s (recordSample rest (sampleLevel rest s) s) := by
  constructor <;>
    first
      | (simp [samplesOf, countSamples, ackAfter, linesAfter, shapesOf, shape, keepsOtherReceivers]; done)
      | (simpa using h.1)

/-- An internal update. -/
theorem update_listDone {s : State} (h : calm s) (u : Update) (rest : List PStep) :
    ListDone [.update u] [] s (advance (applyUpdate s u) rest) := by
  constructor <;>
    first
      | (cases u <;> simp [samplesOf, countSamples, ackAfter, linesAfter, shapesOf, keepsOtherReceivers, applyUpdate,
          noLatch]; done)
      | (simpa using h.1)

/-- A wait. -/
theorem wait_listDone {s : State} (h : calm s) (rest : List PStep) :
    ListDone [.wait] [.w] s (recordWait rest s) := by
  constructor <;>
    first
      | (simp [samplesOf, countSamples, ackAfter, linesAfter, shapesOf, shape, keepsOtherReceivers]; done)
      | (simpa using h.1)

/-- Every list with no binding runs, for every receiver that keeps 42 R176, and does all that `ListDone` says. -/
theorem runEntries_done (l rest : List PStep) {s : State} (h : calm s) (hb : noBind l = true) :
    ∃ u tr, runEntries l rest s = .next u ∧ ListDone l tr s u := by
  induction l generalizing s with
  | nil => exact ⟨s, [], rfl, ListDone.nil h.1⟩
  | cons e l ih =>
    have go : ∀ {t : State} {tr : List TraceEntry}, wholeEntry e (l ++ rest) s = .next t → ListDone [e] tr s t →
        noBind l = true → ∃ u tr', runEntries (e :: l) rest s = .next u ∧ ListDone (e :: l) tr' s u := by
      intro t tr he hd hl
      obtain ⟨u, tr', hu, hd'⟩ := ih (hd.calm h) hl
      exact ⟨u, tr ++ tr', by rw [runEntries, he]; exact hu, hd.append hd'⟩
    cases e with
    | act a =>
      obtain ⟨t, ht, hd⟩ := wholeEntry_act h a (l ++ rest)
      exact go ht hd.listDone hb
    | wait => exact go rfl (wait_listDone h _) hb
    | sample => exact go (sampleStep_calm h.2 _) (sample_listDone h _) hb
    | update u => exact go rfl (update_listDone h u _) hb
    | bind c d => simp [noBind] at hb

/-- The last entry leaves nothing to run but `rest`. -/
theorem runEntries_prog {l rest : List PStep} {s u : State} (h : runEntries l rest s = .next u) (hl : l ≠ [])
    (hs : calm s) : u.prog = rest := by
  induction l generalizing s with
  | nil => exact absurd rfl hl
  | cons e l ih =>
    obtain ⟨t, ht, hc⟩ := wholeEntry_calm hs e (l ++ rest)
    rw [runEntries, ht] at h
    simp only [andThen_next] at h
    by_cases hn : l = []
    · subst hn
      simp only [runEntries, Host.Outcome.next.injEq, List.nil_append] at h ht
      subst h
      cases e with
      | act a =>
        obtain ⟨w, hw, hd⟩ := wholeEntry_act hs a rest
        rw [ht] at hw
        cases hw
        exact hd.prog
      | wait => simp only [wholeEntry, waitStep, Host.Outcome.next.injEq] at ht; subst ht; simp
      | sample =>
        simp only [wholeEntry, sampleStep_calm hs.2, Host.Outcome.next.injEq] at ht
        subst ht
        simp
      | update u => simp only [wholeEntry, updateStep, Host.Outcome.next.injEq] at ht; subst ht; simp
      | bind c d => simp only [wholeEntry, bindStep, Host.Outcome.next.injEq] at ht; subst ht; simp
    · exact ih h hn hc

end Sys2Proof.Laws
end

