-- ==== Sys2Proof/Laws/Waves.lean ====
section
/-! SUPPORT. What the shared sequences put on the bus and into the decoder (spec 40 R108, 42 R172 to R175), for every receiver
that keeps 42 R176. -/

namespace Sys2Proof.Laws

open Sys2Proof.Machine

/-! ### The level of released DIO -/

/-- DIO was driven until now, or CLK was low: no level is held. -/
theorem heldLevel_none {s : State} (h : s.lines.dioOe = true ∨ ∃ v, s.dec.prev = some (false, v)) : heldLevel s = none := by
  unfold heldLevel
  rcases h with h | ⟨v, h⟩
  · rw [h]
  · rw [h]
    split <;> simp_all

/-- A data bit's release reads 1 (42 R176, R181). -/
theorem releasedLevel_dataBit {s : State} {rest : List PStep} (hr : s.receiver ≠ .rogue) (hh : heldLevel s = none)
    (hb : dataBitRelease rest = true) (hp : refPulls s = false) : releasedLevel s rest = true := by
  unfold releasedLevel
  cases hk : s.receiver with
  | absent => rfl
  | reference => simp [hp]
  | lawful => simp [hh, hb, hp]
  | rogue => exact absurd hk hr

/-- The level of released DIO is steady while CLK is high, where the last one was the receiver's (42 R176, R181). -/
theorem releasedLevel_steady {s : State} {rest : List PStep} {v : Bit} (hr : s.receiver ≠ .rogue)
    (ho : s.lines.dioOe = false) (hp : s.dec.prev = some (true, v)) (ha : s.receiver = .absent → v = true)
    (hf : s.receiver = .reference → v = !refPulls s) : releasedLevel s rest = v := by
  have hh : heldLevel s = some v := by simp [heldLevel, ho, hp]
  unfold releasedLevel
  cases hk : s.receiver with
  | absent => simp [ha hk]
  | reference => simp [hf hk]
  | lawful => simp [hh]
  | rogue => exact absurd hk hr

/-- What released DIO reads with no receiver and with the reference one. -/
theorem releasedLevel_known (s : State) (rest : List PStep) :
    (s.receiver = .absent → releasedLevel s rest = true) ∧
      (s.receiver = .reference → releasedLevel s rest = !refPulls s) := by
  unfold releasedLevel
  constructor <;> intro h <;> simp [h]

/-! ### Runs that deliver no frame -/

/-- A run that delivers no frame. -/
structure Wave (l : List PStep) (tr : List TraceEntry) (s u : State) : Prop where
  list : ListDone l tr s u
  delivered : u.delivered = s.delivered
  receivers : u.receivers = s.receivers

theorem Wave.append {l1 l2 : List PStep} {tr1 tr2 : List TraceEntry} {s u w : State} (h1 : Wave l1 tr1 s u)
    (h2 : Wave l2 tr2 u w) : Wave (l1 ++ l2) (tr1 ++ tr2) s w :=
  ⟨h1.list.append h2.list, h2.delivered.trans h1.delivered, h2.receivers.trans h1.receivers⟩

theorem Wave.nil {s : State} (h : s.rxInbox = none) : Wave [] [] s s := ⟨ListDone.nil h, rfl, rfl⟩

theorem runEntries_cons {e : PStep} {l rest : List PStep} {s t : State} (h : wholeEntry e (l ++ rest) s = .next t) :
    runEntries (e :: l) rest s = runEntries l rest t := by
  rw [runEntries, h, andThen_next]

theorem runEntries_append_of {l1 l2 rest : List PStep} {s t u : State} (h1 : runEntries l1 (l2 ++ rest) s = .next t)
    (h2 : runEntries l2 rest t = .next u) : runEntries (l1 ++ l2) rest s = .next u := by
  rw [runEntries_append, h1, andThen_next, h2]

/-- A line action that makes no stop condition and no repeated start. -/
theorem act_wave {s : State} (h : calm s) (a : LineAction) (rest : List PStep) {c v : Bit} {d : Decoder}
    (hc : clkBus (applyAction a s.lines) s.obs = c) (hv : levelAfter a rest s = v)
    (hd : decodePair s.dec c v = (d, none)) :
    ∃ u, wholeEntry (.act a) rest s = .next u ∧ Wave [.act a] [.ev a c v, .w] s u ∧ u.dec = d ∧
      u.lines = applyAction a s.lines := by
  obtain ⟨u, hu, hdone⟩ := wholeEntry_act h a rest
  refine ⟨u, hu, ⟨?_, ?_, ?_⟩, ?_, hdone.lines⟩
  · have := hdone.listDone
    rwa [hc, hv] at this
  · have := hdone.delivered
    rw [hc, hv, hd] at this
    simpa using this
  · exact hdone.quiet (by rw [hc, hv, hd])
  · have := hdone.dec
    rwa [hc, hv, hd] at this

/-- The level after an action that leaves DIO driven. -/
theorem levelAfter_driven {a : LineAction} {rest : List PStep} {s : State} (h : (applyAction a s.lines).dioOe = true) :
    levelAfter a rest s = (applyAction a s.lines).dioLatch := by
  simp [levelAfter, h]

/-- The level after an action that leaves DIO released. -/
theorem levelAfter_released {a : LineAction} {rest : List PStep} {s : State} (h : (applyAction a s.lines).dioOe = false) :
    levelAfter a rest s = releasedLevel s rest := by
  simp [levelAfter, h]

/-! ### Levels at the rising edges of CLK -/

/-- The level of CLK after a trace that began with it at `c`. -/
def clkAfter : Bit → List TraceEntry → Bit
  | c, [] => c
  | _, .ev _ c' _ :: l => clkAfter c' l
  | c, .w :: l => clkAfter c l
  | c, .s _ :: l => clkAfter c l
  | _, .bind _ _ :: l => clkAfter true l

theorem risingLevels_append (c : Bit) (l1 l2 : List TraceEntry) :
    risingLevels c (l1 ++ l2) = risingLevels c l1 ++ risingLevels (clkAfter c l1) l2 := by
  induction l1 generalizing c with
  | nil => rfl
  | cons e l1 ih =>
    cases e with
    | ev a c' v =>
      simp only [List.cons_append, risingLevels, clkAfter, ih]
      split <;> rfl
    | w => exact ih c
    | s v => exact ih c
    | bind x y => exact ih true

theorem clkAfter_append (c : Bit) (l1 l2 : List TraceEntry) : clkAfter c (l1 ++ l2) = clkAfter (clkAfter c l1) l2 := by
  induction l1 generalizing c with
  | nil => rfl
  | cons e l1 ih => cases e <;> exact ih _

/-! ### Bits -/

/-- The drivers are on, CLK low, and the decoder has seen it. `p`, `bits`, `bytes` and `acked` are the decoder's. -/
structure Low (latch : Bit) (p : Phase) (bits : List Bit) (bytes : List Byte) (acked : Bool) (s : State) : Prop where
  lines : s.lines = { clkOe := true, clkO := false, dioOe := true, dioLatch := latch }
  prev : s.dec.prev = some (false, latch)
  phase : s.dec.phase = p
  bits : s.dec.bits = bits
  bytes : s.dec.bytes = bytes
  acked : s.dec.acked = acked

/-- The decoder after a committed bit. -/
def committed (p : Phase) (bits : List Bit) (bytes : List Byte) (acked : Bool) (c : Bit) : List Bit × List Byte × Bool :=
  match p with
  | .idle => (bits, bytes, acked)
  | .frame =>
    if bits.length < 8 then (bits ++ [c], bytes, acked) else ([], bytes ++ [byteOfBits bits], acked && !c)

theorem commitBit_eq (d : Decoder) (c : Bit) :
    commitBit d c = { d with
      bits := (committed d.phase d.bits d.bytes d.acked c).1
      bytes := (committed d.phase d.bits d.bytes d.acked c).2.1
      acked := (committed d.phase d.bits d.bytes d.acked c).2.2 } := by
  obtain ⟨p, bits, bytes, acked, hs, hd, prev⟩ := d
  cases p with
  | idle => rfl
  | frame => by_cases h : bits.length < 8 <;> simp [commitBit, committed, h]

/-- A DIO change with CLK low is no condition (42 R172). -/
theorem decodePair_low {d : Decoder} {v0 : Bit} (h : d.prev = some (false, v0)) (v : Bit) :
    decodePair d false v = ({ d with prev := some (false, v) }, none) := by
  cases v0 <;> cases v <;> simp [decodePair, h, dioEdge, clkEdge]

/-- A CLK rising edge takes the sample (42 R173). -/
theorem decodePair_rise {d : Decoder} {v0 : Bit} (h : d.prev = some (false, v0)) (v : Bit) :
    decodePair d true v = ({ d with hiSample := v, hiDirty := false, prev := some (true, v) }, none) := by
  cases v0 <;> cases v <;> simp [decodePair, h, dioEdge, clkEdge]

/-- A CLK falling edge with DIO steady since the rising edge commits the sample (42 R173). -/
theorem decodePair_fall {d : Decoder} {v : Bit} (h : d.prev = some (true, v)) (hd : d.hiDirty = false) :
    decodePair d false v = ({ commitBit d d.hiSample with prev := some (false, v) }, none) := by
  simp [decodePair, h, dioEdge, clkEdge, hd]

/-- `BIT_SEQ(0)` with CLK low commits a 0 (40 R108, R118). -/
theorem bitSeq_zero {latch : Bit} {p : Phase} {bits : List Bit} {bytes : List Byte} {acked : Bool} {s : State}
    (h : calm s) (hl : Low latch p bits bytes acked s) (rest : List PStep) :
    ∃ u tr, runEntries (bitSeq false) rest s = .next u ∧ Wave (bitSeq false) tr s u ∧ risingLevels false tr = [false] ∧
      clkAfter false tr = false ∧
      Low false p (committed p bits bytes acked false).1 (committed p bits bytes acked false).2.1
        (committed p bits bytes acked false).2.2 u := by
  obtain ⟨s1, e1, w1, d1, l1⟩ := act_wave h (.clkSet false)
    (([.act .dioLow, .act (.clkSet true), .act (.clkSet false), .act .dioRestore] : List PStep) ++ rest)
    (c := false) (v := latch) (by simp [hl.lines, applyAction, clkBus])
    (by rw [levelAfter_driven] <;> simp [hl.lines, applyAction]) (decodePair_low hl.prev latch)
  have c1 := w1.list.calm h
  obtain ⟨s2, e2, w2, d2, l2⟩ := act_wave c1 .dioLow
    (([.act (.clkSet true), .act (.clkSet false), .act .dioRestore] : List PStep) ++ rest)
    (c := false) (v := false) (by simp [l1, hl.lines, applyAction, clkBus])
    (by rw [levelAfter_driven] <;> simp [l1, hl.lines, applyAction]) (decodePair_low (by rw [d1]) false)
  have c2 := w2.list.calm c1
  obtain ⟨s3, e3, w3, d3, l3⟩ := act_wave c2 (.clkSet true)
    (([.act (.clkSet false), .act .dioRestore] : List PStep) ++ rest)
    (c := true) (v := false) (by simp [l2, l1, hl.lines, applyAction, clkBus])
    (by rw [levelAfter_driven] <;> simp [l2, l1, hl.lines, applyAction]) (decodePair_rise (by rw [d2]) false)
  have c3 := w3.list.calm c2
  obtain ⟨s4, e4, w4, d4, l4⟩ := act_wave c3 (.clkSet false) (([.act .dioRestore] : List PStep) ++ rest)
    (c := false) (v := false) (by simp [l3, l2, l1, hl.lines, applyAction, clkBus])
    (by rw [levelAfter_driven] <;> simp [l3, l2, l1, hl.lines, applyAction])
    (decodePair_fall (by rw [d3]) (by rw [d3]))
  have c4 := w4.list.calm c3
  obtain ⟨s5, e5, w5, d5, l5⟩ := act_wave c4 .dioRestore (([] : List PStep) ++ rest)
    (c := false) (v := false) (by simp [l4, l3, l2, l1, hl.lines, applyAction, clkBus])
    (by rw [levelAfter_driven] <;> simp [l4, l3, l2, l1, hl.lines, applyAction]) (decodePair_low (by rw [d4]) false)
  refine ⟨s5, _, ?_, (((w1.append w2).append w3).append w4).append w5, rfl, rfl, ?_⟩
  · unfold bitSeq
    rw [if_neg (by decide), runEntries_cons e1, runEntries_cons e2, runEntries_cons e3, runEntries_cons e4,
      runEntries_cons e5]
    rfl
  · have hs2 : s2.dec.phase = p ∧ s2.dec.bits = bits ∧ s2.dec.bytes = bytes ∧ s2.dec.acked = acked := by
      rw [d2, d1]
      exact ⟨hl.phase, hl.bits, hl.bytes, hl.acked⟩
    obtain ⟨hp, hb, hy, hk⟩ := hs2
    constructor
    · rw [l5, l4, l3, l2, l1, hl.lines]
      rfl
    · rw [d5]
    · rw [d5, d4, commitBit_phase, d3, hp]
    all_goals rw [d5, d4, commitBit_eq, d3, hp, hb, hy, hk]

/-- The reference receiver pulls where eight bits of a frame's byte are committed (42 R181). -/
theorem refPulls_eq {s : State} {p : Phase} {bits : List Bit} (hp : s.dec.phase = p) (hb : s.dec.bits = bits) :
    refPulls s = (decide (p = .frame) && decide (bits.length = 8)) := by
  simp [refPulls, hp, hb]

/-- `BIT_SEQ(1)` with CLK low commits what the released line reads: 1, but where the ninth bit of a frame's byte is its ACK
slot (40 R108, R118; 42 R176, R181). -/
theorem bitSeq_one {latch : Bit} {p : Phase} {bits : List Bit} {bytes : List Byte} {acked : Bool} {s : State}
    (h : calm s) (hl : Low latch p bits bytes acked s) (rest : List PStep) :
    ∃ u tr r, runEntries (bitSeq true) rest s = .next u ∧ Wave (bitSeq true) tr s u ∧ risingLevels false tr = [r] ∧
      clkAfter false tr = false ∧
      ((p = .frame → bits.length ≠ 8) → r = true) ∧ (s.receiver = .absent → r = true) ∧
      (s.receiver = .reference → p = .frame → bits.length = 8 → r = false) ∧
      Low latch p (committed p bits bytes acked r).1 (committed p bits bytes acked r).2.1
        (committed p bits bytes acked r).2.2 u := by
  obtain ⟨s1, e1, w1, d1, l1⟩ := act_wave h (.clkSet false)
    (([.act .dioRelease, .act (.clkSet true), .act (.clkSet false), .act .dioRestore] : List PStep) ++ rest)
    (c := false) (v := latch) (by simp [hl.lines, applyAction, clkBus])
    (by rw [levelAfter_driven] <;> simp [hl.lines, applyAction]) (decodePair_low hl.prev latch)
  have c1 := w1.list.calm h
  obtain ⟨s2, e2, w2, d2, l2⟩ := act_wave c1 .dioRelease
    (([.act (.clkSet true), .act (.clkSet false), .act .dioRestore] : List PStep) ++ rest)
    (c := false) (by simp [l1, hl.lines, applyAction, clkBus]) rfl (decodePair_low (by rw [d1]) _)
  have c2 := w2.list.calm c1
  have o2 : s2.lines = { clkOe := true, clkO := false, dioOe := false, dioLatch := latch } := by
    rw [l2, l1, hl.lines]
    rfl
  have b2 : s2.dec.phase = p ∧ s2.dec.bits = bits ∧ s2.dec.bytes = bytes ∧ s2.dec.acked = acked := by
    rw [d2, d1]
    exact ⟨hl.phase, hl.bits, hl.bytes, hl.acked⟩
  obtain ⟨hp, hb, hy, hk⟩ := b2
  generalize hr : releasedLevel s2 (([.act (.clkSet false), .act .dioRestore] : List PStep) ++ rest) = r
  obtain ⟨s3, e3, w3, d3, l3⟩ := act_wave c2 (.clkSet true)
    (([.act (.clkSet false), .act .dioRestore] : List PStep) ++ rest)
    (c := true) (v := r) (by simp [o2, applyAction, clkBus])
    (by rw [levelAfter_released (by simp [o2, applyAction]), hr]) (decodePair_rise (by rw [d2]) r)
  have c3 := w3.list.calm c2
  have known := releasedLevel_known s2 (([.act (.clkSet false), .act .dioRestore] : List PStep) ++ rest)
  rw [hr] at known
  have k3 : s3.receiver = s2.receiver := w3.list.receiver
  have p3 : refPulls s3 = refPulls s2 := by simp [refPulls, d3]
  have steady : releasedLevel s3 (([.act .dioRestore] : List PStep) ++ rest) = r :=
    releasedLevel_steady c3.2 (by simp [l3, o2, applyAction]) (by rw [d3]) (fun e => known.1 (by rw [← k3]; exact e))
      (fun e => by rw [p3]; exact known.2 (by rw [← k3]; exact e))
  obtain ⟨s4, e4, w4, d4, l4⟩ := act_wave c3 (.clkSet false) (([.act .dioRestore] : List PStep) ++ rest)
    (c := false) (v := r) (by simp [l3, o2, applyAction, clkBus])
    (by rw [levelAfter_released (by simp [l3, o2, applyAction]), steady])
    (decodePair_fall (by rw [d3]) (by rw [d3]))
  have c4 := w4.list.calm c3
  obtain ⟨s5, e5, w5, d5, l5⟩ := act_wave c4 .dioRestore (([] : List PStep) ++ rest)
    (c := false) (v := latch) (by simp [l4, l3, o2, applyAction, clkBus])
    (by rw [levelAfter_driven] <;> simp [l4, l3, o2, applyAction]) (decodePair_low (by rw [d4]) latch)
  have k2 : s2.receiver = s.receiver := w2.list.receiver.trans w1.list.receiver
  refine ⟨s5, _, r, ?_, (((w1.append w2).append w3).append w4).append w5, rfl, rfl, ?_, ?_, ?_, ?_⟩
  · unfold bitSeq
    rw [if_pos rfl, runEntries_cons e1, runEntries_cons e2, runEntries_cons e3, runEntries_cons e4, runEntries_cons e5]
    rfl
  · intro hc
    rw [← hr]
    refine releasedLevel_dataBit c2.2 (heldLevel_none (.inr ⟨_, by rw [d2]⟩)) rfl ?_
    rw [refPulls_eq hp hb, Bool.and_eq_false_iff, decide_eq_false_iff_not, decide_eq_false_iff_not]
    by_cases hf : p = .frame
    · exact .inr (hc hf)
    · exact .inl hf
  · exact fun e => known.1 (by rw [k2, e])
  · intro e hf h8
    rw [known.2 (by rw [k2, e]), refPulls_eq hp hb, hf, h8]
    rfl
  · constructor
    · rw [l5, l4, l3, o2]
      rfl
    · rw [d5]
    · rw [d5, d4, commitBit_phase, d3, hp]
    all_goals rw [d5, d4, commitBit_eq, d3, hp, hb, hy, hk]

/-- ACK_SEQ with CLK low: the ninth pulse (40 R106, R121). The sample reads what the decoder commits. -/
theorem ackSeq_wave {latch : Bit} {p : Phase} {bits : List Bit} {bytes : List Byte} {acked : Bool} {s : State}
    (h : calm s) (hl : Low latch p bits bytes acked s) (rest : List PStep) :
    ∃ u tr r, runEntries ackSeq rest s = .next u ∧ Wave ackSeq tr s u ∧ risingLevels false tr = [r] ∧
      clkAfter false tr = false ∧
      samplesOf tr = [r] ∧ (s.receiver = .absent → r = true) ∧
      (s.receiver = .reference → r = !(decide (p = .frame) && decide (bits.length = 8))) ∧
      Low latch p (committed p bits bytes acked r).1 (committed p bits bytes acked r).2.1
        (committed p bits bytes acked r).2.2 u := by
  obtain ⟨s1, e1, w1, d1, l1⟩ := act_wave h .dioRelease
    (([.act (.clkSet false), .act (.clkSet true), .sample, .act (.clkSet false), .act .dioRestore] : List PStep) ++ rest)
    (c := false) (by simp [hl.lines, applyAction, clkBus]) rfl (decodePair_low hl.prev _)
  have c1 := w1.list.calm h
  obtain ⟨s2, e2, w2, d2, l2⟩ := act_wave c1 (.clkSet false)
    (([.act (.clkSet true), .sample, .act (.clkSet false), .act .dioRestore] : List PStep) ++ rest)
    (c := false) (by simp [l1, hl.lines, applyAction, clkBus]) rfl (decodePair_low (by rw [d1]) _)
  have c2 := w2.list.calm c1
  have o2 : s2.lines = { clkOe := true, clkO := false, dioOe := false, dioLatch := latch } := by
    rw [l2, l1, hl.lines]
    rfl
  have b2 : s2.dec.phase = p ∧ s2.dec.bits = bits ∧ s2.dec.bytes = bytes ∧ s2.dec.acked = acked := by
    rw [d2, d1]
    exact ⟨hl.phase, hl.bits, hl.bytes, hl.acked⟩
  obtain ⟨hp, hb, hy, hk⟩ := b2
  generalize hr : releasedLevel s2 (([.sample, .act (.clkSet false), .act .dioRestore] : List PStep) ++ rest) = r
  obtain ⟨s3, e3, w3, d3, l3⟩ := act_wave c2 (.clkSet true)
    (([.sample, .act (.clkSet false), .act .dioRestore] : List PStep) ++ rest)
    (c := true) (v := r) (by simp [o2, applyAction, clkBus])
    (by rw [levelAfter_released (by simp [o2, applyAction]), hr]) (decodePair_rise (by rw [d2]) r)
  have c3 := w3.list.calm c2
  have known := releasedLevel_known s2 (([.sample, .act (.clkSet false), .act .dioRestore] : List PStep) ++ rest)
  rw [hr] at known
  have k3 : s3.receiver = s2.receiver := w3.list.receiver
  have p3 : refPulls s3 = refPulls s2 := by simp [refPulls, d3]
  have steady : ∀ q, releasedLevel s3 q = r := fun q =>
    releasedLevel_steady c3.2 (by simp [l3, o2, applyAction]) (by rw [d3]) (fun e => known.1 (by rw [← k3]; exact e))
      (fun e => by rw [p3]; exact known.2 (by rw [← k3]; exact e))
  have hsl : sampleLevel (([.act (.clkSet false), .act .dioRestore] : List PStep) ++ rest) s3 = r := by
    simp [sampleLevel, l3, o2, applyAction, steady]
  have e4 : wholeEntry .sample (([.act (.clkSet false), .act .dioRestore] : List PStep) ++ rest) s3 =
      .next (recordSample (([.act (.clkSet false), .act .dioRestore] : List PStep) ++ rest) r s3) := by
    have := sampleStep_calm c3.2 (([.act (.clkSet false), .act .dioRestore] : List PStep) ++ rest)
    rw [hsl] at this
    exact this
  have w4 : Wave [.sample] [.s r] s3
      (recordSample (([.act (.clkSet false), .act .dioRestore] : List PStep) ++ rest) r s3) := by
    have := sample_listDone c3 (([.act (.clkSet false), .act .dioRestore] : List PStep) ++ rest)
    rw [hsl] at this
    exact ⟨this, by simp, by simp⟩
  generalize hs4 : recordSample (([.act (.clkSet false), .act .dioRestore] : List PStep) ++ rest) r s3 = s4 at e4 w4
  have d4 : s4.dec = s3.dec := by rw [← hs4]; simp
  have l4 : s4.lines = s3.lines := by rw [← hs4]; simp
  have c4 := w4.list.calm c3
  have k4 : s4.receiver = s2.receiver := by rw [← hs4]; simpa using k3
  have p4 : refPulls s4 = refPulls s2 := by simp [refPulls, d4, d3]
  have steady4 : releasedLevel s4 (([.act .dioRestore] : List PStep) ++ rest) = r :=
    releasedLevel_steady c4.2 (by simp [l4, l3, o2, applyAction]) (by rw [d4, d3])
      (fun e => known.1 (by rw [← k4]; exact e)) (fun e => by rw [p4]; exact known.2 (by rw [← k4]; exact e))
  obtain ⟨s5, e5, w5, d5, l5⟩ := act_wave c4 (.clkSet false) (([.act .dioRestore] : List PStep) ++ rest)
    (c := false) (v := r) (by simp [l4, l3, o2, applyAction, clkBus])
    (by rw [levelAfter_released (by simp [l4, l3, o2, applyAction]), steady4])
    (decodePair_fall (by rw [d4, d3]) (by rw [d4, d3]))
  have c5 := w5.list.calm c4
  obtain ⟨s6, e6, w6, d6, l6⟩ := act_wave c5 .dioRestore (([] : List PStep) ++ rest)
    (c := false) (v := latch) (by simp [l5, l4, l3, o2, applyAction, clkBus])
    (by rw [levelAfter_driven] <;> simp [l5, l4, l3, o2, applyAction]) (decodePair_low (by rw [d5]) latch)
  have k2 : s2.receiver = s.receiver := w2.list.receiver.trans w1.list.receiver
  refine ⟨s6, _, r, ?_, ((((w1.append w2).append w3).append w4).append w5).append w6, rfl, rfl, rfl, ?_, ?_, ?_⟩
  · unfold ackSeq
    rw [runEntries_cons e1, runEntries_cons e2, runEntries_cons e3, runEntries_cons e4, runEntries_cons e5,
      runEntries_cons e6]
    rfl
  · exact fun e => known.1 (by rw [k2, e])
  · intro e
    rw [known.2 (by rw [k2, e]), refPulls_eq hp hb]
  · constructor
    · rw [l6, l5, l4, l3, o2]
      rfl
    · rw [d6]
    · rw [d6, d5, commitBit_phase, d4, d3, hp]
    all_goals rw [d6, d5, commitBit_eq, d4, d3, hp, hb, hy, hk]

end Sys2Proof.Laws
end

