-- ==== Sys2Proof/Laws/Frames.lean ====
section
/-! SUPPORT. What whole bytes, starts, stops and frames do (spec 40 R106 to R108, 41 R139, 42 R172 to R186), for every receiver
that keeps 42 R176. -/

namespace Sys2Proof.Laws

open Sys2Proof.Machine

/-! ### Data bits and bytes -/

/-- The bits after a data bit: a frame takes it, outside a frame it is ignored (42 R174, R175). -/
def grow (p : Phase) (bits : List Bit) (vs : List Bit) : List Bit :=
  match p with
  | .idle => bits
  | .frame => bits ++ vs

@[simp] theorem grow_nil (p : Phase) (bits : List Bit) : grow p bits [] = bits := by cases p <;> simp [grow]

theorem grow_grow (p : Phase) (bits vs ws : List Bit) : grow p (grow p bits vs) ws = grow p bits (vs ++ ws) := by
  cases p <;> simp [grow]

theorem committed_data {p : Phase} {bits : List Bit} {bytes : List Byte} {acked : Bool} {v : Bit}
    (hk : p = .frame → bits.length < 8) : committed p bits bytes acked v = (grow p bits [v], bytes, acked) := by
  cases p with
  | idle => rfl
  | frame => simp [committed, grow, hk rfl]

/-- A data bit of a byte write: the decoder gets `v`, and the latch is kept exactly by a 1 (40 R117, R118). -/
theorem shiftedBitSeq_wave {latch : Bit} {p : Phase} {bits : List Bit} {bytes : List Byte} {acked : Bool} {s : State}
    (h : calm s) (hl : Low latch p bits bytes acked s) (hk : p = .frame → bits.length < 8) (v : Bit)
    (rest : List PStep) :
    ∃ u tr, runEntries (shiftedBitSeq v) rest s = .next u ∧ Wave (shiftedBitSeq v) tr s u ∧ risingLevels false tr = [v] ∧
      clkAfter false tr = false ∧ samplesOf tr = [] ∧ Low (latch && v) p (grow p bits [v]) bytes acked u := by
  have bit : ∃ u tr, runEntries (bitSeq v) (([.update .shiftBit] : List PStep) ++ rest) s = .next u ∧
      Wave (bitSeq v) tr s u ∧ risingLevels false tr = [v] ∧ clkAfter false tr = false ∧
      Low (latch && v) p (grow p bits [v]) bytes acked u := by
    cases v with
    | false =>
      obtain ⟨u, tr, e, w, hr, hck, hl'⟩ := bitSeq_zero h hl (([.update .shiftBit] : List PStep) ++ rest)
      rw [committed_data hk] at hl'
      exact ⟨u, tr, e, w, hr, hck, by rw [Bool.and_false]; exact hl'⟩
    | true =>
      obtain ⟨u, tr, r, e, w, hr, hck, h1, -, -, hl'⟩ := bitSeq_one h hl (([.update .shiftBit] : List PStep) ++ rest)
      have := h1 (fun hf => by have := hk hf; omega)
      subst this
      rw [committed_data hk] at hl'
      exact ⟨u, tr, e, w, hr, hck, by rw [Bool.and_true]; exact hl'⟩
  obtain ⟨u, tr, e, w, hr, hck, hl'⟩ := bit
  have wu : Wave [.update .shiftBit] [] u (advance (applyUpdate u .shiftBit) rest) :=
    ⟨update_listDone (w.list.calm h) .shiftBit rest, by simp [applyUpdate], by simp [applyUpdate]⟩
  have hs : samplesOf tr = [] := by
    have := w.list.samples
    cases v <;> simpa [bitSeq, countSamples] using this
  refine ⟨_, tr ++ [], runEntries_append_of e rfl, w.append wu, ?_, ?_, ?_, ?_⟩
  · rw [List.append_nil, hr]
  · rw [List.append_nil, hck]
  · rw [List.append_nil, hs]
  · constructor
    · simpa [applyUpdate] using hl'.lines
    · simpa [applyUpdate] using hl'.prev
    · simpa [applyUpdate] using hl'.phase
    · simpa [applyUpdate] using hl'.bits
    · simpa [applyUpdate] using hl'.bytes
    · simpa [applyUpdate] using hl'.acked

/-- Data bits in a row. -/
theorem dataBits_wave {p : Phase} {bytes : List Byte} {acked : Bool} (vs : List Bit) {latch : Bit} {bits : List Bit}
    {s : State} (h : calm s) (hl : Low latch p bits bytes acked s) (hk : p = .frame → bits.length + vs.length ≤ 8)
    (rest : List PStep) :
    ∃ u tr, runEntries (vs.flatMap shiftedBitSeq) rest s = .next u ∧ Wave (vs.flatMap shiftedBitSeq) tr s u ∧
      risingLevels false tr = vs ∧ clkAfter false tr = false ∧ samplesOf tr = [] ∧
      Low (latch && vs.all id) p (grow p bits vs) bytes acked u := by
  induction vs generalizing latch bits s with
  | nil =>
    refine ⟨s, [], rfl, Wave.nil h.1, rfl, rfl, rfl, ?_⟩
    simpa using hl
  | cons v vs ih =>
    rw [List.flatMap_cons]
    obtain ⟨t, tr1, e1, w1, r1, k1, q1, l1⟩ := shiftedBitSeq_wave h hl
      (fun hf => by have := hk hf; simp only [List.length_cons] at this; omega) v (vs.flatMap shiftedBitSeq ++ rest)
    obtain ⟨u, tr2, e2, w2, r2, k2, q2, l2⟩ := ih (w1.list.calm h) l1
      (fun hf => by
        have := hk hf
        subst hf
        simp only [List.length_cons, grow, List.length_append, List.length_nil] at this ⊢
        omega)
    refine ⟨u, tr1 ++ tr2, runEntries_append_of e1 e2, w1.append w2, ?_, ?_, ?_, ?_⟩
    · rw [risingLevels_append, r1, k1, r2]
      rfl
    · rw [clkAfter_append, k1, k2]
    · rw [samplesOf_append, q1, q2]
      rfl
    · rw [grow_grow] at l2
      simpa [Bool.and_assoc] using l2

/-- The eight bits of a byte, bit 0 first (20 R56). -/
def bitsOf (b : Byte) : List Bit :=
  [b.getLsbD 0, b.getLsbD 1, b.getLsbD 2, b.getLsbD 3, b.getLsbD 4, b.getLsbD 5, b.getLsbD 6, b.getLsbD 7]

theorem byteOfBits_bitsOf (b : Byte) : byteOfBits (bitsOf b) = b := by
  revert b
  decide

theorem bitsOf_all (b : Byte) : (bitsOf b).all id = decide (b = 0xFF#8) := by
  revert b
  decide

theorem byteSeq_eq (b : Byte) :
    byteSeq b = [.update (.loadShift b)] ++ ((bitsOf b).flatMap shiftedBitSeq ++ ackSeq) := by
  simp [byteSeq, bitsOf, List.flatMap_cons]

/-- The bytes of the frame after a byte (42 R174, R175). -/
def addByte (p : Phase) (bytes : List Byte) (b : Byte) : List Byte :=
  match p with
  | .idle => bytes
  | .frame => bytes ++ [b]

/-- Whether every ACK slot read 0, after one more. -/
def addAnswer (p : Phase) (acked r : Bool) : Bool :=
  match p with
  | .idle => acked
  | .frame => acked && !r

@[simp] theorem addByte_frame (bytes : List Byte) (b : Byte) : addByte .frame bytes b = bytes ++ [b] := rfl
@[simp] theorem addByte_idle (bytes : List Byte) (b : Byte) : addByte .idle bytes b = bytes := rfl
@[simp] theorem addAnswer_frame (acked r : Bool) : addAnswer .frame acked r = (acked && !r) := rfl
@[simp] theorem addAnswer_idle (acked r : Bool) : addAnswer .idle acked r = acked := rfl

/-- A byte write with CLK low, at a byte boundary of a frame or outside a frame (40 R120 to R122, 42 R175). `r` is what the
acknowledgment sample reads. -/
theorem byteSeq_wave {latch : Bit} {p : Phase} {bits : List Bit} {bytes : List Byte} {acked : Bool} {s : State}
    (h : calm s) (hl : Low latch p bits bytes acked s) (hk : p = .frame → bits = []) (b : Byte) (rest : List PStep) :
    ∃ u tr r, runEntries (byteSeq b) rest s = .next u ∧ Wave (byteSeq b) tr s u ∧
      risingLevels false tr = bitsOf b ++ [r] ∧ clkAfter false tr = false ∧ samplesOf tr = [r] ∧
      (s.receiver = .absent → r = true) ∧ (s.receiver = .reference → r = decide (p = .idle)) ∧
      Low (latch && decide (b = 0xFF#8)) p bits (addByte p bytes b) (addAnswer p acked r) u := by
  have w0 : ∀ rest, Wave [.update (.loadShift b)] [] s (advance (applyUpdate s (.loadShift b)) rest) := fun rest =>
    ⟨update_listDone h (.loadShift b) rest, by simp [applyUpdate], by simp [applyUpdate]⟩
  have l0 : ∀ rest, Low latch p bits bytes acked (advance (applyUpdate s (.loadShift b)) rest) := by
    intro rest
    constructor
    · simpa [applyUpdate] using hl.lines
    · simpa [applyUpdate] using hl.prev
    · simpa [applyUpdate] using hl.phase
    · simpa [applyUpdate] using hl.bits
    · simpa [applyUpdate] using hl.bytes
    · simpa [applyUpdate] using hl.acked
  have c0 := (w0 (((bitsOf b).flatMap shiftedBitSeq ++ ackSeq) ++ rest)).list.calm h
  obtain ⟨t, tr1, e1, w1, r1, k1, q1, l1⟩ := dataBits_wave (bitsOf b) c0
    (l0 (((bitsOf b).flatMap shiftedBitSeq ++ ackSeq) ++ rest)) (fun hf => by rw [hk hf]; simp [bitsOf]) (ackSeq ++ rest)
  obtain ⟨u, tr2, r, e2, w2, r2, k2, q2, ha, hf, l2⟩ := ackSeq_wave (w1.list.calm c0) l1 rest
  have k0 : t.receiver = s.receiver := w1.list.receiver.trans (w0 _).list.receiver
  rw [byteSeq_eq]
  refine ⟨u, [] ++ (tr1 ++ tr2), r, ?_, (w0 _).append (w1.append w2), ?_, ?_, ?_, ?_, ?_, ?_⟩
  · exact runEntries_append_of rfl (runEntries_append_of e1 e2)
  · rw [List.nil_append, risingLevels_append, r1, k1, r2]
  · rw [List.nil_append, clkAfter_append, k1, k2]
  · rw [List.nil_append, samplesOf_append, q1, q2]
    rfl
  · exact fun e => ha (by rw [k0, e])
  · intro e
    rw [hf (by rw [k0, e])]
    cases p with
    | idle => rfl
    | frame => rw [hk rfl]; rfl
  · rw [bitsOf_all] at l2
    cases p with
    | idle => exact l2
    | frame =>
      have hb := hk rfl
      subst hb
      have : committed Phase.frame (grow .frame [] (bitsOf b)) bytes acked r = ([], bytes ++ [b], acked && !r) := by
        simp only [grow, List.nil_append, committed, byteOfBits_bitsOf]
        rfl
      rw [this] at l2
      exact l2

/-! ### Starts and stops -/

/-- START_SEQ from idle-high opens a frame with no byte (40 R113, 42 R172, R174). -/
theorem startSeq_opens {s : State} (h : calm s) (hi : idleHigh s) (rest : List PStep) :
    ∃ u tr, runEntries startSeq rest s = .next u ∧ Wave startSeq tr s u ∧ samplesOf tr = [] ∧
      Low false .frame [] [] true u := by
  obtain ⟨hln, hpv, hph⟩ := hi
  obtain ⟨s1, e1, w1, d1, l1⟩ := act_wave h .dioLow (([.act (.clkSet false)] : List PStep) ++ rest)
    (c := true) (v := false)
    (d := { s.dec with phase := .frame, bits := [], bytes := [], acked := true, hiDirty := true,
                       prev := some (true, false) })
    (by simp [hln, applyAction, clkBus]) (by rw [levelAfter_driven] <;> simp [hln, applyAction])
    (by simp [decodePair, hpv, dioEdge, startCondition, clkEdge, hph])
  have c1 := w1.list.calm h
  obtain ⟨s2, e2, w2, d2, l2⟩ := act_wave c1 (.clkSet false) (([] : List PStep) ++ rest)
    (c := false) (v := false) (d := { s1.dec with prev := some (false, false) })
    (by simp [l1, hln, applyAction, clkBus]) (by rw [levelAfter_driven] <;> simp [l1, hln, applyAction])
    (by simp [decodePair, d1, dioEdge, clkEdge])
  refine ⟨s2, _, ?_, w1.append w2, rfl, ?_⟩
  · unfold startSeq
    rw [runEntries_cons e1, runEntries_cons e2]
    rfl
  · constructor
    · rw [l2, l1, hln]
      rfl
    all_goals rw [d2]
    all_goals rw [d1]

/-- START_SEQ with CLK low makes no condition (40 R114). -/
theorem startSeq_low {latch : Bit} {p : Phase} {bits : List Bit} {bytes : List Byte} {acked : Bool} {s : State}
    (h : calm s) (hl : Low latch p bits bytes acked s) (rest : List PStep) :
    ∃ u tr, runEntries startSeq rest s = .next u ∧ Wave startSeq tr s u ∧ samplesOf tr = [] ∧
      Low false p bits bytes acked u := by
  obtain ⟨s1, e1, w1, d1, l1⟩ := act_wave h .dioLow (([.act (.clkSet false)] : List PStep) ++ rest)
    (c := false) (v := false) (by simp [hl.lines, applyAction, clkBus])
    (by rw [levelAfter_driven] <;> simp [hl.lines, applyAction]) (decodePair_low hl.prev false)
  have c1 := w1.list.calm h
  obtain ⟨s2, e2, w2, d2, l2⟩ := act_wave c1 (.clkSet false) (([] : List PStep) ++ rest)
    (c := false) (v := false) (by simp [l1, hl.lines, applyAction, clkBus])
    (by rw [levelAfter_driven] <;> simp [l1, hl.lines, applyAction]) (decodePair_low (by rw [d1]) false)
  refine ⟨s2, _, ?_, w1.append w2, rfl, ?_⟩
  · unfold startSeq
    rw [runEntries_cons e1, runEntries_cons e2]
    rfl
  · constructor
    · rw [l2, l1, hl.lines]
      rfl
    all_goals rw [d2]
    all_goals rw [d1]
    · exact hl.phase
    · exact hl.bits
    · exact hl.bytes
    · exact hl.acked

/-- What the reference receiver makes of a delivered frame (42 R182 to R186) [log 13]. -/
def reading (f : Frame) (r : Rx) : Rx :=
  if f.complete && f.acked && !f.bytes.isEmpty then readFrame f.bytes r else Rx.top

theorem addr_not_ctrl {b : Byte} (h : b &&& 0xFC#8 = 0xC0#8) : b &&& 0xF8#8 ≠ 0x88#8 := by
  revert b
  decide

/-- The receiver's two steps over a waiting frame are its reading of the frame (42 R182 to R186). -/
theorem takeFrame_reads {s : State} {bytes : List Byte} (h : s.rxInbox = some bytes) (ha : s.rxAddr = none) :
    takeFrame 2 s = .next (finishFrame s (readFrame bytes (rxOf s))) := by
  have data : ∀ (t : State) (p : BitVec 2) (pat : Byte), t.rxAddr = some p → t.rxInbox = some [pat] →
      takeFrame 1 t = .next (finishFrame t (setDisp (rxOf t) p pat)) := by
    intro t p pat hp hi
    simp only [takeFrame, hi, fetchBusByte, hp, decode]
    simp [exec, execSegmentData, hp, oneByteFrame, frameRest, rxOf, boundPair]
  have one : ∀ (t : State) (rest : List Byte) (r : Rx),
      oneByteFrame (takeByte t rest) r = finishFrame t (if rest = [] then r else Rx.top) := by
    intro t rest r
    by_cases hr : rest = [] <;> simp [oneByteFrame, frameRest, undefinedFrame, hr]
  have hrx : ∀ rest, rxOf (takeByte s rest) = rxOf s := fun rest => by simp [rxOf, boundPair]
  cases bytes with
  | nil =>
    unfold takeFrame
    rw [h]
    simp only [fetchBusByte, andThen_next]
    exact takeFrame_none rfl 1
  | cons b rest =>
    unfold takeFrame
    rw [h]
    simp only [fetchBusByte, ha]
    cases hd : decode (.command b) with
    | error e =>
      simp only [andThen_next]
      rw [takeFrame_none (by rfl) 1]
      congr 2
      simp only [decode, decodeCommand] at hd
      split at hd
      · cases hd
      split at hd
      · cases hd
      split at hd
      · cases hd
      split at hd
      · cases hd
      rename_i h1 h2 h3 h4
      rcases rest with _ | ⟨b', _ | ⟨b'', rest⟩⟩ <;> simp [readFrame, h1, h2, h3, h4, undefinedFrame]
    | ok i =>
      simp only [decode, decodeCommand] at hd
      split at hd
      · rename_i h1
        cases hd
        simp only [exec, execDataAuto, one, andThen_next, hrx]
        rw [takeFrame_none (by rfl) 1]
        subst h1
        rcases rest with _ | ⟨b', _ | ⟨b'', rest⟩⟩ <;> simp [readFrame]
      split at hd
      · rename_i h1 h2
        cases hd
        simp only [exec, execDataFixed, one, andThen_next, hrx]
        rw [takeFrame_none (by rfl) 1]
        subst h2
        rcases rest with _ | ⟨b', _ | ⟨b'', rest⟩⟩ <;> simp [readFrame]
      split at hd
      · rename_i h1 h2 h3
        cases hd
        have h4 := addr_not_ctrl h3
        simp only [exec, execAddr, frameRest, takeByte_rxInbox, Option.getD_some, hrx]
        rcases rest with _ | ⟨b', _ | ⟨b'', rest⟩⟩
        · simp only [List.length_nil, Nat.zero_ne_one, false_and, if_false, andThen_next]
          rw [takeFrame_none (by rfl) 1]
          simp [readFrame, h1, h2, h4, undefinedFrame]
        · by_cases hm : (rxOf s).mode = some .fixed
          · simp only [List.length_singleton, hm, and_self, if_true, andThen_next]
            rw [data _ (b.extractLsb' 0 2) b' rfl (by simp)]
            have hx : rxOf (addressPosition (takeByte s [b']) (b.extractLsb' 0 2)) = rxOf s := by simp [rxOf, boundPair]
            rw [hx]
            simp [readFrame, h3, hm]
          · simp only [hm, and_false, if_false, andThen_next]
            rw [takeFrame_none (by rfl) 1]
            simp [readFrame, hm, undefinedFrame]
        · simp only [List.length_cons, Nat.add_eq_right, Nat.add_eq_zero_iff, List.length_eq_zero_iff, one_ne_zero,
            and_false, false_and, if_false, andThen_next]
          rw [takeFrame_none (by rfl) 1]
          simp [readFrame, undefinedFrame]
      split at hd
      · rename_i h1 h2 h3 h4
        cases hd
        simp only [exec, execDisplayCtrl, one, andThen_next, hrx]
        rw [takeFrame_none (by rfl) 1]
        rcases rest with _ | ⟨b', _ | ⟨b'', rest⟩⟩ <;> simp [readFrame, h1, h2, h3, h4]
      · cases hd

/-- A line action that delivers a frame: the receiver on the bound lines reads it. -/
theorem act_delivers {s : State} (h : calm s) (a : LineAction) (rest : List PStep) {c v : Bit} {d : Decoder} {f : Frame}
    (hc : clkBus (applyAction a s.lines) s.obs = c) (hv : levelAfter a rest s = v)
    (hd : decodePair s.dec c v = (d, some f)) :
    ∃ u, wholeEntry (.act a) rest s = .next u ∧ ListDone [.act a] [.ev a c v, .w] s u ∧ u.dec = d ∧
      u.lines = applyAction a s.lines ∧ u.delivered = s.delivered ++ [f] ∧
      u.receivers = storeRx s.receivers (boundPair s) (reading f (rxOf s)) := by
  obtain ⟨u, hu, hdone⟩ := wholeEntry_act h a rest
  refine ⟨u, hu, ?_, ?_, hdone.lines, ?_, ?_⟩
  · have := hdone.listDone
    rwa [hc, hv] at this
  · have := hdone.dec
    rwa [hc, hv, hd] at this
  · have := hdone.delivered
    rw [hc, hv, hd] at this
    simpa using this
  · have hw := hu
    simp only [wholeEntry, actStep_calm h.2, hv, andThen_next, afterAct, hc] at hw
    have hb : busChange (recordAct a rest v s) c v = deliverFrame (setDecoder (recordAct a rest v s) d) f := by
      unfold busChange
      simp only [recordAct_dec, hd]
    rw [hb] at hw
    rcases deliverFrame_cases (setDecoder (recordAct a rest v s) d) f with ⟨h1, h2, h3, e⟩ | ⟨h1, e⟩
    · rw [e, takeFrame_reads (bytes := f.bytes) (by simp) (by simp), andThen_next] at hw
      simp only [waitStep, Host.Outcome.next.injEq] at hw
      subst hw
      have hr : reading f (rxOf s) = readFrame f.bytes (rxOf s) := by simp [reading, h1, h2, h3]
      rw [hr]
      simp [rxOf, boundPair]
    · have hin : (setRx (recordFrame (setDecoder (recordAct a rest v s) d) f) Rx.top).rxInbox = none := by
        simpa using h.1
      rw [e, takeFrame_none hin, andThen_next] at hw
      simp only [waitStep, Host.Outcome.next.injEq] at hw
      subst hw
      have hr : reading f (rxOf s) = Rx.top := by simp [reading, h1]
      simp [hr, boundPair]

/-- STOP_SEQ at a byte boundary of a frame delivers the frame (40 R115, 42 R175). -/
theorem stopSeq_closes {bits : List Bit} {bytes : List Byte} {acked : Bool} {s : State} (h : calm s)
    (hl : Low false .frame bits bytes acked s) (rest : List PStep) :
    ∃ u tr, runEntries stopSeq rest s = .next u ∧ ListDone stopSeq tr s u ∧ samplesOf tr = [] ∧ idleHigh u ∧
      u.delivered = s.delivered ++ [{ bytes := bytes, complete := bits.isEmpty, acked := acked }] ∧
      u.receivers = storeRx s.receivers (boundPair s)
        (reading { bytes := bytes, complete := bits.isEmpty, acked := acked } (rxOf s)) := by
  obtain ⟨s1, e1, w1, d1, l1⟩ := act_wave h (.clkSet false)
    (([.act .dioLow, .act (.clkSet true), .act .dioHigh] : List PStep) ++ rest) (c := false) (v := false)
    (by simp [hl.lines, applyAction, clkBus]) (by rw [levelAfter_driven] <;> simp [hl.lines, applyAction])
    (decodePair_low hl.prev false)
  have c1 := w1.list.calm h
  obtain ⟨s2, e2, w2, d2, l2⟩ := act_wave c1 .dioLow (([.act (.clkSet true), .act .dioHigh] : List PStep) ++ rest)
    (c := false) (v := false) (by simp [l1, hl.lines, applyAction, clkBus])
    (by rw [levelAfter_driven] <;> simp [l1, hl.lines, applyAction]) (decodePair_low (by rw [d1]) false)
  have c2 := w2.list.calm c1
  obtain ⟨s3, e3, w3, d3, l3⟩ := act_wave c2 (.clkSet true) (([.act .dioHigh] : List PStep) ++ rest)
    (c := true) (v := false) (by simp [l2, l1, hl.lines, applyAction, clkBus])
    (by rw [levelAfter_driven] <;> simp [l2, l1, hl.lines, applyAction]) (decodePair_rise (by rw [d2]) false)
  have c3 := w3.list.calm c2
  have b3 : s3.dec.phase = .frame ∧ s3.dec.bits = bits ∧ s3.dec.bytes = bytes ∧ s3.dec.acked = acked := by
    rw [d3, d2, d1]
    exact ⟨hl.phase, hl.bits, hl.bytes, hl.acked⟩
  obtain ⟨hp, hb, hy, hk⟩ := b3
  obtain ⟨s4, e4, w4, d4, l4, del4, rx4⟩ := act_delivers c3 .dioHigh (([] : List PStep) ++ rest)
    (c := true) (v := true) (d := { s3.dec with phase := .idle, hiDirty := true, prev := some (true, true) })
    (f := { bytes := bytes, complete := bits.isEmpty, acked := acked })
    (by simp [l3, l2, l1, hl.lines, applyAction, clkBus])
    (by rw [levelAfter_driven] <;> simp [l3, l2, l1, hl.lines, applyAction])
    (by
      have hpv : s3.dec.prev = some (true, false) := by rw [d3]
      simp [decodePair, hpv, dioEdge, stopCondition, clkEdge, hp, hb, hy, hk])
  have w123 := (w1.append w2).append w3
  refine ⟨s4, _, ?_, w123.list.append w4, rfl, ?_, ?_, ?_⟩
  · unfold stopSeq
    rw [runEntries_cons e1, runEntries_cons e2, runEntries_cons e3, runEntries_cons e4]
    rfl
  · refine ⟨?_, ?_, ?_⟩
    · rw [l4, l3, l2, l1, hl.lines]
      rfl
    · rw [d4]
    · rw [d4]
  · rw [del4, w123.delivered]
  · have hbp := w123.list.boundPair
    have hrx : rxOf s3 = rxOf s := by simp [rxOf, hbp, w123.receivers]
    rw [rx4, w123.receivers, hbp, hrx]

/-- STOP_SEQ outside a frame delivers nothing (40 R116, 42 R174). -/
theorem stopSeq_idle {latch : Bit} {bits : List Bit} {bytes : List Byte} {acked : Bool} {s : State} (h : calm s)
    (hl : Low latch .idle bits bytes acked s) (rest : List PStep) :
    ∃ u tr, runEntries stopSeq rest s = .next u ∧ Wave stopSeq tr s u ∧ samplesOf tr = [] ∧ idleHigh u := by
  obtain ⟨s1, e1, w1, d1, l1⟩ := act_wave h (.clkSet false)
    (([.act .dioLow, .act (.clkSet true), .act .dioHigh] : List PStep) ++ rest) (c := false) (v := latch)
    (by simp [hl.lines, applyAction, clkBus]) (by rw [levelAfter_driven] <;> simp [hl.lines, applyAction])
    (decodePair_low hl.prev latch)
  have c1 := w1.list.calm h
  obtain ⟨s2, e2, w2, d2, l2⟩ := act_wave c1 .dioLow (([.act (.clkSet true), .act .dioHigh] : List PStep) ++ rest)
    (c := false) (v := false) (by simp [l1, hl.lines, applyAction, clkBus])
    (by rw [levelAfter_driven] <;> simp [l1, hl.lines, applyAction]) (decodePair_low (by rw [d1]) false)
  have c2 := w2.list.calm c1
  obtain ⟨s3, e3, w3, d3, l3⟩ := act_wave c2 (.clkSet true) (([.act .dioHigh] : List PStep) ++ rest)
    (c := true) (v := false) (by simp [l2, l1, hl.lines, applyAction, clkBus])
    (by rw [levelAfter_driven] <;> simp [l2, l1, hl.lines, applyAction]) (decodePair_rise (by rw [d2]) false)
  have c3 := w3.list.calm c2
  have hp : s3.dec.phase = .idle := by
    rw [d3, d2, d1]
    exact hl.phase
  obtain ⟨s4, e4, w4, d4, l4⟩ := act_wave c3 .dioHigh (([] : List PStep) ++ rest)
    (c := true) (v := true) (d := { s3.dec with phase := .idle, hiDirty := true, prev := some (true, true) })
    (by simp [l3, l2, l1, hl.lines, applyAction, clkBus])
    (by rw [levelAfter_driven] <;> simp [l3, l2, l1, hl.lines, applyAction])
    (by
      have hpv : s3.dec.prev = some (true, false) := by rw [d3]
      simp [decodePair, hpv, dioEdge, stopCondition, clkEdge, hp])
  refine ⟨s4, _, ?_, ((w1.append w2).append w3).append w4, rfl, ?_⟩
  · unfold stopSeq
    rw [runEntries_cons e1, runEntries_cons e2, runEntries_cons e3, runEntries_cons e4]
    rfl
  · refine ⟨?_, ?_, ?_⟩
    · rw [l4, l3, l2, l1, hl.lines]
      rfl
    · rw [d4]
    · rw [d4]

/-! ### Frames -/

/-- A run from idle-high to idle-high that delivers one complete frame; `rs` are the answers of its bytes. -/
structure FrameDone (l : List PStep) (tr : List TraceEntry) (bytes : List Byte) (rs : List Bit) (s u : State) : Prop where
  list : ListDone l tr s u
  samples : samplesOf tr = rs
  idle : idleHigh u
  delivered : u.delivered = s.delivered ++ [{ bytes := bytes, complete := true, acked := !rs.any id }]
  receivers : u.receivers = storeRx s.receivers (boundPair s)
    (reading { bytes := bytes, complete := true, acked := !rs.any id } (rxOf s))
  absent : s.receiver = .absent → ∀ r ∈ rs, r = true
  reference : s.receiver = .reference → ∀ r ∈ rs, r = false

/-- CMD_FRAME(b) from idle-high (41 R139, 42 R177). -/
theorem cmdFrame_done {s : State} (h : calm s) (hi : idleHigh s) (b : Byte) (rest : List PStep) :
    ∃ u tr r, runEntries (cmdFrame b) rest s = .next u ∧ FrameDone (cmdFrame b) tr [b] [r] s u := by
  obtain ⟨s1, tr1, e1, w1, q1, l1⟩ := startSeq_opens h hi (byteSeq b ++ (stopSeq ++ rest))
  have c1 := w1.list.calm h
  obtain ⟨s2, tr2, r, e2, w2, -, -, q2, a2, f2, l2⟩ := byteSeq_wave c1 l1 (fun _ => rfl) b (stopSeq ++ rest)
  have c2 := w2.list.calm c1
  obtain ⟨s3, tr3, e3, w3, q3, i3, d3, x3⟩ := stopSeq_closes c2 l2 rest
  have w12 := w1.append w2
  have k1 : s1.receiver = s.receiver := w1.list.receiver
  refine ⟨s3, tr1 ++ tr2 ++ tr3, r, ?_, ?_⟩
  · unfold cmdFrame
    rw [List.append_assoc]
    exact runEntries_append_of (by rw [List.append_assoc]; exact e1) (runEntries_append_of e2 e3)
  · constructor
    · exact w12.list.append w3
    · simp [q1, q2, q3]
    · exact i3
    · rw [d3, w12.delivered]
      simp
    · have hbp := w12.list.boundPair
      have hrx : rxOf s2 = rxOf s := by simp [rxOf, hbp, w12.receivers]
      rw [x3, w12.receivers, hbp, hrx]
      simp
    · intro e r' hr'
      simp only [List.mem_singleton] at hr'
      rw [hr', a2 (by rw [k1, e])]
    · intro e r' hr'
      simp only [List.mem_singleton] at hr'
      rw [hr', f2 (by rw [k1, e])]
      rfl

/-- ADDR_FRAME(p, pat) from idle-high (41 R139, R147; 42 R177). -/
theorem addrFrame_done {s : State} (h : calm s) (hi : idleHigh s) (p : BitVec 2) (pat : Byte) (rest : List PStep) :
    ∃ u tr r1 r2, runEntries (addrFrame p pat) rest s = .next u ∧
      FrameDone (addrFrame p pat) tr [addrByte p, pat] [r1, r2] s u := by
  obtain ⟨s1, tr1, e1, w1, q1, l1⟩ :=
    startSeq_opens h hi (byteSeq (addrByte p) ++ (byteSeq pat ++ (stopSeq ++ rest)))
  have c1 := w1.list.calm h
  obtain ⟨s2, tr2, r1, e2, w2, -, -, q2, a2, f2, l2⟩ :=
    byteSeq_wave c1 l1 (fun _ => rfl) (addrByte p) (byteSeq pat ++ (stopSeq ++ rest))
  have c2 := w2.list.calm c1
  obtain ⟨s3, tr3, r2, e3, w3, -, -, q3, a3, f3, l3⟩ := byteSeq_wave c2 l2 (fun _ => rfl) pat (stopSeq ++ rest)
  have c3 := w3.list.calm c2
  obtain ⟨s4, tr4, e4, w4, q4, i4, d4, x4⟩ := stopSeq_closes c3 l3 rest
  have w123 := (w1.append w2).append w3
  have k1 : s1.receiver = s.receiver := w1.list.receiver
  have k2 : s2.receiver = s.receiver := w2.list.receiver.trans k1
  refine ⟨s4, tr1 ++ tr2 ++ tr3 ++ tr4, r1, r2, ?_, ?_⟩
  · unfold addrFrame
    simp only [List.append_assoc]
    refine runEntries_append_of (t := s1) ?_ (runEntries_append_of (t := s2) ?_ (runEntries_append_of e3 e4))
    · simp only [List.append_assoc]; exact e1
    · simp only [List.append_assoc]; exact e2
  · constructor
    · exact w123.list.append w4
    · simp [q1, q2, q3, q4]
    · exact i4
    · rw [d4, w123.delivered]
      simp
    · have hbp := w123.list.boundPair
      have hrx : rxOf s3 = rxOf s := by simp [rxOf, hbp, w123.receivers]
      rw [x4, w123.receivers, hbp, hrx]
      simp
    · intro e r' hr'
      simp only [List.mem_cons, List.not_mem_nil, or_false] at hr'
      rcases hr' with rfl | rfl
      · exact a2 (by rw [k1, e])
      · exact a3 (by rw [k2, e])
    · intro e r' hr'
      simp only [List.mem_cons, List.not_mem_nil, or_false] at hr'
      rcases hr' with rfl | rfl
      · rw [f2 (by rw [k1, e])]; rfl
      · rw [f3 (by rw [k2, e])]; rfl

/-! ### Acceptance -/

/-- A request that is accepted: its list, then `finish` (40 R105). -/
theorem request_accepted {i : Instr} {s : State} {l : List PStep} (h : exec i s = .next (loadList s l)) :
    request i s = andThen (runEntries l [] (loadList s l)) (fun u => .next (finishRequest u)) := by
  rw [request, h, andThen_next, ← runList_eq]
  rfl

theorem loadList_calm {s : State} (h : calm s) (l : List PStep) : calm (loadList s l) := by
  simpa [calm] using h

theorem loadList_idleHigh {s : State} (h : idleHigh s) (l : List PStep) : idleHigh (loadList s l) := by
  simpa [idleHigh] using h

/-- An open frame at a byte boundary, in the terms of this file. -/
theorem low_of_atByteBoundary {s : State} (h : atByteBoundary s) :
    Low false .frame [] s.dec.bytes s.dec.acked s :=
  ⟨h.1, h.2.1, h.2.2.1, h.2.2.2, rfl, rfl⟩

theorem atByteBoundary_of_low {bytes : List Byte} {acked : Bool} {s : State} (h : Low false .frame [] bytes acked s) :
    atByteBoundary s := ⟨h.lines, h.prev, h.phase, h.bits⟩

end Sys2Proof.Laws
end

