-- ==== Sys2Proof/Laws/Lists.lean ====
section
/-! SUPPORT. The step lists of the requests are well behaved (`listOk` of Safety.lean; spec 40 R106, R109, R110, 41 R139). -/

namespace Sys2Proof.Laws

open Sys2Proof.Machine

theorem listOk_startSeq (o e txn bound : Bool) (rest : List PStep) :
    listOk (startSeq ++ rest) ⟨true, o, true, e⟩ txn bound =
      listOk rest ⟨true, false, true, false⟩ (txn || (o && e)) bound := rfl

theorem listOk_stopSeq (o e txn bound : Bool) (rest : List PStep) :
    listOk (stopSeq ++ rest) ⟨true, o, true, e⟩ txn bound = listOk rest ⟨true, true, true, true⟩ false bound := by
  simp [stopSeq, listOk, actionOk, applyAction, txnAfter]

theorem listOk_bitSeq (v o e txn bound : Bool) (rest : List PStep) :
    listOk (bitSeq v ++ rest) ⟨true, o, true, e⟩ txn bound = listOk rest ⟨true, false, true, v && e⟩ txn bound := by
  cases v <;> simp [bitSeq, listOk, actionOk, applyAction, txnAfter]

theorem listOk_shiftedBitSeq (v o e txn bound : Bool) (rest : List PStep) :
    listOk (shiftedBitSeq v ++ rest) ⟨true, o, true, e⟩ txn bound =
      listOk rest ⟨true, false, true, v && e⟩ txn bound := by
  rw [shiftedBitSeq, List.append_assoc, listOk_bitSeq]
  rfl

theorem listOk_ackSeq (e txn bound : Bool) (rest : List PStep) :
    listOk (ackSeq ++ rest) ⟨true, false, true, e⟩ txn bound = listOk rest ⟨true, false, true, e⟩ txn bound := by
  simp [ackSeq, listOk, actionOk, applyAction, txnAfter]

theorem listOk_byteSeq (b : Byte) (o e txn bound : Bool) (rest : List PStep) :
    ∃ e', listOk (byteSeq b ++ rest) ⟨true, o, true, e⟩ txn bound = listOk rest ⟨true, false, true, e'⟩ txn bound := by
  apply Exists.intro
  unfold byteSeq
  simp only [List.append_assoc, List.cons_append, List.nil_append, listOk]
  rw [listOk_shiftedBitSeq, listOk_shiftedBitSeq, listOk_shiftedBitSeq, listOk_shiftedBitSeq, listOk_shiftedBitSeq,
    listOk_shiftedBitSeq, listOk_shiftedBitSeq, listOk_shiftedBitSeq, listOk_ackSeq]

theorem listOk_cmdFrame (b : Byte) (o e txn bound : Bool) (rest : List PStep) :
    listOk (cmdFrame b ++ rest) ⟨true, o, true, e⟩ txn bound = listOk rest ⟨true, true, true, true⟩ false bound := by
  unfold cmdFrame
  rw [List.append_assoc, List.append_assoc, listOk_startSeq]
  obtain ⟨e', h⟩ := listOk_byteSeq b false false (txn || (o && e)) bound (stopSeq ++ rest)
  rw [h, listOk_stopSeq]

theorem listOk_addrFrame (p : BitVec 2) (pat : Byte) (o e txn bound : Bool) (rest : List PStep) :
    listOk (addrFrame p pat ++ rest) ⟨true, o, true, e⟩ txn bound = listOk rest ⟨true, true, true, true⟩ false bound := by
  unfold addrFrame
  simp only [List.append_assoc]
  rw [listOk_startSeq]
  obtain ⟨e', h⟩ := listOk_byteSeq (addrByte p) false false (txn || (o && e)) bound (byteSeq pat ++ (stopSeq ++ rest))
  obtain ⟨e'', h'⟩ := listOk_byteSeq pat false e' (txn || (o && e)) bound (stopSeq ++ rest)
  rw [h, h', listOk_stopSeq]

theorem listOk_fourDigitFrames (p0 p1 p2 p3 : Byte) (o e txn bound : Bool) (rest : List PStep) :
    listOk (fourDigitFrames p0 p1 p2 p3 ++ rest) ⟨true, o, true, e⟩ txn bound =
      listOk rest ⟨true, true, true, true⟩ false bound := by
  unfold fourDigitFrames
  simp only [List.append_assoc]
  rw [listOk_cmdFrame, listOk_addrFrame, listOk_addrFrame, listOk_addrFrame, listOk_addrFrame]

/-- The lines of CONFIGURE, from any drivers if there is a Bind, from driven lines if not (40 R110, R111). -/
theorem listOk_bind {c d : Word} {l : Lines} {txn bound : Bool} (h : lineIdsValid c.toNat d.toNat = true)
    (rest : List PStep) :
    listOk (.bind c d :: .act (.clkSet true) :: .act .dioHigh :: rest) l txn bound =
      listOk rest ⟨true, true, true, true⟩ false true := by
  simp [listOk, h, actionOk, applyAction, undrive, txnAfter]

theorem listOk_redrive (o e txn bound : Bool) (rest : List PStep) :
    listOk (.act (.clkSet true) :: .act .dioHigh :: rest) ⟨true, o, true, e⟩ txn bound =
      listOk rest ⟨true, true, true, true⟩ false bound := by
  simp [listOk, actionOk, applyAction, txnAfter]

/-- The request's list is well behaved: from any drivers of a bound engine that are both on, and, for the two requests that
bind, from any drivers of an unbound one. -/
theorem exec_listOk {i : Instr} {s t : State} (hi : isRequest i = true) (hwf : i.wf = true)
    (hb : s.bound = true → s.lines.clkOe = true ∧ s.lines.dioOe = true)
    (hu : s.bound = false → s.lines.clkOe = false ∧ s.lines.dioOe = false) (he : exec i s = .next t) :
    listOk t.prog t.lines (inTxn t) t.bound = true := by
  have nil : ∀ txn, listOk [] s.lines txn s.bound = true := by
    intro txn
    cases h : s.bound with
    | true => simp [listOk, hb h]
    | false => simp [listOk, hu h]
  have rej : ∀ r, listOk (reject s r).prog (reject s r).lines (inTxn (reject s r)) (reject s r).bound = true := by
    intro r
    simpa using nil _
  have bnd : ∀ (body : Except Reject (List PStep)),
      (∀ l o e txn, body = .ok l → listOk l ⟨true, o, true, e⟩ txn true = true) →
      listOk (acceptRequest s (ifBound s body)).prog s.lines (inTxn s) s.bound = true := by
    intro body hbody
    unfold ifBound
    cases hbd : s.bound with
    | false =>
      rw [hbd] at nil
      simpa [acceptRequest] using nil (inTxn s)
    | true =>
      cases body with
      | error r =>
        rw [hbd] at nil
        simpa [acceptRequest] using nil (inTxn s)
      | ok l =>
        have hln : s.lines = ⟨true, s.lines.clkO, true, s.lines.dioLatch⟩ := by
          obtain ⟨h1, h2⟩ := hb hbd
          cases hl : s.lines
          simp_all
        rw [hln]
        simpa [acceptRequest] using hbody l _ _ _ rfl
  have fin : ∀ txn, listOk [] ⟨true, true, true, true⟩ txn true = true := fun _ => rfl
  have cfg : ∀ c d (tail : List PStep), c < 2 ^ 32 → d < 2 ^ 32 →
      (∀ txn, listOk tail ⟨true, true, true, true⟩ txn true = true) →
      ∀ l, configureBody s c d = .ok l → listOk (l ++ tail) s.lines (inTxn s) s.bound = true := by
    intro c d tail hc hd ht l hl
    unfold configureBody at hl
    split at hl
    · rename_i hv
      cases hl
      by_cases hs : (s.bound && decide (c = s.clkSel.toNat) && decide (d = s.dioSel.toNat)) = true
      · rw [if_pos hs]
        simp only [Bool.and_eq_true, decide_eq_true_eq] at hs
        have hln : s.lines = ⟨true, s.lines.clkO, true, s.lines.dioLatch⟩ := by
          obtain ⟨h1, h2⟩ := hb hs.1.1
          cases hl : s.lines
          simp_all
        rw [hln, hs.1.1]
        simp only [List.nil_append, List.cons_append]
        rw [listOk_redrive]
        exact ht false
      · rw [if_neg hs]
        simp only [List.nil_append, List.cons_append]
        rw [listOk_bind (by rw [BitVec.toNat_ofNat, BitVec.toNat_ofNat, Nat.mod_eq_of_lt hc, Nat.mod_eq_of_lt hd]; exact hv)]
        exact ht false
    · cases hl
  have four : ∀ (p0 p1 p2 p3 : Byte) (o e txn : Bool) (rest : List PStep),
      (∀ txn, listOk rest ⟨true, true, true, true⟩ txn true = true) →
      listOk (fourDigitFrames p0 p1 p2 p3 ++ rest) ⟨true, o, true, e⟩ txn true = true := by
    intro p0 p1 p2 p3 o e txn rest hr
    rw [listOk_fourDigitFrames]
    exact hr false
  cases i <;> simp only [isRequest, Bool.false_eq_true] at hi <;>
    (simp only [exec, Host.Outcome.next.injEq, execConfigure, execStart, execStop, execWriteBit, execWriteByte,
      execWriteCommand, execInitialize, execSetBrightness, execDisplayDigit, execDisplayNumber, execClearDisplay,
      execReserved0, execReserved7, execReservedD, execReservedE, execReservedF] at he
     subst he)
  all_goals try exact rej .illegal
  all_goals try simp only [acceptRequest_lines, acceptRequest_bound, acceptRequest_dec, inTxn, setDigits_prog,
    setDigits_lines, setDigits_bound, setDigits_dec]
  · rename_i c d
    simp only [Instr.wf, fitsUnsigned, Bool.and_eq_true, decide_eq_true_eq] at hwf
    cases hcf : configureBody s c d with
    | error r => simpa [acceptRequest, inTxn] using nil (inTxn s)
    | ok l => simpa [acceptRequest, inTxn] using cfg c d [] hwf.1 hwf.2 fin l hcf
  · exact bnd _ (fun l o e txn h => by
      cases h
      have := listOk_startSeq o e txn true []
      rw [List.append_nil] at this
      rw [this]
      rfl)
  · exact bnd _ (fun l o e txn h => by
      cases h
      have := listOk_stopSeq o e txn true []
      rw [List.append_nil] at this
      rw [this]
      rfl)
  · rename_i v
    exact bnd _ (fun l o e txn h => by
      cases h
      have := listOk_bitSeq v o e txn true []
      rw [List.append_nil] at this
      rw [this]
      rfl)
  · rename_i b
    exact bnd _ (fun l o e txn h => by
      cases h
      obtain ⟨e', h'⟩ := listOk_byteSeq b o e txn true [.update .latchAck]
      rw [h']
      rfl)
  · rename_i b
    exact bnd _ (fun l o e txn h => by
      cases h
      have := listOk_cmdFrame b o e txn true []
      rw [List.append_nil] at this
      rw [this]
      rfl)
  · rename_i c d
    simp only [Instr.wf, fitsUnsigned, Bool.and_eq_true, decide_eq_true_eq] at hwf
    unfold initializeBody
    cases hcf : configureBody s c d with
    | error r => simpa [acceptRequest, inTxn] using nil (inTxn s)
    | ok l =>
      have := cfg c d (clearBody ++ brightnessBody Config.brightMax) hwf.1 hwf.2 (fun txn => by
        unfold clearBody brightnessBody
        rw [listOk_fourDigitFrames]
        have := listOk_cmdFrame (ctrlByte (clampLevel Config.brightMax)) true true false true []
        rw [List.append_nil] at this
        rw [this]
        rfl) l hcf
      simpa [acceptRequest, inTxn] using this
  · rename_i lv
    exact bnd _ (fun l o e txn h => by
      cases h
      unfold brightnessBody
      have := listOk_cmdFrame (ctrlByte (clampLevel lv)) o e txn true []
      rw [List.append_nil] at this
      rw [this]
      rfl)
  · rename_i p d
    exact bnd _ (fun l o e txn h => by
      unfold digitBody at h
      split at h
      · cases h
        rw [listOk_cmdFrame]
        have := listOk_addrFrame (BitVec.ofInt 2 p) (segRom (BitVec.ofInt 4 d)) true true false true []
        rw [List.append_nil] at this
        rw [this]
        rfl
      · cases h)
  · rename_i v
    exact bnd _ (fun l o e txn h => by
      unfold numberBody at h
      split at h
      · cases h
        have := four (segRom (digitsOf v).d0) (segRom (digitsOf v).d1) (segRom (digitsOf v).d2) (segRom (digitsOf v).d3)
          o e txn [] fin
        rwa [List.append_nil] at this
      · cases h)
  · exact bnd _ (fun l o e txn h => by
      cases h
      have := four 0#8 0#8 0#8 0#8 o e txn [] fin
      rwa [List.append_nil] at this)

end Sys2Proof.Laws
end

