-- ==== Sys2Proof/Laws/PerInstr.lean ====
section
/-! SUPPORT. One lemma per instruction: a request, and nothing else, is encoded as a request word (spec 30 R70, R78). -/

namespace Sys2Proof.Laws

open Sys2Proof.Machine

/-- A request's code is a request word; a bus byte's is not (30 R70, R78). -/
def Kind.Statement (i : Instr) : Prop := (∃ w, encode i = .request w) ↔ isRequest i = true

theorem Kind.configure (c d : Nat) : Kind.Statement (.configure c d) := by simp [Kind.Statement, encode, isRequest]
theorem Kind.start : Kind.Statement .start := by simp [Kind.Statement, encode, isRequest]
theorem Kind.stop : Kind.Statement .stop := by simp [Kind.Statement, encode, isRequest]
theorem Kind.writeBit (v : Bit) : Kind.Statement (.writeBit v) := by simp [Kind.Statement, encode, isRequest]
theorem Kind.writeByte (b : Byte) : Kind.Statement (.writeByte b) := by simp [Kind.Statement, encode, isRequest]
theorem Kind.writeCommand (b : Byte) : Kind.Statement (.writeCommand b) := by simp [Kind.Statement, encode, isRequest]
theorem Kind.initializeDisplay (c d : Nat) : Kind.Statement (.initializeDisplay c d) := by
  simp [Kind.Statement, encode, isRequest]
theorem Kind.setBrightness (l : Int) : Kind.Statement (.setBrightness l) := by simp [Kind.Statement, encode, isRequest]
theorem Kind.displayDigit (p d : Int) : Kind.Statement (.displayDigit p d) := by
  simp [Kind.Statement, encode, isRequest]
theorem Kind.displayNumber (v : Int) : Kind.Statement (.displayNumber v) := by simp [Kind.Statement, encode, isRequest]
theorem Kind.clearDisplay : Kind.Statement .clearDisplay := by simp [Kind.Statement, encode, isRequest]
theorem Kind.reserved0 : Kind.Statement .reserved0 := by simp [Kind.Statement, encode, isRequest]
theorem Kind.reserved7 : Kind.Statement .reserved7 := by simp [Kind.Statement, encode, isRequest]
theorem Kind.reservedD : Kind.Statement .reservedD := by simp [Kind.Statement, encode, isRequest]
theorem Kind.reservedE : Kind.Statement .reservedE := by simp [Kind.Statement, encode, isRequest]
theorem Kind.reservedF : Kind.Statement .reservedF := by simp [Kind.Statement, encode, isRequest]
theorem Kind.dataAuto : Kind.Statement .dataAuto := by simp [Kind.Statement, encode, isRequest]
theorem Kind.dataFixed : Kind.Statement .dataFixed := by simp [Kind.Statement, encode, isRequest]
theorem Kind.addr (p : BitVec 2) : Kind.Statement (.addr p) := by simp [Kind.Statement, encode, isRequest]
theorem Kind.displayCtrl (l : BitVec 3) : Kind.Statement (.displayCtrl l) := by
  simp [Kind.Statement, encode, isRequest]
theorem Kind.segmentData (b : Byte) : Kind.Statement (.segmentData b) := by simp [Kind.Statement, encode, isRequest]

end Sys2Proof.Laws
end

