-- ==== Sys2Proof/Laws/Run.lean ====
section
/-! SUPPORT. What a run can do at its next step or move, and what is observed (spec 70 R238). -/

namespace Sys2Proof.Laws

open Sys2Proof.Machine

/-- The step that ends a run is its last. -/
theorem runSteps_of_ends {s : State} (h : endsRun s = true) (n : Nat) : runSteps (n + 1) s = step s := by
  simp [runSteps, h]

/-- A step that does not end the run is followed by the rest of it. -/
theorem runSteps_of_next {s t : State} (h : endsRun s = false) (hs : step s = .next t) (n : Nat) :
    runSteps (n + 1) s = runSteps n t := by
  simp [runSteps, h, hs, andThen]

/-- A fault ends a run. -/
theorem runSteps_of_fault {s : State} {f : Fault} (hs : step s = .fault f) (n : Nat) : runSteps (n + 1) s = .fault f := by
  cases h : endsRun s <;> simp [runSteps, h, hs, andThen]

/-- With no request left the host offers nothing. -/
theorem reqValid_of_noOfferLeft {s : State} (h : noOfferLeft s.hostMoves = true) : reqValid s = false := by
  cases hm : s.hostMoves with
  | nil => simp [reqValid, hm]
  | cons m ms => cases m <;> simp_all [reqValid, noOfferLeft]

/-- No request is left exactly if every move left is a pause. -/
theorem noOfferLeft_iff (ms : List HostMove) : noOfferLeft ms = true ↔ ∀ m ∈ ms, m = .pause := by
  induction ms with
  | nil => simp [noOfferLeft]
  | cons m ms ih => cases m <;> simp [noOfferLeft, ih]

/-- With no request left the run ends in the next cycle. -/
theorem runMoves_of_noOfferLeft {ms : List HostMove} (h : noOfferLeft ms = true) (s : State) :
    runMoves ms s = .next (idleCycle s) := by
  cases ms with
  | nil => rfl
  | cons m ms => cases m <;> simp_all [runMoves, noOfferLeft]

/-- With a request still to come a pause is an idle cycle of the run. -/
theorem runMoves_pause {ms : List HostMove} (h : noOfferLeft ms = false) (s : State) :
    runMoves (.pause :: ms) s = runMoves ms (idleCycle s) := by
  simp [runMoves, h]

/-- A run's first request, and then the rest of the run. -/
theorem run_offer {s : State} {op : BitVec 4} {a b : Word} {ms : List HostMove} (h : s.hostMoves = .offer op a b :: ms) :
    run s = andThen (acceptAndRun op a b s) (runMoves ms) := by
  simp [run, h, runMoves]

@[simp] theorem observe_trace (s : State) : (observe s).trace = s.trace := rfl
@[simp] theorem observe_status (s : State) : (observe s).status = statusWord s := rfl
@[simp] theorem observe_ackO (s : State) : (observe s).ackO = s.ackO := rfl
@[simp] theorem observe_lines (s : State) : (observe s).lines = s.lines := rfl
@[simp] theorem observe_delivered (s : State) : (observe s).delivered = s.delivered := rfl

/-- Under the reference receiver its state is observed. -/
theorem observe_receivers {s : State} (h : s.receiver = .reference) : (observe s).receivers = some s.receivers := by
  simp [observe, h]

end Sys2Proof.Laws
end

