-- ==== Sys2Proof/Laws/StepCases.lean ====
section
/-! SUPPORT. Everything one step of the machine can do, said once. -/

namespace Sys2Proof.Laws

open Sys2Proof.Machine

/-- The ways a step answers a next state. -/
inductive StepCase (s t : State) : Prop where
  /-- The receiver's reading of a frame is done. -/
  | frameRead (bytes : List Byte) (r : Rx) (inbox : s.rxInbox = some bytes) (eq : t = finishFrame s r)
  /-- The receiver has taken an address byte, with one byte after it. -/
  | addressed (p : BitVec 2) (b b' : Byte) (inbox : s.rxInbox = some [b, b']) (addr : s.rxAddr = none)
      (eq : t = addressPosition (takeByte s [b']) p)
  /-- Reset. -/
  | reset (inbox : s.rxInbox = none) (rst : rstHigh s = true) (eq : t = resetBlock (takeRst s))
  /-- The request in progress is done. -/
  | finish (inbox : s.rxInbox = none) (rst : rstHigh s = false) (busy : s.busy = true) (prog : s.prog = [])
      (eq : t = finishRequest (takeRst s))
  /-- A line action. -/
  | act (a : LineAction) (rest : List PStep) (v : Bit) (inbox : s.rxInbox = none) (rst : rstHigh s = false)
      (busy : s.busy = true) (prog : s.prog = .act a :: rest)
      (level : observeDio (takeRst s) (applyAction a s.lines) rest = .ok v) (eq : t = afterAct a rest v (takeRst s))
  /-- A settle wait. -/
  | wait (rest : List PStep) (inbox : s.rxInbox = none) (rst : rstHigh s = false) (busy : s.busy = true)
      (prog : s.prog = .wait :: rest) (eq : t = recordWait rest (takeRst s))
  /-- A sample. -/
  | sample (rest : List PStep) (v : Bit) (inbox : s.rxInbox = none) (rst : rstHigh s = false) (busy : s.busy = true)
      (prog : s.prog = .sample :: rest) (level : observeDio (takeRst s) s.lines rest = .ok v)
      (eq : t = recordSample rest v (takeRst s))
  /-- An internal update. -/
  | update (u : Update) (rest : List PStep) (inbox : s.rxInbox = none) (rst : rstHigh s = false) (busy : s.busy = true)
      (prog : s.prog = .update u :: rest) (eq : t = advance (applyUpdate (takeRst s) u) rest)
  /-- A binding. -/
  | bind (c d : Word) (rest : List PStep) (inbox : s.rxInbox = none) (rst : rstHigh s = false) (busy : s.busy = true)
      (prog : s.prog = .bind c d :: rest) (eq : t = recordBind c d rest (abandonTxn (takeRst s)))
  /-- The acceptance of the request the host offers. -/
  | accept (op : BitVec 4) (a b : Word) (ms : List HostMove) (inbox : s.rxInbox = none) (rst : rstHigh s = false)
      (busy : s.busy = false) (moves : s.hostMoves = .offer op a b :: ms)
      (eq : exec (decodeRequest op a b) (latchRequest (takeRst s) op a b) = .next t)
  /-- An idle cycle. -/
  | idle (inbox : s.rxInbox = none) (rst : rstHigh s = false) (busy : s.busy = false) (eq : t = idleCycle (takeRst s))

/-- Every step that answers a next state is one of these. -/
theorem step_cases {s t : State} (h : step s = .next t) : StepCase s t := by
  unfold step fetch at h
  cases hin : s.rxInbox with
  | some bytes =>
    simp only [hin] at h
    rcases fetchBusByte_cases s bytes with ⟨r, hr⟩ | ⟨i, b, rest, r, -, -, hf, hx⟩ | ⟨ha, p, b, b', rfl, hf, hx⟩
    · rw [hr] at h
      cases h
      exact .frameRead bytes r hin rfl
    · rw [hf] at h
      simp only [hx, Host.Outcome.next.injEq] at h
      exact .frameRead bytes r hin h.symm
    · rw [hf] at h
      simp only [hx, Host.Outcome.next.injEq] at h
      exact .addressed p b b' hin ha h.symm
  | none =>
    simp only [hin] at h
    by_cases hrst : rstHigh s = true
    · rw [if_pos hrst] at h
      simp only [Host.Outcome.next.injEq] at h
      exact .reset hin hrst h.symm
    rw [if_neg hrst] at h
    replace hrst : rstHigh s = false := by simpa using hrst
    by_cases hbusy : s.busy = true
    · rw [if_pos hbusy] at h
      simp only [engineStep, takeRst_prog] at h
      cases hp : s.prog with
      | nil =>
        simp only [hp, Host.Outcome.next.injEq] at h
        exact .finish hin hrst hbusy hp h.symm
      | cons e rest =>
        simp only [hp] at h
        cases e with
        | act a =>
          simp only [performEntry, actStep_eq, takeRst_lines] at h
          split at h
          · cases h
          · rename_i v hv
            cases h
            exact .act a rest v hin hrst hbusy hp hv rfl
        | wait =>
          simp only [performEntry, waitStep, Host.Outcome.next.injEq] at h
          exact .wait rest hin hrst hbusy hp h.symm
        | sample =>
          simp only [performEntry, sampleStep, takeRst_lines] at h
          split at h
          · cases h
          · rename_i v hv
            cases h
            exact .sample rest v hin hrst hbusy hp hv rfl
        | update u =>
          simp only [performEntry, updateStep, Host.Outcome.next.injEq] at h
          exact .update u rest hin hrst hbusy hp h.symm
        | bind c d =>
          simp only [performEntry, bindStep, Host.Outcome.next.injEq] at h
          exact .bind c d rest hin hrst hbusy hp h.symm
    · rw [if_neg hbusy] at h
      replace hbusy : s.busy = false := by simpa using hbusy
      simp only [fetchRequest, takeRst_hostMoves] at h
      split at h
      · rename_i i u hf
        split at hf
        · rename_i op a b ms hm
          cases hf
          exact .accept op a b ms hin hrst hbusy hm h
        · cases hf
        · cases hf
      · rename_i r hf
        split at hf
        · cases hf
        · cases hf
          cases h
          exact .idle hin hrst hbusy rfl
        · cases hf
          cases h
          exact .idle hin hrst hbusy rfl

end Sys2Proof.Laws
end

