-- ==== Sys2Proof/Tests/Slice0.lean ====
section
/-! SUPPORT. Tests. Expected results are those of spec/: the encoding tables of 30, the examples of 40 and 41, the vectors of
95. And a witness for every statement that has hypotheses. -/

namespace Sys2Proof.Tests

open Sys2Proof.Machine

/-! ### Small states -/

/-- After `CONFIGURE 0, 1`: bound, idle-high, the decoder in IDLE, the reference receiver. -/
def idleState : State :=
  { State.reset with
    bound := true, clkSel := 0#32, dioSel := 1#32
    lines := { clkOe := true, clkO := true, dioOe := true, dioLatch := true }
    dec := { Decoder.start with prev := some (true, true) }, receiver := .reference }

/-- After `START`: in a transaction, at a byte boundary. -/
def frameState : State :=
  { idleState with
    lines := { clkOe := true, clkO := false, dioOe := true, dioLatch := false }
    dec := { Decoder.start with phase := .frame, prev := some (false, false) } }

/-- The receiver on the bound lines is in fixed mode. -/
def fixedState : State := setRx idleState { Rx.top with mode := some .fixed }

/-- A busy engine with these steps left. -/
def busyState (l : List PStep) : State := { idleState with busy := true, prog := l }

/-- The trace of an outcome. -/
def traceOf (r : Result) : Option (List TraceEntry) := (nextState r).map State.trace

/-- The status word of an outcome. -/
def statusOf (r : Result) : Option (BitVec 8) := (nextState r).map statusWord

/-- The step list of an outcome. -/
def progOf (r : Result) : Option (List PStep) := (nextState r).map State.prog

/-! ### Well-formedness: an ill-formed term for each check -/

theorem test_wf_configure_clk : (Instr.configure (2 ^ 32) 0).wf = false := by decide
theorem test_wf_configure_dio : (Instr.configure 0 (2 ^ 32)).wf = false := by decide
theorem test_wf_initialize_clk : (Instr.initializeDisplay (2 ^ 32) 0).wf = false := by decide
theorem test_wf_initialize_dio : (Instr.initializeDisplay 0 (2 ^ 32)).wf = false := by decide
theorem test_wf_brightness_high : (Instr.setBrightness (2 ^ 31)).wf = false := by decide
theorem test_wf_brightness_low : (Instr.setBrightness (-2 ^ 31 - 1)).wf = false := by decide
theorem test_wf_digit_position : (Instr.displayDigit (2 ^ 31) 0).wf = false := by decide
theorem test_wf_digit_digit : (Instr.displayDigit 0 (-2 ^ 31 - 1)).wf = false := by decide
theorem test_wf_number : (Instr.displayNumber (2 ^ 31)).wf = false := by decide
/-- Display ranges are no part of well-formedness (30 R75). -/
theorem test_wf_out_of_range_is_well_formed : (Instr.displayNumber (-1)).wf = true := by decide

/-! ### Decoding: words written out bit by bit from 30 R70 to R72 and R80 to R83 -/

/-- A request word from its three fields. -/
def bitsWord (op : BitVec 4) (a b : BitVec 32) : Code := .request ((op ++ a) ++ b)

theorem test_decode_configure :
    decode (bitsWord 0b0001#4 0b00000000000000000000000000000010#32 0b00000000000000000000000000000011#32) =
      .ok (.configure 2 3) := by decide
/-- 95 V3: a line id is read whole. -/
theorem test_decode_configure_whole_id :
    decode (bitsWord 0b0001#4 0b10000000000000000000000000000001#32 0b00000000000000000000000000000000#32) =
      .ok (.configure 0x80000001 0) := by decide
theorem test_decode_start :
    decode (bitsWord 0b0010#4 0b11111111111111111111111111111111#32 0b11111111111111111111111111111111#32) =
      .ok .start := by decide
theorem test_decode_stop :
    decode (bitsWord 0b0011#4 0b00000000000000000000000000000000#32 0b00000000000000000000000000000000#32) =
      .ok .stop := by decide
theorem test_decode_write_bit :
    decode (bitsWord 0b0100#4 0b00000000000000000000000000000011#32 0b00000000000000000000000000000000#32) =
      .ok (.writeBit true) := by decide
/-- 95 V1: only A[0] counts. -/
theorem test_decode_write_bit_two :
    decode (bitsWord 0b0100#4 0b00000000000000000000000000000010#32 0b00000000000000000000000000000000#32) =
      .ok (.writeBit false) := by decide
theorem test_decode_write_byte :
    decode (bitsWord 0b0101#4 0b00010010001101000101011000111111#32 0b11011110101011011011111011101111#32) =
      .ok (.writeByte 0x3F#8) := by decide
theorem test_decode_write_command :
    decode (bitsWord 0b0110#4 0b00000000000000000000000101000100#32 0b00000000000000000000000000000000#32) =
      .ok (.writeCommand 0x44#8) := by decide
theorem test_decode_initialize :
    decode (bitsWord 0b1000#4 0b00000000000000000000000000000000#32 0b00000000000000000000000000000001#32) =
      .ok (.initializeDisplay 0 1) := by decide
theorem test_decode_set_brightness :
    decode (bitsWord 0b1001#4 0b11111111111111111111111111111111#32 0b00000000000000000000000000000000#32) =
      .ok (.setBrightness (-1)) := by decide
theorem test_decode_display_digit :
    decode (bitsWord 0b1010#4 0b00000000000000000000000000000011#32 0b00000000000000000000000000001001#32) =
      .ok (.displayDigit 3 9) := by decide
theorem test_decode_display_number :
    decode (bitsWord 0b1011#4 0b00000000000000000010011100001111#32 0b00000000000000000000000000000000#32) =
      .ok (.displayNumber 9999) := by decide
theorem test_decode_clear_display :
    decode (bitsWord 0b1100#4 0b00000000000000000000000000000000#32 0b00000000000000000000000000000000#32) =
      .ok .clearDisplay := by decide
theorem test_decode_reserved0 :
    decode (bitsWord 0b0000#4 0b00000000000000000000000000000000#32 0b00000000000000000000000000000000#32) =
      .ok .reserved0 := by decide
theorem test_decode_reserved7 :
    decode (bitsWord 0b0111#4 0b00000000000000000000000000000000#32 0b00000000000000000000000000000000#32) =
      .ok .reserved7 := by decide
theorem test_decode_reservedD :
    decode (bitsWord 0b1101#4 0b00000000000000000000000000000001#32 0b00000000000000000000000000000010#32) =
      .ok .reservedD := by decide
theorem test_decode_reservedE :
    decode (bitsWord 0b1110#4 0b00000000000000000000000000000001#32 0b00000000000000000000000000000010#32) =
      .ok .reservedE := by decide
theorem test_decode_reservedF :
    decode (bitsWord 0b1111#4 0b00000000000000000000000000000001#32 0b00000000000000000000000000000010#32) =
      .ok .reservedF := by decide
theorem test_decode_data_auto : decode (.command 0b01000000#8) = .ok .dataAuto := by decide
theorem test_decode_data_fixed : decode (.command 0b01000100#8) = .ok .dataFixed := by decide
theorem test_decode_addr : decode (.command 0b11000010#8) = .ok (.addr 0b10#2) := by decide
theorem test_decode_display_ctrl : decode (.command 0b10001101#8) = .ok (.displayCtrl 0b101#3) := by decide
/-- 30 R78: the place in the frame decides, not the value. -/
theorem test_decode_segment_data : decode (.data 0b01000000#8) = .ok (.segmentData 0b01000000#8) := by decide
/-- 30 R84: 0x80 is in no table. -/
theorem test_decode_unknown_command : decode (.command 0b10000000#8) = .error (.unknownCommand 0x80#8) := by decide

/-- 30 R71: the table's number of a request is its word, bit 0 lowest. -/
theorem test_table_word_configure : decodeTableWord 72 0x10000000200000003 = some (.configure 2 3) := by decide
theorem test_table_word_reserved : decodeTableWord 72 0xF0000000000000000 = some .reservedF := by decide
theorem test_table_word_too_wide : decodeTableWord 72 (2 ^ 68) = none := by decide
theorem test_table_word_command : decodeTableWord 8 0xC3 = some (.addr 3#2) := by decide
theorem test_table_word_data : decodeTableWord 8 0x3F = some (.segmentData 0x3F#8) := by decide

/-! ### A step runs the placed instruction, as the first after reset -/

theorem test_first_step_start : statusOf (step (State.reset.withFetchWord 72 0x20000000000000000)) = some 0x41#8 := by
  decide
theorem test_first_step_reserved : statusOf (step (State.reset.withFetchWord 72 0x70000000000000000)) = some 0x21#8 := by
  decide
theorem test_first_step_data_fixed :
    (nextState (step (State.reset.withFetchWord 8 0x44))).map rxOf = some { Rx.top with mode := some .fixed } := by decide
theorem test_first_step_segment_data :
    (nextState (step (State.reset.withFetchWord 8 0x3F))).map rxOf = some { Rx.top with disp0 := some 0x3F#8 } := by
  decide
/-- Bound and idle, the request placed is the one run. -/
theorem test_placed_stop :
    progOf (step (idleState.withFetchWord 72 0x30000000000000000)) =
      some [.act (.clkSet false), .act .dioLow, .act (.clkSet true), .act .dioHigh] := by decide

/-! ### Meanings: the vectors of 95 and the examples of 40 and 41 -/

/-- 95 V3, first row, on lines 0 and 1. -/
theorem test_configure_first_binding :
    traceOf (request (.configure 0 1) { State.reset with receiver := .reference }) =
      some [.bind 0#32 1#32, .ev (.clkSet true) true true, .w, .ev .dioHigh true true, .w] := by decide
/-- 95 V3: equal ids. -/
theorem test_configure_equal_ids : statusOf (request (.configure 1 1) State.reset) = some 0x10#8 := by decide
/-- 95 V3: the same pair inside a transaction ends the frame. -/
theorem test_configure_same_pair_in_frame :
    (nextState (request (.configure 0 1) frameState)).map State.delivered =
      some [{ bytes := [], complete := true, acked := true }] := by decide
/-- 95 V4, first row. -/
theorem test_start_from_idle_high :
    traceOf (request .start idleState) = some [.ev .dioLow true false, .w, .ev (.clkSet false) false false, .w] := by
  decide
/-- 95 V4: unbound. -/
theorem test_start_unbound : statusOf (request .start State.reset) = some 0x40#8 := by decide
/-- 95 V4, third row. -/
theorem test_stop_in_frame :
    traceOf (request .stop frameState) =
      some [.ev (.clkSet false) false false, .w, .ev .dioLow false false, .w, .ev (.clkSet true) true false, .w,
        .ev .dioHigh true true, .w] := by decide
/-- 95 V4, fourth row. -/
theorem test_stop_from_idle_high :
    traceOf (request .stop idleState) =
      some [.ev (.clkSet false) false true, .w, .ev .dioLow false false, .w, .ev (.clkSet true) true false, .w,
        .ev .dioHigh true true, .w] := by decide
/-- 95 V5, first row. -/
theorem test_write_bit_one_in_frame :
    traceOf (request (.writeBit true) frameState) =
      some [.ev (.clkSet false) false false, .w, .ev .dioRelease false true, .w, .ev (.clkSet true) true true, .w,
        .ev (.clkSet false) false true, .w, .ev .dioRestore false false, .w] := by decide
/-- 95 V5, last row. -/
theorem test_write_bit_one_from_idle_high :
    traceOf (request (.writeBit true) idleState) =
      some [.ev (.clkSet false) false true, .w, .ev .dioRelease false true, .w, .ev (.clkSet true) true true, .w,
        .ev (.clkSet false) false true, .w, .ev .dioRestore false true, .w] := by decide
/-- 95 V6: in a frame, the receiver acknowledges. -/
theorem test_write_byte_acknowledged : statusOf (request (.writeByte 0x3F#8) frameState) = some 0x06#8 := by decide
/-- 95 V6: outside a frame it does not. -/
theorem test_write_byte_outside_frame : statusOf (request (.writeByte 0x3F#8) idleState) = some 0x0A#8 := by decide
/-- 95 V7: the frame and the receiver's mode. -/
theorem test_write_command_frame :
    (nextState (request (.writeCommand 0x44#8) idleState)).map (fun u => (u.delivered.map content, (rxOf u).mode)) =
      some ([([0x44#8], true)], some .fixed) := by decide
/-- 41 R140: a first `INITIALIZE` begins with the binding of 40 R110. -/
theorem test_initialize_begins_with_configure :
    (progOf (exec (.initializeDisplay 0 1) State.reset)).map (fun l => l.take 4) =
      some [.bind 0#32 1#32, .act (.clkSet true), .act .dioHigh, .act .dioLow] := rfl
/-- 95 V11: equal ids reject all of it. -/
theorem test_initialize_equal_ids : statusOf (request (.initializeDisplay 1 1) State.reset) = some 0x10#8 := by decide
/-- 95 V8: -5 clamps to 0. -/
theorem test_set_brightness_clamps_low :
    progOf (exec (.setBrightness (-5)) idleState) = some (cmdFrame 0x88#8) := by decide
/-- 95 V8: 8 clamps to 7. -/
theorem test_set_brightness_clamps_high :
    progOf (exec (.setBrightness 8) idleState) = some (cmdFrame 0x8F#8) := by decide
/-- 95 V9. -/
theorem test_display_digit :
    progOf (exec (.displayDigit 2 7) idleState) = some (cmdFrame 0x44#8 ++ addrFrame 2#2 0x07#8) := rfl
/-- 95 V9: 259 is not read as 3. -/
theorem test_display_digit_259 : statusOf (request (.displayDigit 0 259) idleState) = some 0x12#8 := by decide
/-- 95 E4, V10. -/
theorem test_display_number_1234 :
    progOf (exec (.displayNumber 1234) idleState) =
      some (cmdFrame 0x44#8 ++ addrFrame 0#2 0x06#8 ++ addrFrame 1#2 0x5B#8 ++ addrFrame 2#2 0x4F#8 ++
        addrFrame 3#2 0x66#8) := rfl
/-- 95 V12: `Unbound` before `Range`. -/
theorem test_display_number_unbound : statusOf (request (.displayNumber 10000) State.reset) = some 0x40#8 := by decide
/-- 95 V11. -/
theorem test_clear_display :
    progOf (exec .clearDisplay idleState) =
      some (cmdFrame 0x44#8 ++ addrFrame 0#2 0#8 ++ addrFrame 1#2 0#8 ++ addrFrame 2#2 0#8 ++ addrFrame 3#2 0#8) := rfl
/-- 95 V12: `Illegal` whatever the binding. -/
theorem test_reserved_ops :
    [statusOf (request .reserved0 State.reset), statusOf (request .reserved7 State.reset),
      statusOf (request .reservedD idleState), statusOf (request .reservedE idleState),
      statusOf (request .reservedF State.reset)] =
      [some 0x20#8, some 0x20#8, some 0x22#8, some 0x22#8, some 0x20#8] := by decide
/-- 42 R182. -/
theorem test_data_auto :
    (nextState (exec .dataAuto (openFrame fixedState []))).map (fun u => (rxOf u).mode) = some (some .auto) := by decide
/-- 42 R183. -/
theorem test_addr_in_fixed_mode :
    (nextState (exec (.addr 2#2) (openFrame fixedState [0x7F#8]))).map State.rxAddr = some (some 2#2) := by decide
/-- 42 R186: an address frame outside fixed mode. -/
theorem test_addr_mode_unknown :
    (nextState (exec (.addr 2#2) (openFrame idleState [0x7F#8]))).map rxOf = some Rx.top := by decide
/-- 42 R184. -/
theorem test_display_ctrl :
    (nextState (exec (.displayCtrl 0#3) (openFrame fixedState []))).map (fun u => (rxOf u).ctrl) =
      some (some { on := true, level := 0#3 }) := by decide
/-- 42 R183: only the addressed position is written. -/
theorem test_segment_data :
    (nextState (exec (.segmentData 0x6F#8) (addressPosition (openFrame fixedState []) 3#2))).map rxOf =
      some { Rx.top with mode := some .fixed, disp3 := some 0x6F#8 } := by decide
/-- 95 V13. -/
theorem test_rom_port : segRom 10#4 = 0x00#8 ∧ segValid 9#4 = true ∧ segValid 10#4 = false := by decide
/-- 95 V14: nine bits, the ninth the ACK slot. -/
theorem test_nine_bits_make_a_byte : groupBytes [false, false, true, false, false, false, true, false, true] = [0x44#8] := by
  decide

/-- A machine with the host's moves. -/
def offering (s : State) (ms : List HostMove) : State := { s with hostMoves := ms }

/-- `START`, `STOP` offered to a receiver in fixed mode. -/
def startStopRun : State := offering fixedState [.offer 2#4 0 0, .offer 3#4 0 0]

/-- 95 V14, third row, as a run of two requests (70 R238): its end has `busy`, `done` and `req_valid` 0, one empty complete
frame, and the receiver unknown. -/
theorem test_run_start_stop :
    (nextState (run startStopRun)).map (fun u => (u.busy, u.done, reqValid u)) = some (false, false, false) ∧
      (nextState (run startStopRun)).map (fun u => (u.delivered.map content, (observe u).receivers.map List.isEmpty)) =
        some ([([], true)], some true) := by decide
/-- 70 R238: pauses after the last request are no part of the run: it ends in the cycle after the `done`, and the `rst` in
them does not cut it (status BOUND and REJECTED, not 0x00). -/
theorem test_run_ends_before_pauses :
    statusOf (runSteps 9 { offering idleState [.offer 1#4 0 0, .pause, .pause, .pause] with
      rstIn := [false, false, false, true] }) = some 0x12#8 := by decide
/-- 70 R222, R238, as 95 P7: `rst` inside a transaction cuts the run; no frame, the receiver unknown. -/
theorem test_run_cut_by_reset :
    (observed (runSteps 9 { offering fixedState [.offer 2#4 0 0] with rstIn := [false, false, false, true] })).map
        (fun o => (o.status, o.lines, o.delivered, o.receivers.map List.isEmpty)) =
      some (0#8, { clkOe := false, clkO := true, dioOe := false, dioLatch := true }, [], some true) := by decide

/-! ### Witnesses: states and operands that meet the hypotheses of the statements -/

/-- Lines 0 and 1 are always in range and different. -/
theorem witness_valid_ids : ¬ outOfRange (.configure 0 1) ∧ ¬ outOfRange (.initializeDisplay 0 1) := by
  simp [outOfRange, Config.numLines]

/-- `DecodeInvertsEncode`, at the ends of the fields. -/
theorem witness_DecodeInvertsEncode :
    (Instr.configure (2 ^ 32 - 1) 0).wf = true ∧ (Instr.displayNumber (-2 ^ 31)).wf = true ∧
      (Instr.displayDigit (2 ^ 31 - 1) 0).wf = true := by decide

/-- `DigitDecomposition`, at both ends. -/
theorem witness_DigitDecomposition : (0 : Int) ≤ 0 ∧ (0 : Int) ≤ 9999 ∧ (9999 : Int) ≤ 9999 := by decide

/-- `RequestCounts`, one request of each kind, at the ends of its range. -/
theorem witness_RequestCounts :
    ∀ i ∈ [Instr.configure 0 1, .start, .stop, .writeBit true, .writeByte 0xFF#8, .writeCommand 0#8,
        .initializeDisplay 0 1, .setBrightness (-1), .displayDigit 0 0, .displayDigit 3 9, .displayNumber 0,
        .displayNumber 9999, .clearDisplay],
      (∃ t, exec i idleState = .next t) ∧ ∀ r, ¬ rejectedFor i idleState r := by
  intro i hi
  refine ⟨?_, ?_⟩
  · cases i <;> exact ⟨_, rfl⟩
  · fin_cases hi <;> intro r <;> cases r <;>
      simp [rejectedFor, isReserved, needsBinding, isRequest, outOfRange, idleState, Config.numLines]

/-- `ResetWinsAndAbandons`: in a transaction, and between requests. -/
theorem witness_ResetWinsAndAbandons :
    ∀ s ∈ [{ frameState with rstIn := [true] }, { idleState with rstIn := [true], hostMoves := [.offer 2#4 0 0] }],
      s.rxInbox = none ∧ rstHigh s = true ∧ receiversWf s.receivers = true := by decide

theorem witness_ResetWinsAndAbandons_transaction : inTxn frameState = true ∧ inTxn idleState = false := by decide

/-- `StepRunsDecodedInstruction`, a request. -/
theorem witness_StepRuns_request :
    (offering idleState [.offer 2#4 0 0]).rxInbox = none ∧ rstHigh (offering idleState [.offer 2#4 0 0]) = false ∧
      (offering idleState [.offer 2#4 0 0]).busy = false ∧
      (offering idleState [.offer 2#4 0 0]).hostMoves = .offer 2#4 0 0 :: [] := by decide

/-- `StepRunsDecodedInstruction`, a command byte. -/
theorem witness_StepRuns_command :
    (openFrame idleState [0x44#8]).rxInbox = some (0x44#8 :: []) ∧ (openFrame idleState [0x44#8]).rxAddr = none ∧
      decode (.command 0x44#8) = .ok .dataFixed := by decide

/-- `StepRunsDecodedInstruction`, a data byte. -/
theorem witness_StepRuns_data :
    (addressPosition (openFrame idleState [0x3F#8]) 3#2).rxInbox = some (0x3F#8 :: []) ∧
      (addressPosition (openFrame idleState [0x3F#8]) 3#2).rxAddr = some 3#2 := by decide

/-- `StepRunsDecodedInstruction`, a byte of no table. -/
theorem witness_StepRuns_unknown :
    (openFrame idleState [0x00#8]).rxInbox = some (0x00#8 :: []) ∧ (openFrame idleState [0x00#8]).rxAddr = none ∧
      decode (.command 0x00#8) = .error (.unknownCommand 0x00#8) ∧
      receiversWf (openFrame idleState [0x00#8]).receivers = true := by decide

/-- `LineActionEffects`, `StepNeverStopsWithoutRogue`: a receiver of each lawful kind. -/
theorem witness_not_rogue :
    idleState.receiver ≠ .rogue ∧ State.reset.receiver ≠ .rogue ∧ { idleState with receiver := .absent }.receiver ≠ .rogue := by
  decide

/-- `DriversChangeOnlyByActions`, `TraceOnlyGrows`: a step by an action, a binding, a reset, and an idle one. -/
theorem witness_steps :
    (∃ t, step idleState = .next t) ∧ (∃ t, step (busyState [.act .dioLow]) = .next t) ∧
      (∃ t, step (busyState [.bind 2#32 3#32]) = .next t) ∧ (∃ t, step { frameState with rstIn := [true] } = .next t) :=
  ⟨⟨_, rfl⟩, ⟨_, rfl⟩, ⟨_, rfl⟩, ⟨_, rfl⟩⟩

/-- `calm`, the premise of most statements. -/
theorem witness_calm : calm idleState ∧ calm frameState ∧ calm State.reset := by
  unfold calm
  decide

/-- `WaitFollowsEveryAction`, its three clauses; `StepIndexCountsSteps`, its second. -/
theorem witness_WaitFollowsEveryAction :
    ∀ e ∈ [PStep.act .dioRelease, .wait, .sample],
      (busyState [e]).busy = true ∧ (busyState [e]).rxInbox = none ∧ (busyState [e]).receiver ≠ .rogue ∧
        rstHigh (busyState [e]) = false ∧ (busyState [e]).prog = e :: [] := by decide

theorem witness_StepIndexCountsSteps_step : ∃ t, step (busyState [.wait]) = .next t := ⟨_, rfl⟩

/-- `RequestLevelAgreesWithSteps`, its clause on runs: a run of two requests, with its end; a host with pauses only. -/
theorem witness_RequestLevelAgreesWithSteps_run :
    startStopRun.rxInbox = none ∧
      startStopRun.rstIn = [] ∧
      startStopRun.busy = false ∧
      (∃ u, run startStopRun = .next u) ∧ noOfferLeft (offering idleState [.pause]).hostMoves = true :=
  ⟨rfl, rfl, rfl, ⟨_, rfl⟩, rfl⟩

/-- `StepIndexCountsSteps`, its first and third clauses; `RequestLevelAgreesWithSteps`, its first. -/
theorem witness_StepIndexCountsSteps :
    isRequest .start = true ∧ idleState.rxInbox = none ∧ idleState.rstIn = [] ∧ (∃ t, exec .start idleState = .next t) ∧
      ∃ u, request .start idleState = .next u :=
  ⟨rfl, rfl, rfl, ⟨_, rfl⟩, ⟨_, rfl⟩⟩

/-- `FinishPulsesDone`, with nothing offered after it. -/
theorem witness_FinishPulsesDone :
    (busyState []).rxInbox = none ∧ (busyState []).rstIn = [] ∧ (busyState []).busy = true ∧ (busyState []).prog = [] ∧
      (busyState []).hostMoves = [] := by decide

/-- A busy engine under a rogue receiver, DIO released with CLK high, having read what the receiver does not do now. -/
def rogueState (l : List PStep) : State :=
  { busyState l with
    receiver := .rogue, lines := { clkOe := true, clkO := true, dioOe := false, dioLatch := false }
    dec := { Decoder.start with prev := some (true, Config.dioPull 0) } }

/-- `RogueReceiverFaults`: an action and a sample; the change while CLK is high; DIO driven, where the free pull alone
decides on a contention; and DIO released by the action itself, with no fault. -/
theorem witness_RogueReceiverFaults :
    (∀ e ∈ [PStep.act (.clkSet false), .sample],
      (rogueState [e]).receiver = .rogue ∧ (rogueState [e]).rxInbox = none ∧ rstHigh (rogueState [e]) = false ∧
        (rogueState [e]).busy = true ∧ (rogueState [e]).prog = e :: []) ∧
    changesWhileHigh (rogueState [.sample]) (rogueState [.sample]).lines ∧
    (contends (busyState []) idleState.lines ↔ Config.dioPull 0 = true) ∧
    (¬ contends (busyState []) (applyAction .dioRelease idleState.lines) ∧
      ¬ changesWhileHigh (busyState []) (applyAction .dioRelease idleState.lines)) := by
  refine ⟨?_, ⟨rfl, rfl, rfl⟩, ?_, ?_⟩
  · intro e he
    fin_cases he <;> exact ⟨rfl, rfl, rfl, rfl, rfl⟩
  · simp [contends, idleState, busyState, State.reset]
  · simp [contends, changesWhileHigh, idleState, busyState, applyAction]

/-- `RogueReceiverFaults`, its last clause: a step that faults. -/
theorem witness_RogueReceiverFaults_fault : ∃ f, step (rogueState [.sample]) = .fault f := by
  refine ⟨.envSpuriousCondition, ?_⟩
  cases h : Config.dioPull 0 <;>
    simp [step, fetch, rogueState, busyState, idleState, State.reset, rstHigh, takeRst, engineStep, performEntry, sampleStep,
      observeDio, heldLevel, releasedLevel, Decoder.start, h]

/-- `StepKeepsInvariant`: a state in the middle of a request, in a transaction. -/
theorem witness_StepKeepsInvariant :
    Machine.Inv { frameState with bound := false, busy := true, prog := [.bind 0#32 1#32, .act (.clkSet true), .act .dioHigh] } ∧
    ∃ t, step { frameState with bound := false, busy := true, prog := [.bind 0#32 1#32, .act (.clkSet true), .act .dioHigh] } =
      .next t := by
  refine ⟨?_, ⟨_, rfl⟩⟩
  constructor
  · decide
  · intro h; exact absurd h (by decide)
  · intro h; exact absurd h (by decide)
  · simp [listOk, lineIdsValid, Config.numLines, actionOk, applyAction, undrive, txnAfter]
  · exact ⟨rfl, rfl, fun _ => rfl, fun h => absurd h (by decide)⟩
  · intro _; rfl
  · exact .inl rfl
  · decide
  · decide
  · intro h; exact absurd h (by decide)
  · intro _; rfl
  · intro h; exact absurd h (by decide)

/-- `EveryRunKeepsBindingAndDrivers`, unbound; and the start of every run. -/
theorem witness_reachable_unbound : ∃ s, reachable s ∧ s.busy = false ∧ s.bound = false :=
  ⟨State.reset, ⟨State.reset, 0, ⟨rfl, rfl⟩, rfl⟩, rfl, rfl⟩

/-- `EveryRunKeepsBindingAndDrivers`, bound: `CONFIGURE 0, 1` from reset. -/
theorem witness_reachable_bound : ∃ s, reachable s ∧ s.busy = false ∧ s.bound = true := by
  refine ⟨_, ⟨offering { State.reset with receiver := .reference } [.offer 1#4 0#32 1#32], 7, ⟨rfl, rfl⟩, rfl⟩, ?_, ?_⟩
  · rfl
  · rfl

/-- `EveryRunKeepsOpenDrain`: `CONFIGURE 0, 1`, then the first action of `START`. -/
theorem witness_reachable_transaction : ∃ s, reachable s ∧ inTxn s = true := by
  refine ⟨_, ⟨offering { State.reset with receiver := .reference } [.offer 1#4 0#32 1#32, .offer 2#4 0#32 0#32], 9,
    ⟨rfl, rfl⟩, rfl⟩, ?_⟩
  rfl

/-- `EveryRunKeepsRejectsExclusive`: each reject. -/
theorem witness_reachable_rejects :
    (∃ s, reachable s ∧ s.rejected = true) ∧ (∃ s, reachable s ∧ s.illegal = true) ∧ ∃ s, reachable s ∧ s.unbound = true :=
  ⟨⟨_, ⟨offering State.reset [.offer 1#4 1#32 1#32], 1, ⟨rfl, rfl⟩, rfl⟩, rfl⟩,
    ⟨_, ⟨offering State.reset [.offer 7#4 0#32 0#32], 1, ⟨rfl, rfl⟩, rfl⟩, rfl⟩,
    ⟨_, ⟨offering State.reset [.offer 2#4 0#32 0#32], 1, ⟨rfl, rfl⟩, rfl⟩, rfl⟩⟩

/-- `ConfigureBindsAndDrivesHigh`: the bound pair, in a transaction and out of one, and another; a first binding. -/
theorem witness_ConfigureBindsAndDrivesHigh :
    (State.reset.bound = false ∧ inTxn State.reset = false) ∧ (inTxn frameState = true ∧ inTxn idleState = false) ∧
    (idleState.bound = true ∧ 0 = idleState.clkSel.toNat ∧ 1 = idleState.dioSel.toNat) ∧
      ¬ (State.reset.bound = true ∧ 0 = State.reset.clkSel.toNat ∧ 1 = State.reset.dioSel.toNat) := by decide

/-- `RebindingAbandonsOpenTransaction`: the lines the other way round, in a transaction and out of one. -/
theorem witness_RebindingAbandonsOpenTransaction :
    ¬ outOfRange (.configure 1 0) ∧ frameState.bound = true ∧ (1 ≠ frameState.clkSel.toNat ∨ 0 ≠ frameState.dioSel.toNat) ∧
      receiversWf frameState.receivers = true ∧ inTxn frameState = true ∧ inTxn idleState = false := by
  refine ⟨by simp [outOfRange, Config.numLines], ?_⟩
  decide

/-- The premises on the lines: idle-high, driven, and at a byte boundary of a frame. `ConfigureSamePairClosesFrame`,
`StartCompletes`, `StopCompletes`, `WriteBitCompletes`, `ByteGoesOutLsbFirst`, `WriteByteExtendsFrame`,
`WriteCommandCornerCases`, `LineStateAfterEachRequest`, and the headline results. -/
theorem witness_lines :
    idleHigh idleState ∧ driven idleState ∧ inTxn idleState = false ∧ atByteBoundary frameState ∧ driven frameState ∧
      inTxn frameState = true ∧ frameState.lines.dioLatch = false ∧ idleState.bound = true ∧ frameState.bound = true := by
  unfold idleHigh driven atByteBoundary
  decide

/-- `ConfigureSamePairClosesFrame`: the bound pair is in range. -/
theorem witness_ConfigureSamePairClosesFrame :
    ¬ outOfRange (.configure frameState.clkSel.toNat frameState.dioSel.toNat) := by
  simp [outOfRange, Config.numLines, frameState, idleState]

/-- `StartWithoutIdleHighMakesNoCondition`. -/
theorem witness_StartWithoutIdleHigh :
    frameState.lines.clkOe = true ∧ frameState.lines.clkO = false ∧ ∃ v, frameState.dec.prev = some (false, v) :=
  ⟨rfl, rfl, false, rfl⟩

/-- `WriteBitCompletes`, its last clauses: no receiver; a frame before its eighth bit. -/
theorem witness_WriteBitCompletes :
    ({ idleState with receiver := .absent } : State).receiver = .absent ∧ frameState.lines.clkO = false ∧
      frameState.dec.bits.length < 8 := by decide

/-- `DisplayDigitCompletes`, `DisplayNumberCompletes`: both ends of each range. -/
theorem witness_display_ranges :
    ((0 : Int) ≤ 0 ∧ (3 : Int) ≤ 3 ∧ (0 : Int) ≤ 3 ∧ (9 : Int) ≤ 9 ∧ (0 : Int) ≤ 9) ∧ (0 : Int) ≤ 9999 ∧
      (9999 : Int) ≤ 9999 := by decide

/-- `RejectsAsTabled`: each reason. -/
theorem witness_RejectsAsTabled :
    (isRequest .reserved7 = true ∧ rejectedFor .reserved7 State.reset .illegal) ∧
      (isRequest .start = true ∧ rejectedFor .start State.reset .unbound) ∧
      (isRequest (.displayNumber 10000) = true ∧ rejectedFor (.displayNumber 10000) idleState .range) ∧
      (isRequest (.displayDigit 4 0) = true ∧ rejectedFor (.displayDigit 4 0) idleState .range) ∧
      (isRequest (.configure 1 1) = true ∧ rejectedFor (.configure 1 1) State.reset .range) ∧
      (isRequest (.displayNumber 10000) = true ∧ rejectedFor (.displayNumber 10000) State.reset .unbound) := by
  simp [rejectedFor, isRequest, isReserved, needsBinding, outOfRange, idleState, State.reset]

/-- `OneByteCommandsComplete`. -/
theorem witness_OneByteCommandsComplete :
    frameRest (openFrame idleState []) = [] ∧ receiversWf (openFrame idleState []).receivers = true := by decide

/-- `AddressAndDataComplete`, both clauses. -/
theorem witness_AddressAndDataComplete :
    ((openFrame fixedState [0x3F#8]).rxInbox = some [0x3F#8] ∧ (rxOf (openFrame fixedState [0x3F#8])).mode = some .fixed) ∧
      (frameRest (addressPosition (openFrame fixedState []) 3#2) = [] ∧
        (addressPosition (openFrame fixedState []) 3#2).rxAddr = some 3#2 ∧
        receiversWf (addressPosition (openFrame fixedState []) 3#2).receivers = true) := by decide

/-- `UndefinedFramesMakeReceiverUnknown`: each form of the first clause, and each kind of frame of the second. -/
theorem witness_UndefinedFrames :
    frameRest (openFrame idleState [0#8]) ≠ [] ∧ (frameRest (openFrame fixedState [])).length ≠ 1 ∧
      (rxOf (openFrame idleState [0#8])).mode ≠ some .fixed ∧ (openFrame fixedState []).rxAddr = none ∧
      ({ bytes := [0#8], complete := false, acked := true } : Frame).complete = false ∧
      ({ bytes := [], complete := true, acked := true } : Frame).bytes = [] ∧
      ({ bytes := [0#8], complete := true, acked := false } : Frame).acked = false ∧
      receiversWf (openFrame fixedState []).receivers = true := by decide

/-- `ReceiverReadsWholeFrame`; the store of a display with one receiver known. -/
theorem witness_ReceiverReadsWholeFrame : receiversWf fixedState.receivers = true ∧ fixedState.receivers ≠ [] := by decide

/-- `EachRequestPutsItsFramesOnTheWire`: a sequencer request, `STOP`, and a rejected one. -/
theorem witness_EachRequestPutsItsFramesOnTheWire :
    ∀ i ∈ [Instr.displayNumber 9999, .stop, .reserved0, .displayDigit 4 0],
      i.wf = true ∧ isRequest i = true ∧ i ≠ .start ∧ (∀ v, i ≠ .writeBit v) ∧ ∀ b, i ≠ .writeByte b := by
  intro i hi
  fin_cases hi <;> refine ⟨by decide, by decide, by decide, ?_, ?_⟩ <;> intro _ h <;> cases h

/-- `DisplayShowsWhatWasAsked`. -/
theorem witness_DisplayShowsWhatWasAsked :
    idleState.rxInbox = none ∧ idleState.receiver = .reference ∧ idleState.bound = true ∧
      receiversWf idleState.receivers = true := by decide

/-- `InitializeBootsTheDisplay`: a clean entry with the reference receiver. -/
theorem witness_InitializeBootsTheDisplay :
    cleanEntry { State.reset with receiver := .reference } ∧
      ({ State.reset with receiver := .reference } : State).receiver = .reference := ⟨⟨rfl, rfl⟩, rfl⟩

/-- `NoReceiverNoAcknowledgment`: a request of each kind, and `INITIALIZE` on other lines. -/
theorem witness_NoReceiverNoAcknowledgment :
    ({ idleState with receiver := .absent } : State).rxInbox = none ∧
      ({ idleState with receiver := .absent } : State).receiver = .absent ∧
      ∀ i ∈ [Instr.configure 0 1, .start, .stop, .writeBit true, .writeByte 0xFF#8, .writeCommand 0#8,
          .initializeDisplay 1 0, .setBrightness (-1), .displayDigit 3 9, .displayNumber 9999, .clearDisplay],
        isRequest i = true ∧ ∀ r, ¬ rejectedFor i { idleState with receiver := .absent } r := by
  refine ⟨rfl, rfl, ?_⟩
  intro i hi
  fin_cases hi <;> refine ⟨rfl, ?_⟩ <;> intro r <;> cases r <;>
    simp [rejectedFor, isReserved, needsBinding, isRequest, outOfRange, idleState, Config.numLines]

/-- `WaveformIndependentOfReceiver`: two different receivers. -/
theorem witness_WaveformIndependentOfReceiver :
    ∀ s ∈ [idleState, { idleState with receiver := .absent }],
      (s.rxInbox = none ∧ s.receiver ≠ .rogue) ∧ s.bound = idleState.bound ∧ s.clkSel = idleState.clkSel ∧
        s.dioSel = idleState.dioSel ∧ s.lines = idleState.lines := by decide

/-- `RequestTiming`: a request that runs, and a rejected one. -/
theorem witness_RequestTiming :
    ((∃ t, exec (decodeRequest 2#4 0 0) (latchRequest idleState 2#4 0 0) = .next t) ∧
        ∃ u, acceptAndRun 2#4 0 0 idleState = .next u) ∧
      ((∃ t, exec (decodeRequest 7#4 0 0) (latchRequest idleState 7#4 0 0) = .next t) ∧
        ∃ u, acceptAndRun 7#4 0 0 idleState = .next u) :=
  ⟨⟨⟨_, rfl⟩, ⟨_, rfl⟩⟩, ⟨_, rfl⟩, ⟨_, rfl⟩⟩

end Sys2Proof.Tests
end

section
/-! PROOFS. What every step keeps of the observations a run collects (spec 00 R13, 20 R64). -/

namespace Sys2Proof.Proofs

open Sys2Proof.Machine Sys2Proof.Laws

/-! ### The trace and the delivered frames after an action, a reset and an acceptance -/

@[simp] theorem afterAct_trace (a : LineAction) (rest : List PStep) (v : Bit) (s : State) :
    (afterAct a rest v s).trace = s.trace ++ [.ev a (clkBus (applyAction a s.lines) s.obs) v] := by
  simp [afterAct]

@[simp] theorem afterAct_delivered (a : LineAction) (rest : List PStep) (v : Bit) (s : State) :
    (afterAct a rest v s).delivered =
      s.delivered ++ (decodePair s.dec (clkBus (applyAction a s.lines) s.obs) v).2.toList := by
  simp [afterAct]

@[simp] theorem resetBlock_trace (s : State) : (resetBlock s).trace = s.trace := rfl
@[simp] theorem resetBlock_delivered (s : State) : (resetBlock s).delivered = s.delivered := rfl

/-- Whatever its op code, the host's offer is a request and no bus byte (30 R75). -/
theorem isRequest_decodeRequest (op : BitVec 4) (a b : Word) : isRequest (decodeRequest op a b) = true := by
  unfold decodeRequest
  split <;> rfl

/-- Acceptance, of a request or of a reserved op code, leaves lines, bus, decoder, receivers, trace and delivered frames
as they were. -/
theorem exec_decodeRequest_keepsBus {op : BitVec 4} {a b : Word} {s t : State}
    (h : exec (decodeRequest op a b) s = .next t) : keepsBus s t := by
  obtain ⟨-, -, -, -, -, -, -, -, -, -, hbus, -⟩ := exec_request_frame (isRequest_decodeRequest op a b) h
  exact hbus

/-- Settles O19: each kind of step leaves both lists alone or appends to one of them; a line action appends its event and
whatever frame the decoder then delivers. -/
theorem traceOnlyGrows : Obligations.TraceOnlyGrows := by
  intro s t h
  cases step_cases h with
  | frameRead _ _ _ eq | addressed _ _ _ _ _ eq | reset _ _ eq | finish _ _ _ _ eq | update _ _ _ _ _ _ eq
  | idle _ _ _ eq =>
    -- Nothing is recorded.
    subst eq
    simp
  | act _ _ _ _ _ _ _ _ eq | wait _ _ _ _ _ eq | sample _ _ _ _ _ _ _ eq | bind _ _ _ _ _ _ _ eq =>
    -- An entry of the step list that has an observation of its own (00 R13).
    subst eq
    simp
  | accept _ _ _ _ _ _ _ _ eq =>
    obtain ⟨-, -, -, -, -, htrace, hdelivered, -⟩ := exec_decodeRequest_keepsBus eq
    simp [htrace, hdelivered]

end Sys2Proof.Proofs
end

section
/-! PROOFS. The machine's invariant: it holds at every clean entry, every step keeps it, and so it holds of every reachable
state (spec 10 R24, R31, R38, R39; 42 R170, R171; 60 R211). -/

namespace Sys2Proof.Proofs

open Sys2Proof.Machine Sys2Proof.Laws

/-! ### What an observation of DIO can read -/

/-- A driven DIO reads the latch, whatever the receiver. -/
theorem observeDio_driven {s : State} {l : Lines} {rest : List PStep} {v : Bit}
    (h : observeDio s l rest = .ok v) (hl : l.dioOe = true) : v = l.dioLatch := by
  unfold observeDio at h
  split at h
  · rw [if_pos hl] at h
    split at h <;> cases h
    rfl
  · rw [if_pos hl] at h
    cases h
    rfl

/-- A released DIO reads 1 with no receiver, and the reference receiver's answer with it (42 R181). -/
theorem observeDio_released {s : State} {l : Lines} {rest : List PStep} {v : Bit}
    (h : observeDio s l rest = .ok v) (hl : l.dioOe = false) :
    (s.receiver = .absent → v = true) ∧ (s.receiver = .reference → v = !refPulls s) := by
  have calmRead : s.receiver ≠ .rogue → v = releasedLevel s rest := by
    intro hr
    rw [observeDio_calm hr, hl] at h
    cases h
    rfl
  obtain ⟨habsent, href⟩ := releasedLevel_known s rest
  constructor
  · intro hk
    rw [calmRead (by simp [hk]), habsent hk]
  · intro hk
    rw [calmRead (by simp [hk]), href hk]

/-- A DIO released before and after keeps the level it had with CLK high: the reference and the absent receiver because
their answer is the same, the lawful one by 42 R176, the rogue one because anything else is a fault (60 R206). -/
theorem observeDio_held {s : State} {l : Lines} {rest : List PStep} {v v0 : Bit}
    (h : observeDio s l rest = .ok v) (hl : l.dioOe = false) (ho : s.lines.dioOe = false)
    (hp : s.dec.prev = some (true, v0)) (ha : s.receiver = .absent → v0 = true)
    (hf : s.receiver = .reference → v0 = !refPulls s) : v = v0 := by
  by_cases hr : s.receiver = .rogue
  · have hheld : heldLevel s = some v0 := by simp [heldLevel, ho, hp]
    simp only [observeDio, hr, hl, hheld, Bool.false_eq_true, if_false] at h
    split at h <;> cases h
    rfl
  · rw [observeDio_calm hr, hl] at h
    cases h
    exact releasedLevel_steady hr ho hp ha hf

/-! ### What a bus pair does to `rx_phase` -/

/-- A DIO change with CLK high, and nothing else, moves `rx_phase`: down it is a start, up a stop (42 R172). -/
theorem dioEdge_phase (d : Decoder) (c0 v0 v : Bit) :
    (dioEdge d c0 v0 v).1.phase =
      if c0 && v0 && !v then .frame else if c0 && !v0 && v then .idle else d.phase := by
  cases c0 <;> cases v0 <;> cases v <;> rfl

/-- `in_txn` after a line action, by the pair the decoder saw before it. -/
theorem inTxn_afterAct_of_prev {s : State} {c0 v0 : Bit} (hp : s.dec.prev = some (c0, v0)) (a : LineAction)
    (rest : List PStep) (v : Bit) :
    inTxn (afterAct a rest v s) = ((inTxn s || (c0 && v0 && !v)) && !(c0 && !v0 && v)) := by
  have hphase : (afterAct a rest v s).dec.phase = (dioEdge s.dec c0 v0 v).1.phase := by
    simp [afterAct, decodePair, hp, clkEdge_phase]
  unfold inTxn
  rw [hphase, dioEdge_phase]
  cases c0 <;> cases v0 <;> cases v <;> simp

/-- With CLK and DIO as they were, CLK high, the decoder sees nothing. -/
theorem decodePair_steady {d : Decoder} {v : Bit} (h : d.prev = some (true, v)) : decodePair d true v = (d, none) := by
  obtain ⟨_, _, _, _, _, _, prev⟩ := d
  subst h
  simp [decodePair, dioEdge, clkEdge]

/-! ### The bus part of the invariant -/

/-- The decoder is in step with the bus (42 R170), and inside a transaction the DIO latch is 0 (10 R39). -/
structure BusInv (s : State) : Prop where
  coherent : busCoherent s
  latch : inTxn s = true → s.lines.dioLatch = false

theorem busInv_congr {s t : State} (h : BusInv s) (hl : t.lines = s.lines) (hd : t.dec = s.dec)
    (hr : t.receiver = s.receiver) : BusInv t where
  coherent := by
    have := h.coherent
    simpa [busCoherent, refPulls, hl, hd, hr] using this
  latch := by
    have := h.latch
    simpa [inTxn, hl, hd] using this

/-- While CLK is driven the decoder has seen a pair: CLK as driven, and a DIO that is the latch, or what the receiver
holds. -/
theorem busCoherent_pair {s : State} (h : busCoherent s) (ho : s.lines.clkOe = true) :
    ∃ v0, s.dec.prev = some (s.lines.clkO, v0) ∧ (s.lines.dioOe = true → v0 = s.lines.dioLatch) ∧
      (s.lines.dioOe = false → s.lines.clkO = true →
        (s.receiver = .absent → v0 = true) ∧ (s.receiver = .reference → v0 = !refPulls s)) := by
  unfold busCoherent at h
  split at h
  · rw [ho] at h
    cases h.1
  · rename_i c v0 hp
    obtain ⟨-, rfl, hdrv, hrel⟩ := h
    exact ⟨v0, hp, hdrv, hrel⟩

/-- While CLK is not driven the decoder has seen no pair and stands in IDLE. -/
theorem busCoherent_undriven {s : State} (h : busCoherent s) (ho : s.lines.clkOe = false) :
    s.dec.prev = none ∧ s.dec.phase = .idle := by
  unfold busCoherent at h
  split at h
  · exact ⟨‹_›, h.2⟩
  · rw [ho] at h
    cases h.1

theorem actionOk_clkOe {a : LineAction} {l : Lines} {txn : Bool} (h : actionOk a l txn = true) :
    (applyAction a l).clkOe = true := by
  cases a <;> simp_all [actionOk, applyAction]

/-- A well-behaved action that leaves CLK high and DIO released is a rise of CLK, with DIO released before it. -/
theorem actionOk_highReleased {a : LineAction} {l : Lines} {txn : Bool} (h : actionOk a l txn = true)
    (hc : (applyAction a l).clkO = true) (hd : (applyAction a l).dioOe = false) :
    a = .clkSet true ∧ l.dioOe = false := by
  cases a <;> simp_all [actionOk, applyAction]

/-- A level of CLK alone makes no condition: DIO reads what it read while CLK was high (42 R172). -/
theorem inTxn_afterAct_clkSet {s : State} {w v : Bit} {rest : List PStep} (h : busCoherent s)
    (hv : observeDio s (applyAction (.clkSet w) s.lines) rest = .ok v) :
    inTxn (afterAct (.clkSet w) rest v s) = inTxn s := by
  cases ho : s.lines.clkOe with
  | false =>
    obtain ⟨hp, -⟩ := busCoherent_undriven h ho
    simp [afterAct, inTxn, decodePair, hp]
  | true =>
    obtain ⟨v0, hp, hdrv, hrel⟩ := busCoherent_pair h ho
    rw [inTxn_afterAct_of_prev hp]
    cases hc : s.lines.clkO with
    | false => simp
    | true =>
      have hsame : v = v0 := by
        cases hd : s.lines.dioOe with
        | true => rw [hdrv hd]; exact observeDio_driven hv hd
        | false =>
          obtain ⟨ha, hf⟩ := hrel hd hc
          exact observeDio_held hv hd hd (hc ▸ hp) ha hf
      subst hsame
      cases v <;> simp

/-- A well-behaved action opens and closes a transaction exactly as `txnAfter` says (42 R172). -/
theorem inTxn_afterAct {s : State} {a : LineAction} {rest : List PStep} {v : Bit} (h : BusInv s)
    (hok : actionOk a s.lines (inTxn s) = true) (hv : observeDio s (applyAction a s.lines) rest = .ok v) :
    inTxn (afterAct a rest v s) = txnAfter a s.lines (inTxn s) := by
  cases a with
  | clkSet w => exact inTxn_afterAct_clkSet h.coherent hv
  | dioLow =>
    simp only [actionOk, Bool.and_eq_true, Bool.or_eq_true, Bool.not_eq_true'] at hok
    obtain ⟨hclk, hdio⟩ := hok
    obtain ⟨v0, hp, hdrv, -⟩ := busCoherent_pair h.coherent hclk
    have hlow : v = false := observeDio_driven hv rfl
    rw [inTxn_afterAct_of_prev hp, hlow]
    rcases hdio with hd | hc
    · simp [txnAfter, hdrv hd]
    · simp [txnAfter, hc]
  | dioHigh =>
    simp only [actionOk, Bool.and_eq_true, Bool.or_eq_true, Bool.not_eq_true'] at hok
    obtain ⟨hclk, htxn⟩ := hok
    obtain ⟨v0, hp, hdrv, -⟩ := busCoherent_pair h.coherent hclk
    have hhigh : v = true := observeDio_driven hv rfl
    rw [inTxn_afterAct_of_prev hp, hhigh]
    cases ht : inTxn s with
    | false => simp [txnAfter]
    | true =>
      -- The latch was 0 with CLK high, so this is a stop condition.
      rcases htxn with hn | ⟨hc, hd⟩
      · rw [ht] at hn
        cases hn
      · simp [txnAfter, hdrv hd, h.latch ht, hc]
  | dioRelease | dioRestore =>
    simp only [actionOk, Bool.and_eq_true, Bool.not_eq_true'] at hok
    obtain ⟨hclk, hc⟩ := hok
    obtain ⟨v0, hp, -, -⟩ := busCoherent_pair h.coherent hclk
    simp [inTxn_afterAct_of_prev hp, txnAfter, hc]

/-- A rise of CLK with DIO released commits nothing, so the reference receiver's answer stays. -/
theorem refPulls_afterAct_rise {s : State} {rest : List PStep} {v : Bit} (h : busCoherent s)
    (hd : s.lines.dioOe = false) (hv : observeDio s (applyAction (.clkSet true) s.lines) rest = .ok v) :
    refPulls (afterAct (.clkSet true) rest v s) = refPulls s := by
  have hdec : (afterAct (.clkSet true) rest v s).dec = (decodePair s.dec true v).1 := by
    simp [afterAct, clkBus, applyAction]
  have hsame : (decodePair s.dec true v).1.phase = s.dec.phase ∧ (decodePair s.dec true v).1.bits = s.dec.bits := by
    cases ho : s.lines.clkOe with
    | false =>
      obtain ⟨hp, -⟩ := busCoherent_undriven h ho
      simp [decodePair, hp]
    | true =>
      obtain ⟨v0, hp, -, hrel⟩ := busCoherent_pair h ho
      cases hc : s.lines.clkO with
      | false =>
        rw [hc] at hp
        simp [decodePair_rise hp]
      | true =>
        obtain ⟨ha, hf⟩ := hrel hd hc
        rw [hc] at hp
        have hheld : v = v0 := observeDio_held hv hd hd hp ha hf
        simp [hheld, decodePair_steady hp]
  simp [refPulls, hdec, hsame]

/-- A well-behaved line action keeps the bus part of the invariant, whatever the receiver answers. -/
theorem busInv_afterAct {s : State} {a : LineAction} {rest : List PStep} {v : Bit} (h : BusInv s)
    (hok : actionOk a s.lines (inTxn s) = true) (hv : observeDio s (applyAction a s.lines) rest = .ok v) :
    BusInv (afterAct a rest v s) where
  coherent := by
    have hclk := actionOk_clkOe hok
    have hprev : (afterAct a rest v s).dec.prev = some ((applyAction a s.lines).clkO, v) := by
      simp [afterAct, clkBus, hclk]
    have hlines : (afterAct a rest v s).lines = applyAction a s.lines := by simp [afterAct]
    have hrcv : (afterAct a rest v s).receiver = s.receiver := by simp [afterAct]
    unfold busCoherent
    rw [hprev]
    simp only [hlines, hrcv]
    refine ⟨hclk, trivial, observeDio_driven hv, fun hd hc => ?_⟩
    obtain ⟨rfl, hd0⟩ := actionOk_highReleased hok hc hd
    rw [refPulls_afterAct_rise h.coherent hd0 hv]
    exact observeDio_released hv hd
  latch := by
    rw [inTxn_afterAct h hok hv]
    have hlines : (afterAct a rest v s).lines = applyAction a s.lines := by simp [afterAct]
    rw [hlines]
    cases a with
    | clkSet _ | dioRelease | dioRestore => exact h.latch
    | dioLow => exact fun _ => rfl
    | dioHigh => exact fun ht => absurd ht Bool.false_ne_true

/-! ### Each operation of a step keeps the invariant -/

theorem inv_busInv {s : State} (h : Inv s) : BusInv s := ⟨h.bus, h.latch⟩

/-- While an entry is left, no reject bit is set (10 R31). -/
theorem inv_notRejected {s : State} (h : Inv s) {e : PStep} {rest : List PStep} (hp : s.prog = e :: rest) :
    anyReject s ≠ true := by
  intro hr
  obtain ⟨hnil, -, -⟩ := h.rejectsQuiet hr
  rw [hp] at hnil
  cases hnil

/-- The timer is 0 unless a settle wait is next (60 R211). -/
theorem inv_waitCnt {s : State} (h : Inv s) (hp : s.prog.head? ≠ some .wait) : s.waitCnt = 0 :=
  h.timer.resolve_right fun ht => hp ht.2

theorem inv_takeRst {s : State} (h : Inv s) : Inv (takeRst s) := { h with }

theorem inv_finishFrame {s : State} (h : Inv s) (r : Rx) : Inv (finishFrame s r) :=
  { h with
    receivers := receiversWf_storeRx h.receivers _ r
    addressed := fun _ => rfl }

theorem inv_addressPosition {s : State} (h : Inv s) (rest : List Byte) (p : BitVec 2) :
    Inv (addressPosition (takeByte s rest) p) :=
  { h with addressed := fun hin => nomatch hin }

/-- Abandoning a transaction keeps the canonical form of the receivers' store. -/
theorem receiversWf_abandonTxn {s : State} (h : receiversWf s.receivers = true) :
    receiversWf (abandonTxn s).receivers = true := by
  unfold abandonTxn
  split
  · exact receiversWf_storeRx h _ _
  · exact h

/-- The block and the decoder as 10 R40 has them meet the invariant, whatever has been observed so far and whatever the
host and the receiver will do. -/
theorem inv_reset {tr : List TraceEntry} {frames : List Frame} {m : Receivers} {kind : ReceiverKind}
    {moves : List HostMove} {rst : List Bool} {n cycles : Nat} (h : receiversWf m = true) :
    Inv { State.reset with
          trace := tr, delivered := frames, receivers := m, receiver := kind, hostMoves := moves, rstIn := rst
          obs := n, cycles := cycles } where
  receivers := h
  binding := fun hb => nomatch hb
  idleEmpty := fun _ => rfl
  list := rfl
  bus := ⟨rfl, rfl⟩
  latch := fun ht => nomatch ht
  timer := .inl rfl
  bits := Nat.zero_le 8
  rejects := rfl
  rejectsQuiet := fun hr => nomatch hr
  addressed := fun _ => rfl
  donePulse := fun hd => nomatch hd

theorem inv_resetBlock {s : State} (h : Inv s) : Inv (resetBlock s) := inv_reset (receiversWf_abandonTxn h.receivers)

theorem inv_cleanEntry {s : State} (h : cleanEntry s) : Inv s := by
  obtain ⟨hwf, hs⟩ := h
  rw [hs]
  exact inv_reset hwf

theorem inv_finishRequest {s : State} (h : Inv s) (hp : s.prog = []) : Inv (finishRequest s) :=
  { h with
    idleEmpty := fun _ => hp
    rejectsQuiet := fun hr =>
      let ⟨_, hreq, _⟩ := h.rejectsQuiet hr
      ⟨hp, hreq, hreq⟩
    donePulse := fun _ => rfl }

theorem inv_idleCycle {s : State} (h : Inv s) : Inv (idleCycle s) :=
  { h with donePulse := fun hd => nomatch hd }

theorem afterAct_receiversWf {s : State} (h : receiversWf s.receivers = true) (a : LineAction) (rest : List PStep)
    (v : Bit) : receiversWf (afterAct a rest v s).receivers = true := by
  unfold afterAct
  rcases busChange_cases (recordAct a rest v s) (clkBus (applyAction a s.lines) s.obs) v with ⟨-, e⟩ | ⟨f, -, e⟩
  · rw [e]
    exact h
  · rw [e]
    rcases deliverFrame_cases (setDecoder (recordAct a rest v s) _) f with ⟨-, -, -, e'⟩ | ⟨-, e'⟩
    · rw [e']
      exact h
    · rw [e']
      exact receiversWf_storeRx h _ _

/-- A frame delivered by an action waits with no position addressed yet. -/
theorem afterAct_addressed {s : State} (h : s.rxAddr = none) (a : LineAction) (rest : List PStep) (v : Bit) :
    (afterAct a rest v s).rxAddr = none := by
  unfold afterAct
  rcases busChange_cases (recordAct a rest v s) (clkBus (applyAction a s.lines) s.obs) v with ⟨-, e⟩ | ⟨f, -, e⟩
  · rw [e]
    exact h
  · rw [e]
    rcases deliverFrame_cases (setDecoder (recordAct a rest v s) _) f with ⟨-, -, -, e'⟩ | ⟨-, e'⟩
    · rw [e']
      rfl
    · rw [e']
      exact h

theorem inv_afterAct {s : State} (h : Inv s) {a : LineAction} {rest : List PStep} {v : Bit} (hin : s.rxInbox = none)
    (hb : s.busy = true) (hp : s.prog = .act a :: rest) (hv : observeDio s (applyAction a s.lines) rest = .ok v) :
    Inv (afterAct a rest v s) := by
  have hlist := h.list
  rw [hp] at hlist
  simp only [listOk, Bool.and_eq_true] at hlist
  obtain ⟨hok, hrest⟩ := hlist
  have hbus := busInv_afterAct (inv_busInv h) hok hv
  exact
    { receivers := afterAct_receiversWf h.receivers a rest v
      binding := by simpa [afterAct] using h.binding
      idleEmpty := by simp [afterAct, hb]
      list := by
        rw [inTxn_afterAct (inv_busInv h) hok hv]
        simpa [afterAct, listOk] using hrest
      bus := hbus.coherent
      latch := hbus.latch
      timer := .inr (by simp [afterAct])
      bits := by simpa [afterAct] using decodePair_bits h.bits _ _
      rejects := by simpa [afterAct, rejectsExclusive] using h.rejects
      rejectsQuiet := fun hr => absurd (by simpa [afterAct, anyReject] using hr) (inv_notRejected h hp)
      addressed := fun _ => afterAct_addressed (h.addressed hin) a rest v
      donePulse := by simpa [afterAct] using h.donePulse }

theorem inv_recordWait {s : State} (h : Inv s) {rest : List PStep} (hb : s.busy = true) (hp : s.prog = .wait :: rest) :
    Inv (recordWait rest s) := by
  have hlist : listOk rest s.lines (inTxn s) s.bound = true := by simpa [hp, listOk] using h.list
  have hrej := inv_notRejected h hp
  exact
    { h with
      idleEmpty := fun hn => absurd (hb.symm.trans hn) Bool.noConfusion
      list := hlist
      timer := .inl rfl
      rejectsQuiet := fun hr => absurd hr hrej }

theorem inv_recordSample {s : State} (h : Inv s) {rest : List PStep} (hb : s.busy = true)
    (hp : s.prog = .sample :: rest) (v : Bit) : Inv (recordSample rest v s) := by
  have hlist : listOk rest s.lines (inTxn s) s.bound = true := by simpa [hp, listOk] using h.list
  have hrej := inv_notRejected h hp
  have hwait := inv_waitCnt h (by simp [hp])
  exact
    { h with
      idleEmpty := fun hn => absurd (hb.symm.trans hn) Bool.noConfusion
      list := hlist
      timer := .inl hwait
      rejectsQuiet := fun hr => absurd hr hrej }

/-- An internal update touches the byte write's registers and `ack_o` alone, of which the invariant does not speak. -/
theorem inv_update {s : State} (h : Inv s) {u : Update} {rest : List PStep} (hb : s.busy = true)
    (hp : s.prog = .update u :: rest) : Inv (advance (applyUpdate s u) rest) := by
  have hlist : listOk rest s.lines (inTxn s) s.bound = true := by simpa [hp, listOk] using h.list
  have hrej := inv_notRejected h hp
  have hwait := inv_waitCnt h (by simp [hp])
  cases u <;> exact
    { h with
      idleEmpty := fun hn => absurd (hb.symm.trans hn) Bool.noConfusion
      list := hlist
      timer := .inl hwait
      rejectsQuiet := fun hr => absurd hr hrej }

theorem inv_abandonTxn {s : State} (h : Inv s) : Inv (abandonTxn s) := by
  unfold abandonTxn
  split
  · exact { h with receivers := receiversWf_storeRx h.receivers _ _ }
  · exact h

theorem inv_recordBind {s : State} (h : Inv s) {c d : Word} {rest : List PStep} (hb : s.busy = true)
    (hp : s.prog = .bind c d :: rest) : Inv (recordBind c d rest s) := by
  have hlist := h.list
  rw [hp] at hlist
  simp only [listOk, Bool.and_eq_true] at hlist
  obtain ⟨hids, hrest⟩ := hlist
  have hrej := inv_notRejected h hp
  have hwait := inv_waitCnt h (by simp [hp])
  exact
    { h with
      binding := fun _ => hids
      idleEmpty := fun hn => absurd (hb.symm.trans hn) Bool.noConfusion
      list := hrest
      bus := ⟨rfl, rfl⟩
      latch := fun ht => nomatch ht
      timer := .inl hwait
      bits := Nat.zero_le 8
      rejectsQuiet := fun hr => absurd hr hrej }

/-! ### Acceptance -/

/-- Every operand of an offered request fits its field (30 R72). -/
theorem wf_decodeRequest (op : BitVec 4) (a b : Word) : (decodeRequest op a b).wf = true := by
  have hunsigned : ∀ w : Word, fitsUnsigned w.toNat = true := fun w => decide_eq_true w.isLt
  have hsigned : ∀ w : Word, fitsSigned w.toInt = true := fun w =>
    decide_eq_true ⟨BitVec.le_toInt w, BitVec.toInt_lt⟩
  unfold decodeRequest
  split <;> simp [Instr.wf, hunsigned, hsigned]

/-- An acceptance sets at most one reject bit, and with it leaves no step (10 R31, 40 R105). -/
theorem acceptRequest_rejects (s : State) (body : Except Reject (List PStep)) :
    rejectsExclusive (acceptRequest s body) = true ∧
      (anyReject (acceptRequest s body) = true → (acceptRequest s body).prog = []) := by
  cases body with
  | ok l => exact ⟨rfl, fun hr => nomatch hr⟩
  | error r => cases r <;> exact ⟨rfl, fun _ => rfl⟩

theorem exec_request_rejects {i : Instr} (hi : isRequest i = true) {s t : State} (he : exec i s = .next t) :
    rejectsExclusive t = true ∧ (anyReject t = true → t.prog = []) := by
  cases i <;> simp only [isRequest, Bool.false_eq_true] at hi <;> cases he
  case reserved0 | reserved7 | reservedD | reservedE | reservedF => exact acceptRequest_rejects s (.error .illegal)
  all_goals exact acceptRequest_rejects s _

/-- With no step left the drivers are enabled exactly if a binding has been made (10 R38). -/
theorem inv_driversEnabled {s : State} (h : Inv s) (hp : s.prog = []) :
    s.lines.clkOe = s.bound ∧ s.lines.dioOe = s.bound := by
  have hlist := h.list
  rw [hp] at hlist
  simpa [listOk] using hlist

/-- Acceptance keeps the invariant: the list it fixes is well behaved from the drivers it finds. -/
theorem inv_exec {s t : State} (h : Inv s) (hb : s.busy = false) {i : Instr} (hi : isRequest i = true)
    (hwf : i.wf = true) (he : exec i s = .next t) : Inv t := by
  have hp := h.idleEmpty hb
  obtain ⟨hclk, hdio⟩ := inv_driversEnabled h hp
  have hlist : listOk t.prog t.lines (inTxn t) t.bound = true :=
    exec_listOk hi hwf (fun hbd => by simp [hclk, hdio, hbd]) (fun hbd => by simp [hclk, hdio, hbd]) he
  obtain ⟨hbusy, hdone, hnack, hreq, -, hwait, -, ⟨-, -, -, hrcv, -, -⟩, ⟨hbound, hsel, hsel'⟩, -,
    ⟨hlines, hdec, hrx, hin, haddr, -, -, -⟩, -⟩ := exec_request_frame hi he
  have hbus := busInv_congr (inv_busInv h) hlines hdec hrcv
  obtain ⟨hexcl, hquiet⟩ := exec_request_rejects hi he
  exact
    { receivers := by rw [hrx]; exact h.receivers
      binding := by rw [hbound, hsel, hsel']; exact h.binding
      idleEmpty := by simp [hbusy]
      list := hlist
      bus := hbus.coherent
      latch := hbus.latch
      timer := .inl (by rw [hwait]; exact inv_waitCnt h (by simp [hp]))
      bits := by rw [hdec]; exact h.bits
      rejects := hexcl
      rejectsQuiet := fun hr => ⟨hquiet hr, hreq, hnack⟩
      addressed := by rw [hin, haddr]; exact h.addressed
      donePulse := by simp [hdone] }

theorem inv_latchRequest {s : State} (h : Inv s) (op : BitVec 4) (a b : Word) : Inv (latchRequest s op a b) := { h with }

/-! ### Every step, and every run -/

/-- Settles O24: each operation a step can be keeps the invariant; for a line action that is the bus, for an acceptance
the list. -/
theorem stepKeepsInvariant : Obligations.StepKeepsInvariant := by
  intro s t h hs
  have h' := inv_takeRst h
  cases step_cases hs with
  | frameRead _ r _ eq => exact eq ▸ inv_finishFrame h r
  | addressed p _ b' _ _ eq => exact eq ▸ inv_addressPosition h [b'] p
  | reset _ _ eq => exact eq ▸ inv_resetBlock h'
  | finish _ _ _ prog eq => exact eq ▸ inv_finishRequest h' prog
  | act _ _ _ inbox _ busy prog level eq => exact eq ▸ inv_afterAct h' inbox busy prog level
  | wait _ _ _ busy prog eq => exact eq ▸ inv_recordWait h' busy prog
  | sample _ v _ _ busy prog _ eq => exact eq ▸ inv_recordSample h' busy prog v
  | update _ _ _ _ busy prog eq => exact eq ▸ inv_update h' busy prog
  | bind _ _ _ _ _ busy prog eq =>
    exact eq ▸ inv_recordBind (inv_abandonTxn h') (by simpa using busy) (by simpa using prog)
  | accept op a b _ _ _ busy _ eq =>
    exact inv_exec (inv_latchRequest h' op a b) busy (isRequest_decodeRequest op a b) (wf_decodeRequest op a b) eq
  | idle _ _ _ eq => exact eq ▸ inv_idleCycle h'

/-- Settles O23: the reset state is a clean entry with nothing offered. -/
theorem invariantHoldsAtReset : Obligations.InvariantHoldsAtReset := inv_cleanEntry ⟨rfl, rfl⟩

/-- What every step of a machine keeps, every run of it keeps. -/
theorem run_keeps {M : Host.Core} {P : M.State → Prop} (hstep : ∀ s t, P s → M.step s = .next t → P t) {n : Nat}
    {s t : M.State} (h : P s) (hr : M.run n s = .next t) : P t := by
  induction n generalizing s with
  | zero =>
    cases hr
    exact h
  | succ n ih =>
    unfold Host.Core.run at hr
    split at hr
    · rename_i s' hs
      exact ih (hstep s s' h hs) hr
    · cases hr
    · cases hr

theorem inv_reachable {s : State} (h : reachable s) : Inv s := by
  obtain ⟨s0, n, hentry, hrun⟩ := h
  exact run_keeps (M := Sys2Proof.core) stepKeepsInvariant (inv_cleanEntry hentry) hrun

theorem lineIdsValid_iff {c d : Nat} :
    lineIdsValid c d = true ↔ c < Config.numLines ∧ d < Config.numLines ∧ c ≠ d := by
  simp [lineIdsValid, and_assoc]

/-- Settles O25, from the invariant of every reachable state. -/
theorem everyRunKeepsBindingAndDrivers : Obligations.EveryRunKeepsBindingAndDrivers := by
  intro s hr
  have h := inv_reachable hr
  refine ⟨fun hbound => ?_, fun hbusy hbound => ?_, fun hbusy hbound => ?_⟩
  · obtain ⟨hclk, hdio, hne⟩ := lineIdsValid_iff.1 (h.binding hbound)
    exact ⟨fun he => hne (congrArg BitVec.toNat he), hclk, hdio⟩
  · simpa [hbound] using inv_driversEnabled h (h.idleEmpty hbusy)
  · obtain ⟨hclk, hdio⟩ := inv_driversEnabled h (h.idleEmpty hbusy)
    rw [hbound] at hclk hdio
    obtain ⟨-, hidle⟩ := busCoherent_undriven h.bus hclk
    exact ⟨hclk, hdio, by simp [inTxn, hidle]⟩

/-- Settles O26, from the invariant of every reachable state. -/
theorem everyRunKeepsOpenDrain : Obligations.EveryRunKeepsOpenDrain := by
  intro s hr htxn
  have hlatch := (inv_reachable hr).latch htxn
  exact ⟨hlatch, by simp [hlatch]⟩

/-- Settles O27, from the invariant of every reachable state. -/
theorem everyRunKeepsRejectsExclusive : Obligations.EveryRunKeepsRejectsExclusive := by
  intro s hr
  have h := inv_reachable hr
  have hexcl := h.rejects
  simp only [rejectsExclusive, Bool.and_eq_true, Bool.not_eq_true', ← Bool.not_eq_true] at hexcl
  obtain ⟨⟨hri, hru⟩, hiu⟩ := hexcl
  refine ⟨hri, hru, hiu, fun hany => ?_⟩
  obtain ⟨hprog, -, hnack⟩ := h.rejectsQuiet (by simpa [anyReject, or_assoc] using hany)
  exact ⟨hnack, hprog⟩

end Sys2Proof.Proofs
end

section
/-! PROOFS. The reset state, the status word, the dispatch of a step and the step index (spec 10 R21, R30, R33, R40). -/

namespace Sys2Proof.Proofs

open Sys2Proof.Machine Sys2Proof.Laws

/-! ### Reset -/

/-- What the ROM's port gives at every index: bit 7 is 0, and 0x00 where the index is no digit (20 R51, R52). -/
theorem segRom_port (d : BitVec 4) :
    (segRom d).getLsbD 7 = false ∧ (segValid d = true ↔ d.toNat ≤ 9) ∧ (segValid d = false → segRom d = 0x00#8) := by
  revert d
  decide

/-- Settles O11: the reset state is written out, and so is the ROM; the store of receivers is empty. -/
theorem resetStateIsTheTable : Obligations.ResetStateIsTheTable := by
  refine ⟨?_, ⟨?_, segRom_port⟩, fun _ => rfl⟩
  · exact ⟨rfl, rfl, rfl, rfl, rfl, rfl, rfl, rfl, rfl, rfl, rfl, rfl⟩
  · exact ⟨rfl, rfl, rfl, rfl, rfl, rfl, rfl, rfl, rfl, rfl⟩

/-! ### The status word -/

theorem statusBit_getLsbD (b : Bool) {i j : Nat} (hi : i < 8) (hj : j < 8) :
    (statusBit b i).getLsbD j = (b && decide (j = i)) := by
  have all : ∀ b : Bool, ∀ i < 8, ∀ j < 8, (statusBit b i).getLsbD j = (b && decide (j = i)) := by decide
  exact all b i hi j hj

/-- Settles O20: of the bits that are put together, no two are at the same place. -/
theorem statusWordBits : Obligations.StatusWordBits := by
  intro s
  simp [statusWord, statusBit_getLsbD, -BitVec.getLsbD_eq_getElem]

/-! ### The instruction a step runs -/

/-- A delivered frame has the step's turn, before reset and the engine [log 15]. -/
theorem fetch_inbox {s : State} {bytes : List Byte} (h : s.rxInbox = some bytes) : fetch s = fetchBusByte s bytes := by
  simp [fetch, h]

/-- A ready engine takes the host's offer (10 R21, 40 R105). -/
theorem fetch_offer {s : State} {op : BitVec 4} {a b : Word} {ms : List HostMove} (hin : s.rxInbox = none)
    (hrst : rstHigh s = false) (hbusy : s.busy = false) (hm : s.hostMoves = .offer op a b :: ms) :
    fetch s = .instr (decodeRequest op a b) (latchRequest (takeRst s) op a b) := by
  simp [fetch, hin, hrst, hbusy, fetchRequest, hm]

theorem rxOf_finishFrame {s : State} (h : receiversWf s.receivers = true) (r : Rx) : rxOf (finishFrame s r) = r :=
  rxOf_setRx h r

/-- Settles O13: whose turn it is, and how the byte or the request decodes. -/
theorem stepRunsDecodedInstruction : Obligations.StepRunsDecodedInstruction := by
  refine ⟨fun s op a b ms hin hrst hbusy hm => ?_, fun s b rest i hin haddr hd => ?_, fun s b rest p hin haddr => ?_,
    fun s b rest hin haddr hd hwf => ⟨undefinedFrame s, ?_, rxOf_finishFrame hwf Rx.top, rfl⟩⟩
  · simp only [step, fetch_offer hin hrst hbusy hm, latchRequest, takeRst, hm, List.tail_cons]
  · simp only [step, fetch_inbox hin, fetchBusByte, haddr, hd, takeByte]
  · simp only [step, fetch_inbox hin, fetchBusByte, haddr, decode, takeByte]
  · simp only [step, fetch_inbox hin, fetchBusByte, haddr, hd]

/-! ### The step index -/

/-- What two operations in a row answer is the second's answer to the first's next state. -/
theorem andThen_eq_next {r : Result} {f : State → Result} {u : State} :
    andThen r f = .next u ↔ ∃ t, r = .next t ∧ f t = .next u := by
  cases r <;> simp

/-- The receiver taking a frame is no step of the list. -/
theorem takeFrame_aidx {s u : State} (h : takeFrame 2 s = .next u) : u.aidx = s.aidx := by
  cases hin : s.rxInbox with
  | none =>
    rw [takeFrame_none hin] at h
    cases h
    rfl
  | some bytes =>
    obtain ⟨r, hr⟩ := takeFrame_some hin
    rw [hr] at h
    cases h
    rfl

/-- An entry is one step, and a line action's wait is one more (40 R102). -/
theorem wholeEntry_aidx {e : PStep} {rest : List PStep} {s u : State} (h : wholeEntry e rest s = .next u) :
    u.aidx = s.aidx + 1 + countActs [e] := by
  cases e with
  | act a =>
    simp only [wholeEntry, andThen_eq_next, actStep_eq] at h
    obtain ⟨t', ⟨t, hact, htake⟩, hwait⟩ := h
    split at hact <;> cases hact
    cases hwait
    simp [takeFrame_aidx htake, afterAct, countActs]
  | wait =>
    cases h
    rfl
  | sample =>
    simp only [wholeEntry, sampleStep] at h
    split at h <;> cases h
    rfl
  | update w =>
    cases h
    simp [countActs]
  | bind c d =>
    cases h
    simp [countActs]

/-- A list run to its `done` has counted its entries, each line action with its wait. -/
theorem runList_aidx {l : List PStep} {s u : State} (h : runList l s = .next u) :
    u.aidx = s.aidx + l.length + countActs l := by
  induction l generalizing s with
  | nil =>
    cases h
    rfl
  | cons e l ih =>
    simp only [runList, andThen_eq_next] at h
    obtain ⟨t, he, hl⟩ := h
    have hacts : countActs (e :: l) = countActs [e] + countActs l := countActs_append [e] l
    rw [ih hl, wholeEntry_aidx he, hacts, List.length_cons]
    omega

/-- Acceptance sets the step index to 0 (40 R105). -/
theorem exec_request_aidx {i : Instr} (hi : isRequest i = true) {s t : State} (he : exec i s = .next t) :
    t.aidx = 0 := by
  obtain ⟨-, -, -, -, haidx, -⟩ := exec_request_frame hi he
  exact haidx

/-- Settles O17: acceptance clears the index, and every entry of the list, whatever it does, advances it. -/
theorem stepIndexCountsSteps : Obligations.StepIndexCountsSteps := by
  refine ⟨fun i s t hi he => exec_request_aidx hi he, fun s t hin hrst hbusy hprog hs => ?_,
    fun i s t u hi _ he hr => ?_⟩
  · cases step_cases hs with
    | act _ _ _ _ _ _ _ _ eq | wait _ _ _ _ _ eq | sample _ _ _ _ _ _ _ eq | update _ _ _ _ _ _ eq
    | bind _ _ _ _ _ _ _ eq => simp [eq, afterAct]
    -- No other step is taken by a busy engine with an entry left.
    | frameRead _ _ inbox _ | addressed _ _ _ inbox _ _ => simp [hin] at inbox
    | reset _ rst _ => simp [hrst] at rst
    | finish _ _ _ prog _ => exact absurd prog hprog
    | accept _ _ _ _ _ _ busy _ _ | idle _ _ busy _ => simp [hbusy] at busy
  · rw [request, he, andThen_next] at hr
    rw [runList_aidx hr, exec_request_aidx hi he, Nat.zero_add]

end Sys2Proof.Proofs
end

section
/-! PROOFS. A binding of another pair, and the lines after each kind of request (spec 10 R42, R43, R45; 42 R180). -/

namespace Sys2Proof.Proofs

open Sys2Proof.Machine Sys2Proof.Laws

/-! ### The abandoned transaction -/

/-- The receiver on the bound lines, after its transaction is abandoned if one was open (42 R186). -/
theorem abandonTxn_boundReceiver {s : State} (h : receiversWf s.receivers = true) :
    lookupRx (abandonTxn s).receivers (boundPair s) = if inTxn s then Rx.top else rxOf s := by
  unfold abandonTxn
  split
  · exact lookupRx_storeRx_self h _ _
  · rfl

theorem abandonTxn_otherReceivers (s : State) : keepsOtherReceivers s (abandonTxn s) := by
  intro p hne
  unfold abandonTxn
  split
  · exact lookupRx_storeRx_other _ hne
  · rfl

theorem abandonTxn_loadList_receivers (s : State) (l : List PStep) :
    (abandonTxn (loadList s l)).receivers = (abandonTxn s).receivers := by
  have htxn : inTxn (loadList s l) = inTxn s := rfl
  unfold abandonTxn
  rw [htxn]
  split <;> rfl

/-! ### The step list of `CONFIGURE` -/

/-- Both lines driven high (40 R110). -/
def redriveSeq : List PStep := [.act (.clkSet true), .act .dioHigh]

theorem lineIdsValid_of_inRange {c d : Nat} (h : ¬ outOfRange (.configure c d)) : lineIdsValid c d = true := by
  simp only [outOfRange, not_or] at h
  exact lineIdsValid_iff.2 ⟨by omega, by omega, h.2.2⟩

theorem configureBody_other {s : State} {c d : Nat} (h : ¬ outOfRange (.configure c d))
    (hne : c ≠ s.clkSel.toNat ∨ d ≠ s.dioSel.toNat) :
    configureBody s c d = .ok (.bind (BitVec.ofNat 32 c) (BitVec.ofNat 32 d) :: redriveSeq) := by
  have hnot : (s.bound && decide (c = s.clkSel.toNat) && decide (d = s.dioSel.toNat)) = false := by
    rcases hne with hc | hd
    · simp [hc]
    · simp [hd]
  simp [configureBody, lineIdsValid_of_inRange h, hnot, redriveSeq]

theorem configureBody_same {s : State} (h : ¬ outOfRange (.configure s.clkSel.toNat s.dioSel.toNat))
    (hb : s.bound = true) : configureBody s s.clkSel.toNat s.dioSel.toNat = .ok redriveSeq := by
  simp [configureBody, lineIdsValid_of_inRange h, hb, redriveSeq]

/-- With CLK and DIO high or rising to it outside a transaction, no frame is delivered and none begins (42 R172, R174). -/
theorem decodePair_high_idle {d : Decoder} {v0 : Bit} (hp : d.prev = some (true, v0)) (hi : d.phase = .idle) :
    (decodePair d true true).2 = none ∧ (decodePair d true true).1.phase = .idle := by
  cases v0 <;> simp [decodePair, hp, dioEdge, stopCondition, clkEdge, hi]

/-- A `Bind` and both lines driven high: a new bus, idle-high, on which nothing is sent (40 R110; 42 R170, R171). -/
theorem bindSeq_done {s : State} (h : calm s) (c d : Word) (rest : List PStep) :
    ∃ u, runEntries (.bind c d :: redriveSeq) rest s = .next u ∧ calm u ∧ idleHigh u ∧
      boundPair u = { clk := c, dio := d } ∧ u.receivers = (abandonTxn s).receivers := by
  generalize hs0 : recordBind c d (redriveSeq ++ rest) (abandonTxn s) = s0
  have e0 : wholeEntry (.bind c d) (redriveSeq ++ rest) s = .next s0 := by rw [← hs0]; rfl
  have c0 : calm s0 := by rw [← hs0]; simpa [calm] using h
  have l0 : s0.lines = undrive s.lines := by rw [← hs0]; simp
  have d0 : s0.dec = Decoder.start := by rw [← hs0]; rfl
  obtain ⟨s1, e1, w1, d1, l1⟩ := act_wave c0 (.clkSet true) (([.act .dioHigh] : List PStep) ++ rest) (c := true)
    (by simp [applyAction, clkBus]) rfl (by rw [d0]; rfl)
  have c1 := w1.list.calm c0
  obtain ⟨hquiet, hidle⟩ := decodePair_high_idle (d := s1.dec) (by rw [d1]) (by rw [d1]; rfl)
  obtain ⟨s2, e2, w2, d2, l2⟩ := act_wave c1 .dioHigh (([] : List PStep) ++ rest) (c := true) (v := true)
    (by simp [l1, applyAction, clkBus]) (levelAfter_driven rfl) (Prod.ext rfl hquiet)
  have w := w1.append w2
  refine ⟨s2, ?_, w.list.calm c0, ⟨?_, ?_, ?_⟩, ?_, ?_⟩
  · rw [runEntries_cons e0, redriveSeq, runEntries_cons e1, runEntries_cons e2]
    rfl
  · rw [l2, l1, l0]
    rfl
  · rw [d2]
    exact decodePair_prev _ _ _
  · rw [d2]
    exact hidle
  · rw [w.list.boundPair, ← hs0]
    rfl
  · rw [w.receivers, ← hs0]
    rfl

/-! ### Lists of no binding -/

@[simp] theorem noBind_bitSeq (v : Bit) : noBind (bitSeq v) = true := by cases v <;> rfl

@[simp] theorem noBind_byteSeq (b : Byte) : noBind (byteSeq b) = true := by
  simp [byteSeq, shiftedBitSeq, ackSeq, noBind]

@[simp] theorem noBind_cmdFrame (b : Byte) : noBind (cmdFrame b) = true := by
  simp [cmdFrame, startSeq, stopSeq, noBind]

@[simp] theorem noBind_addrFrame (p : BitVec 2) (pat : Byte) : noBind (addrFrame p pat) = true := by
  simp [addrFrame, startSeq, stopSeq, noBind]

@[simp] theorem noBind_fourDigitFrames (p0 p1 p2 p3 : Byte) : noBind (fourDigitFrames p0 p1 p2 p3) = true := by
  simp [fourDigitFrames]

/-- What `INITIALIZE` sends once the lines are bound: the four patterns cleared, then the brightness (41 R140). -/
def initializeFrames : List PStep := clearBody ++ brightnessBody Config.brightMax

theorem noBind_initializeFrames : noBind initializeFrames = true := by
  simp [initializeFrames, clearBody, brightnessBody]

theorem exec_configure_ok {s : State} {c d : Nat} {l : List PStep} (h : configureBody s c d = .ok l) :
    exec (.configure c d) s = .next (loadList s l) := by
  simp only [exec, execConfigure, h, acceptRequest_ok]

theorem exec_initializeDisplay_ok {s : State} {c d : Nat} {l : List PStep} (h : configureBody s c d = .ok l) :
    exec (.initializeDisplay c d) s = .next (loadList s (l ++ initializeFrames)) := by
  simp only [exec, execInitialize, initializeBody, h, acceptRequest_ok, initializeFrames, List.append_assoc]

/-! ### Another pair of lines -/

/-- What rebinding leaves on every pair that is not the new one (10 R45, 42 R180). -/
def rebound (s : State) (m : Receivers) : Prop :=
  (inTxn s = true → lookupRx m (boundPair s) = Rx.top) ∧ (inTxn s = false → lookupRx m (boundPair s) = rxOf s)

theorem rebound_of_eq {s : State} {m : Receivers} (hwf : receiversWf s.receivers = true)
    (h : lookupRx m (boundPair s) = lookupRx (abandonTxn s).receivers (boundPair s)) : rebound s m := by
  rw [abandonTxn_boundReceiver hwf] at h
  exact ⟨fun ht => by simpa [ht] using h, fun ht => by simpa [ht] using h⟩

/-- Two ids of 32 bits that differ from the bound ones name another pair. -/
theorem boundPair_ne {s : State} {c d : Nat} (hc : c < 2 ^ 32) (hd : d < 2 ^ 32)
    (hne : c ≠ s.clkSel.toNat ∨ d ≠ s.dioSel.toNat) :
    boundPair s ≠ { clk := BitVec.ofNat 32 c, dio := BitVec.ofNat 32 d } := by
  intro he
  simp only [boundPair, LinePair.mk.injEq] at he
  obtain ⟨hclk, hdio⟩ := he
  rcases hne with h | h
  · exact h (by rw [hclk, BitVec.toNat_ofNat, Nat.mod_eq_of_lt hc])
  · exact h (by rw [hdio, BitVec.toNat_ofNat, Nat.mod_eq_of_lt hd])

/-- Settles O29: the `Bind` abandons the old transaction, and everything after it is on the new lines. -/
theorem rebindingAbandonsOpenTransaction : Obligations.RebindingAbandonsOpenTransaction := by
  intro s c d hcalm hc hd hrange _ hne hwf
  have hbody := configureBody_other hrange hne
  constructor
  · have hexec := exec_configure_ok hbody
    obtain ⟨u, hrun, -, -, -, hrx⟩ := bindSeq_done (loadList_calm hcalm _) (BitVec.ofNat 32 c) (BitVec.ofNat 32 d) []
    rw [abandonTxn_loadList_receivers] at hrx
    obtain ⟨htop, hkept⟩ := rebound_of_eq hwf (congrArg (lookupRx · (boundPair s)) hrx)
    refine ⟨finishRequest u, by rw [request_accepted hexec, hrun]; rfl, htop, hkept, fun p hp => ?_⟩
    rw [finishRequest_receivers, hrx]
    exact abandonTxn_otherReceivers s p hp
  · have hexec := exec_initializeDisplay_ok hbody
    obtain ⟨u, hrun, hcalm', -, hpair, hrx⟩ :=
      bindSeq_done (loadList_calm hcalm _) (BitVec.ofNat 32 c) (BitVec.ofNat 32 d) (initializeFrames ++ [])
    obtain ⟨w, _, hrun', hdone⟩ := runEntries_done initializeFrames [] hcalm' noBind_initializeFrames
    have hkeep : ∀ p, p ≠ boundPair u → lookupRx w.receivers p = lookupRx (abandonTxn s).receivers p := by
      intro p hp
      rw [hdone.others p hp, hrx, abandonTxn_loadList_receivers]
    have hold : boundPair s ≠ boundPair u := by
      rw [hpair]
      exact boundPair_ne hc hd hne
    obtain ⟨htop, hkept⟩ := rebound_of_eq hwf (hkeep _ hold)
    refine ⟨finishRequest w, by rw [request_accepted hexec, runEntries_append_of hrun hrun']; rfl, htop, hkept,
      fun p hp hnew => ?_⟩
    rw [finishRequest_receivers, hkeep p (hdone.boundPair ▸ hnew)]
    exact abandonTxn_otherReceivers s p hp

/-! ### The lines and `in_txn` after a list -/

/-- Inside a transaction after a list: `txnAfter` of each of its actions (42 R172). -/
def txnOver : List PStep → Lines → Bool → Bool
  | [], _, txn => txn
  | .act a :: rest, l, txn => txnOver rest (applyAction a l) (txnAfter a l txn)
  | .bind _ _ :: rest, l, _ => txnOver rest (undrive l) false
  | .wait :: rest, l, txn => txnOver rest l txn
  | .sample :: rest, l, txn => txnOver rest l txn
  | .update _ :: rest, l, txn => txnOver rest l txn

@[simp] theorem txnOver_append (l1 l2 : List PStep) (l : Lines) (txn : Bool) :
    txnOver (l1 ++ l2) l txn = txnOver l2 (linesAfter l1 l) (txnOver l1 l txn) := by
  induction l1 generalizing l txn with
  | nil => rfl
  | cons e l1 ih => cases e <;> simp [txnOver, linesAfter, ih]

/-- At the end of a well-behaved list with no binding the drivers are enabled exactly if a binding has been made (10 R38). -/
theorem listOk_linesAfter {l : List PStep} {ln : Lines} {txn bound : Bool} (h : listOk l ln txn bound = true)
    (hb : noBind l = true) : (linesAfter l ln).clkOe = bound ∧ (linesAfter l ln).dioOe = bound := by
  induction l generalizing ln txn with
  | nil => simpa [listOk, linesAfter] using h
  | cons e l ih =>
    cases e with
    | act a =>
      simp only [listOk, Bool.and_eq_true] at h
      exact ih h.2 hb
    | wait | sample | update _ => exact ih h hb
    | bind c d => cases hb

/-- A line action, its wait and the receiver's steps keep the bus part of the invariant. -/
theorem actDone_busInv {a : LineAction} {rest : List PStep} {s u : State} (hd : ActDone a rest s u) (hc : calm s)
    (h : BusInv s) (hok : actionOk a s.lines (inTxn s) = true) :
    BusInv u ∧ inTxn u = txnAfter a s.lines (inTxn s) := by
  have hv : observeDio s (applyAction a s.lines) rest = .ok (levelAfter a rest s) := observeDio_calm hc.2 _ _
  have hdec : u.dec = (afterAct a rest (levelAfter a rest s) s).dec := by rw [hd.dec]; simp [afterAct]
  constructor
  · refine busInv_congr (busInv_afterAct h hok hv) ?_ hdec ?_
    · rw [hd.lines]; simp [afterAct]
    · rw [hd.same.receiver]; simp [afterAct]
  · rw [← inTxn_afterAct h hok hv]
    simp [inTxn, hdec]

/-- A well-behaved list with no binding keeps the bus part of the invariant, and `in_txn` is as its actions say. -/
theorem runEntries_busInv {l rest : List PStep} {s u : State} {bound : Bool} (hc : calm s) (hb : noBind l = true)
    (hok : listOk l s.lines (inTxn s) bound = true) (h : BusInv s) (hr : runEntries l rest s = .next u) :
    BusInv u ∧ inTxn u = txnOver l s.lines (inTxn s) := by
  induction l generalizing s with
  | nil =>
    cases hr
    exact ⟨h, rfl⟩
  | cons e l ih =>
    -- An entry that touches neither the drivers nor the decoder.
    have quiet : ∀ {t : State}, wholeEntry e (l ++ rest) s = .next t → calm t → t.lines = s.lines → t.dec = s.dec →
        t.receiver = s.receiver → noBind l = true → listOk l s.lines (inTxn s) bound = true →
        BusInv u ∧ inTxn u = txnOver l s.lines (inTxn s) := by
      intro t ht hct hl hd hk hbl hokl
      rw [runEntries_cons ht] at hr
      have htxn : inTxn t = inTxn s := by simp [inTxn, hd]
      have := ih hct hbl (by rw [hl, htxn]; exact hokl) (busInv_congr h hl hd hk) hr
      rwa [hl, htxn] at this
    cases e with
    | act a =>
      simp only [listOk, Bool.and_eq_true] at hok
      obtain ⟨hact, hrest⟩ := hok
      obtain ⟨t, ht, hd⟩ := wholeEntry_act hc a (l ++ rest)
      obtain ⟨hbus, htxn⟩ := actDone_busInv hd hc h hact
      rw [runEntries_cons ht] at hr
      have := ih (hd.listDone.calm hc) hb (by rw [hd.lines, htxn]; exact hrest) hbus hr
      rwa [hd.lines, htxn] at this
    | wait => exact quiet rfl hc rfl rfl rfl hb hok
    | sample => exact quiet (sampleStep_calm hc.2 _) hc rfl rfl rfl hb hok
    | update w => exact quiet rfl (by simpa [calm] using hc) (by simp) (by simp) (by simp) hb hok
    | bind c d => cases hb

/-! ### From driven lines -/

/-- Between requests of a bound engine: driven lines, and the latch 0 inside a transaction (10 R38, R39). -/
structure Ready (s : State) : Prop where
  calm : Machine.calm s
  driven : Machine.driven s
  latch : inTxn s = true → s.lines.dioLatch = false

theorem Ready.busInv {s : State} (h : Ready s) : BusInv s where
  coherent := by
    obtain ⟨hclk, hdio, hprev⟩ := h.driven
    unfold busCoherent
    rw [hprev]
    exact ⟨hclk, rfl, fun _ => rfl, fun hn => absurd (hdio.symm.trans hn) Bool.noConfusion⟩
  latch := h.latch

theorem Ready.lines {s : State} (h : Ready s) : s.lines = ⟨true, s.lines.clkO, true, s.lines.dioLatch⟩ := by
  obtain ⟨hclk, hdio, -⟩ := h.driven
  have heta : s.lines = ⟨s.lines.clkOe, s.lines.clkO, s.lines.dioOe, s.lines.dioLatch⟩ := rfl
  rwa [hclk, hdio] at heta

theorem driven_of_busInv {s : State} (h : BusInv s) (hclk : s.lines.clkOe = true) (hdio : s.lines.dioOe = true) :
    driven s := by
  obtain ⟨v0, hp, hdrv, -⟩ := busCoherent_pair h.coherent hclk
  exact ⟨hclk, hdio, by rw [hp, hdrv hdio]⟩

theorem idleHigh_of_driven {s : State} (h : driven s) (hl : s.lines = ⟨true, true, true, true⟩)
    (ht : inTxn s = false) : idleHigh s := by
  obtain ⟨-, -, hprev⟩ := h
  rw [hl] at hprev
  refine ⟨hl, hprev, ?_⟩
  cases hp : s.dec.phase with
  | idle => rfl
  | frame => simp [inTxn, hp] at ht

theorem ready_of_idleHigh {s : State} (hc : calm s) (h : idleHigh s) : Ready s := by
  obtain ⟨hl, hprev, hphase⟩ := h
  exact ⟨hc, ⟨by rw [hl], by rw [hl], by rw [hprev, hl]⟩, fun ht => by simp [inTxn, hphase] at ht⟩

/-- A well-behaved list with no binding, run from driven lines, leaves them driven (10 R43). -/
theorem runEntries_driven {l : List PStep} {s : State} (rest : List PStep) (h : Ready s) (hb : noBind l = true)
    (hok : listOk l s.lines (inTxn s) true = true) :
    ∃ u, runEntries l rest s = .next u ∧ calm u ∧ driven u ∧ u.lines = linesAfter l s.lines ∧
      inTxn u = txnOver l s.lines (inTxn s) := by
  obtain ⟨u, _, hrun, hdone⟩ := runEntries_done l rest h.calm hb
  obtain ⟨hbus, htxn⟩ := runEntries_busInv h.calm hb hok h.busInv hrun
  obtain ⟨hclk, hdio⟩ := listOk_linesAfter hok hb
  rw [← hdone.lines] at hclk hdio
  exact ⟨u, hrun, hdone.calm h.calm, driven_of_busInv hbus hclk hdio, hdone.lines, htxn⟩

/-- The same of a request, accepted and run to its `done`. -/
theorem request_driven {i : Instr} {s t : State} (h : Ready s) (hi : isRequest i = true) (he : exec i s = .next t)
    (hb : noBind t.prog = true) (hok : listOk t.prog s.lines (inTxn s) true = true) :
    ∃ u, request i s = .next u ∧ driven u ∧ u.lines = linesAfter t.prog s.lines ∧
      inTxn u = txnOver t.prog s.lines (inTxn s) := by
  obtain ⟨-, -, -, -, -, -, -, ⟨-, -, -, hrcv, -, -⟩, -, -, ⟨hlines, hdec, -, hin, -, -, -, -⟩, -⟩ :=
    exec_request_frame hi he
  have htxn : inTxn t = inTxn s := by simp [inTxn, hdec]
  have ht : Ready t :=
    ⟨by simpa [calm, hin, hrcv] using h.calm, by simpa [driven, hlines, hdec] using h.driven,
      by simpa [htxn, hlines] using h.latch⟩
  obtain ⟨u, hrun, -, hdriven, hl, hx⟩ := runEntries_driven [] ht hb (by rw [hlines, htxn]; exact hok)
  rw [hlines] at hl hx
  rw [htxn] at hx
  refine ⟨finishRequest u, ?_, hdriven, hl, hx⟩
  rw [request, he, andThen_next, runList_eq, hrun]
  rfl

/-! ### Lists that end idle-high -/

/-- A list with no binding that, from driven lines, is well behaved and ends idle-high outside a transaction (10 R42). -/
structure Closes (l : List PStep) : Prop where
  noBind : noBind l = true
  listOk : ∀ (o e txn : Bool) (rest : List PStep),
    listOk (l ++ rest) ⟨true, o, true, e⟩ txn true = listOk rest ⟨true, true, true, true⟩ false true
  lines : ∀ ln, linesAfter l ln = ⟨true, true, true, true⟩
  txn : ∀ ln txn, txnOver l ln txn = false

theorem closes_stopSeq : Closes stopSeq :=
  ⟨rfl, fun o e txn rest => listOk_stopSeq o e txn true rest, fun _ => rfl, fun _ _ => rfl⟩

theorem closes_redriveSeq : Closes redriveSeq :=
  ⟨rfl, fun o e txn rest => listOk_redrive o e txn true rest, fun _ => rfl, fun _ _ => rfl⟩

theorem closes_cmdFrame (b : Byte) : Closes (cmdFrame b) where
  noBind := noBind_cmdFrame b
  listOk o e txn rest := listOk_cmdFrame b o e txn true rest
  lines ln := by rw [cmdFrame, linesAfter_append, closes_stopSeq.lines]
  txn ln txn := by rw [cmdFrame, txnOver_append, closes_stopSeq.txn]

theorem closes_addrFrame (p : BitVec 2) (pat : Byte) : Closes (addrFrame p pat) where
  noBind := noBind_addrFrame p pat
  listOk o e txn rest := listOk_addrFrame p pat o e txn true rest
  lines ln := by rw [addrFrame, linesAfter_append, closes_stopSeq.lines]
  txn ln txn := by rw [addrFrame, txnOver_append, closes_stopSeq.txn]

theorem Closes.append {l1 l2 : List PStep} (h1 : Closes l1) (h2 : Closes l2) : Closes (l1 ++ l2) where
  noBind := by rw [noBind_append, h1.noBind, h2.noBind]; rfl
  listOk o e txn rest := by rw [List.append_assoc, h1.listOk, h2.listOk]
  lines ln := by rw [linesAfter_append, h2.lines]
  txn ln txn := by rw [txnOver_append, h2.txn]

theorem closes_fourDigitFrames (p0 p1 p2 p3 : Byte) : Closes (fourDigitFrames p0 p1 p2 p3) :=
  ((((closes_cmdFrame _).append (closes_addrFrame _ _)).append (closes_addrFrame _ _)).append
    (closes_addrFrame _ _)).append (closes_addrFrame _ _)

theorem closes_initializeFrames : Closes initializeFrames :=
  (closes_fourDigitFrames _ _ _ _).append (closes_cmdFrame _)

theorem Closes.listOk_of_ready {l : List PStep} (hl : Closes l) {s : State} (h : Ready s) :
    Machine.listOk l s.lines (inTxn s) true = true := by
  rw [h.lines, ← List.append_nil l, hl.listOk]
  rfl

/-- The entries of such a list, run from driven lines. -/
theorem runEntries_closes {l : List PStep} {s : State} (rest : List PStep) (h : Ready s) (hl : Closes l) :
    ∃ u, runEntries l rest s = .next u ∧ driven u ∧ idleHigh u := by
  obtain ⟨u, hrun, -, hdriven, hlines, htxn⟩ := runEntries_driven rest h hl.noBind (hl.listOk_of_ready h)
  rw [hl.lines] at hlines
  rw [hl.txn] at htxn
  exact ⟨u, hrun, hdriven, idleHigh_of_driven hdriven hlines htxn⟩

/-- A request whose list is such a list. -/
theorem request_closes {i : Instr} {s t : State} (h : Ready s) (hi : isRequest i = true) (he : exec i s = .next t)
    (hl : Closes t.prog) : ∃ u, request i s = .next u ∧ driven u ∧ idleHigh u := by
  obtain ⟨u, hrun, hdriven, hlines, htxn⟩ := request_driven h hi he hl.noBind (hl.listOk_of_ready h)
  rw [hl.lines] at hlines
  rw [hl.txn] at htxn
  exact ⟨u, hrun, hdriven, idleHigh_of_driven hdriven hlines htxn⟩

/-! ### The requests that bind -/

theorem driven_of_idleHigh {s : State} (h : idleHigh s) : driven s := by
  obtain ⟨hl, hprev, -⟩ := h
  exact ⟨by rw [hl], by rw [hl], by rw [hprev, hl]⟩

/-- `CONFIGURE`, of the bound pair or of another, ends idle-high (10 R42). -/
theorem configure_idleHigh {s : State} {c d : Nat} (h : Ready s) (hb : s.bound = true)
    (hr : ¬ outOfRange (.configure c d)) : ∃ u, request (.configure c d) s = .next u ∧ driven u ∧ idleHigh u := by
  by_cases hsame : c = s.clkSel.toNat ∧ d = s.dioSel.toNat
  · obtain ⟨rfl, rfl⟩ := hsame
    exact request_closes h rfl (exec_configure_ok (configureBody_same hr hb)) closes_redriveSeq
  · have hexec := exec_configure_ok (configureBody_other hr (not_and_or.1 hsame))
    obtain ⟨u, hrun, -, hidle, -, -⟩ := bindSeq_done (loadList_calm h.calm _) (BitVec.ofNat 32 c) (BitVec.ofNat 32 d) []
    refine ⟨finishRequest u, ?_, driven_of_idleHigh hidle, hidle⟩
    rw [request_accepted hexec, hrun]
    rfl

/-- `INITIALIZE` ends idle-high: the pair bound, its frames follow from idle-high (10 R42, 41 R140). -/
theorem initializeDisplay_idleHigh {s : State} {c d : Nat} (h : Ready s) (hb : s.bound = true)
    (hr : ¬ outOfRange (.configure c d)) :
    ∃ u, request (.initializeDisplay c d) s = .next u ∧ driven u ∧ idleHigh u := by
  by_cases hsame : c = s.clkSel.toNat ∧ d = s.dioSel.toNat
  · obtain ⟨rfl, rfl⟩ := hsame
    exact request_closes h rfl (exec_initializeDisplay_ok (configureBody_same hr hb))
      (closes_redriveSeq.append closes_initializeFrames)
  · have hexec := exec_initializeDisplay_ok (configureBody_other hr (not_and_or.1 hsame))
    obtain ⟨u, hrun, hcalm, hidle, -, -⟩ := bindSeq_done (loadList_calm h.calm _) (BitVec.ofNat 32 c) (BitVec.ofNat 32 d)
      (initializeFrames ++ [])
    obtain ⟨w, hrun', hdriven, hidle'⟩ := runEntries_closes [] (ready_of_idleHigh hcalm hidle) closes_initializeFrames
    refine ⟨finishRequest w, ?_, hdriven, hidle'⟩
    rw [request_accepted hexec, runEntries_append_of hrun hrun']
    rfl

/-! ### The requests that leave CLK low -/

theorem linesAfter_bitSeq (v o e : Bool) : linesAfter (bitSeq v) ⟨true, o, true, e⟩ = ⟨true, false, true, v && e⟩ := by
  cases v <;> rfl

theorem txnOver_bitSeq (v o e txn : Bool) : txnOver (bitSeq v) ⟨true, o, true, e⟩ txn = txn := by
  cases v <;> simp [bitSeq, txnOver, txnAfter, applyAction]

theorem linesAfter_shiftedBitSeq (v o e : Bool) :
    linesAfter (shiftedBitSeq v) ⟨true, o, true, e⟩ = ⟨true, false, true, v && e⟩ := by
  rw [shiftedBitSeq, linesAfter_append, linesAfter_bitSeq]
  rfl

theorem txnOver_shiftedBitSeq (v o e txn : Bool) : txnOver (shiftedBitSeq v) ⟨true, o, true, e⟩ txn = txn := by
  rw [shiftedBitSeq, txnOver_append, txnOver_bitSeq]
  rfl

/-- Bits in a row keep the latch exactly if each of them is 1 (40 R118). -/
theorem linesAfter_dataBits (v : Bit) (vs : List Bit) (o e : Bool) :
    linesAfter ((v :: vs).flatMap shiftedBitSeq) ⟨true, o, true, e⟩ = ⟨true, false, true, e && (v :: vs).all id⟩ := by
  induction vs generalizing v o e with
  | nil =>
    rw [List.flatMap_singleton, linesAfter_shiftedBitSeq]
    simp [Bool.and_comm]
  | cons w vs ih =>
    rw [List.flatMap_cons, linesAfter_append, linesAfter_shiftedBitSeq, ih]
    simp [Bool.and_assoc, Bool.and_left_comm]

theorem txnOver_dataBits (vs : List Bit) (o e txn : Bool) :
    txnOver (vs.flatMap shiftedBitSeq) ⟨true, o, true, e⟩ txn = txn := by
  induction vs generalizing o e with
  | nil => rfl
  | cons v vs ih => rw [List.flatMap_cons, txnOver_append, linesAfter_shiftedBitSeq, txnOver_shiftedBitSeq, ih]

/-- A byte write leaves CLK low and keeps the latch exactly by the byte 0xFF (40 R120). -/
theorem linesAfter_byteSeq (b : Byte) (o e : Bool) :
    linesAfter (byteSeq b) ⟨true, o, true, e⟩ = ⟨true, false, true, if b = 0xFF#8 then e else false⟩ := by
  have hbits : linesAfter ((bitsOf b).flatMap shiftedBitSeq) ⟨true, o, true, e⟩ =
      ⟨true, false, true, e && (bitsOf b).all id⟩ := linesAfter_dataBits _ _ o e
  rw [byteSeq_eq, linesAfter_append, linesAfter_append]
  simp only [linesAfter]
  rw [hbits, bitsOf_all]
  by_cases hb : b = 0xFF#8 <;> simp [hb, ackSeq, linesAfter, applyAction]

theorem txnOver_byteSeq (b : Byte) (o e txn : Bool) : txnOver (byteSeq b) ⟨true, o, true, e⟩ txn = txn := by
  rw [byteSeq_eq, txnOver_append, txnOver_append]
  simp only [linesAfter, txnOver]
  rw [txnOver_dataBits]
  simp [ackSeq, txnOver, txnAfter]

theorem start_lines {s : State} (h : Ready s) (hb : s.bound = true) :
    ∃ u, request .start s = .next u ∧ driven u ∧ u.lines.clkO = false ∧ u.lines.dioLatch = false ∧
      inTxn u = (inTxn s || (s.lines.clkO && s.lines.dioLatch)) := by
  have he : exec .start s = .next (loadList s startSeq) := by simp [exec, execStart, ifBound, hb]
  have hok : listOk startSeq s.lines (inTxn s) true = true := by
    rw [h.lines, ← List.append_nil startSeq, listOk_startSeq]
    rfl
  obtain ⟨u, hrun, hdriven, hlines, htxn⟩ := request_driven h rfl he rfl hok
  exact ⟨u, hrun, hdriven, by rw [hlines]; rfl, by rw [hlines]; rfl, htxn⟩

theorem writeBit_lines {s : State} (h : Ready s) (hb : s.bound = true) (v : Bit) :
    ∃ u, request (.writeBit v) s = .next u ∧ driven u ∧ u.lines.clkO = false ∧
      u.lines.dioLatch = (if v then s.lines.dioLatch else false) ∧ inTxn u = inTxn s := by
  have he : exec (.writeBit v) s = .next (loadList s (bitSeq v)) := by simp [exec, execWriteBit, ifBound, hb]
  have hok : listOk (bitSeq v) s.lines (inTxn s) true = true := by
    rw [h.lines, ← List.append_nil (bitSeq v), listOk_bitSeq]
    rfl
  obtain ⟨u, hrun, hdriven, hlines, htxn⟩ := request_driven h rfl he (noBind_bitSeq v) hok
  rw [loadList_prog, h.lines, linesAfter_bitSeq] at hlines
  rw [loadList_prog, h.lines, txnOver_bitSeq] at htxn
  exact ⟨u, hrun, hdriven, by rw [hlines], by rw [hlines]; cases v <;> rfl, htxn⟩

theorem writeByte_lines {s : State} (h : Ready s) (hb : s.bound = true) (b : Byte) :
    ∃ u, request (.writeByte b) s = .next u ∧ driven u ∧ u.lines.clkO = false ∧
      u.lines.dioLatch = (if b = 0xFF#8 then s.lines.dioLatch else false) ∧ inTxn u = inTxn s := by
  have he : exec (.writeByte b) s = .next (loadList s (byteSeq b ++ [.update .latchAck])) := by
    simp [exec, execWriteByte, ifBound, hb]
  have hok : listOk (byteSeq b ++ [.update .latchAck]) s.lines (inTxn s) true = true := by
    obtain ⟨e', h'⟩ := listOk_byteSeq b s.lines.clkO s.lines.dioLatch (inTxn s) true [.update .latchAck]
    rw [h.lines, h']
    rfl
  obtain ⟨u, hrun, hdriven, hlines, htxn⟩ := request_driven h rfl he (by simp [noBind]) hok
  rw [loadList_prog, h.lines, linesAfter_append, linesAfter_byteSeq] at hlines
  rw [loadList_prog, h.lines, txnOver_append, txnOver_byteSeq] at htxn
  exact ⟨u, hrun, hdriven, by rw [hlines]; rfl, by rw [hlines]; rfl, htxn⟩

/-! ### Every request -/

theorem digitValid_of_inRange {p d : Int} (h : ¬ outOfRange (.displayDigit p d)) : digitValid p d = true := by
  simp only [outOfRange, not_or] at h
  simp only [digitValid, Bool.and_eq_true, decide_eq_true_eq]
  unfold Config.numPositions
  omega

theorem numberValid_of_inRange {v : Int} (h : ¬ outOfRange (.displayNumber v)) : numberValid v = true := by
  simp only [outOfRange, not_or] at h
  simp only [numberValid, Bool.and_eq_true, decide_eq_true_eq]
  unfold Config.valueMax
  omega

/-- Settles O40: what a request's list makes of the drivers and of `in_txn`, since the decoder follows a well-behaved list;
every list that ends in STOP_SEQ, or redrives both lines high, ends idle-high. -/
theorem lineStateAfterEachRequest : Obligations.LineStateAfterEachRequest := by
  intro i s hi hcalm hb hdriven hlatch hrej
  have h : Ready s := ⟨hcalm, hdriven, hlatch⟩
  have hrange : ¬ outOfRange i := fun ho => hrej .range ⟨ho, fun _ => hb⟩
  cases i with
  | configure c d => exact configure_idleHigh h hb hrange
  | initializeDisplay c d => exact initializeDisplay_idleHigh h hb hrange
  | start =>
    obtain ⟨u, hrun, hdr, hclk, hdio, htxn⟩ := start_lines h hb
    refine ⟨u, hrun, hdr, hclk, hdio, fun hopen => ?_⟩
    rcases hopen with ⟨hl, -, -⟩ | ht
    · simp [htxn, hl]
    · simp [htxn, ht]
  | writeBit v => exact writeBit_lines h hb v
  | writeByte b => exact writeByte_lines h hb b
  | stop =>
    have he : exec .stop s = .next (loadList s stopSeq) := by simp [exec, execStop, ifBound, hb]
    exact request_closes h hi he closes_stopSeq
  | writeCommand b =>
    have he : exec (.writeCommand b) s = .next (loadList s (cmdFrame b)) := by
      simp [exec, execWriteCommand, ifBound, hb]
    exact request_closes h hi he (closes_cmdFrame b)
  | setBrightness l =>
    have he : exec (.setBrightness l) s = .next (loadList s (brightnessBody l)) := by
      simp [exec, execSetBrightness, ifBound, hb]
    exact request_closes h hi he (closes_cmdFrame _)
  | displayDigit p d =>
    have he : exec (.displayDigit p d) s = .next (loadList s (cmdFrame dataFixedByte ++
        addrFrame (BitVec.ofInt 2 p) (segRom (BitVec.ofInt 4 d)))) := by
      simp [exec, execDisplayDigit, ifBound, hb, digitBody, digitValid_of_inRange hrange]
    exact request_closes h hi he ((closes_cmdFrame _).append (closes_addrFrame _ _))
  | displayNumber v =>
    have hprog : (acceptRequest s (ifBound s (numberBody v))).prog = fourDigitFrames (segRom (digitsOf v).d0)
        (segRom (digitsOf v).d1) (segRom (digitsOf v).d2) (segRom (digitsOf v).d3) := by
      simp [ifBound, hb, numberBody, numberValid_of_inRange hrange]
    exact request_closes h hi rfl (by rw [setDigits_prog, hprog]; exact closes_fourDigitFrames _ _ _ _)
  | clearDisplay =>
    have he : exec .clearDisplay s = .next (loadList s clearBody) := by simp [exec, execClearDisplay, ifBound, hb]
    exact request_closes h hi he (closes_fourDigitFrames _ _ _ _)
  | reserved0 | reserved7 | reservedD | reservedE | reservedF => exact absurd rfl (hrej .illegal)
  | dataAuto | dataFixed | addr _ | displayCtrl _ | segmentData _ => cases hi

end Sys2Proof.Proofs
end

section
/-! PROOFS. The segment ROM, and a byte on the bus at the CLK rising edges (spec 20 R50 to R52, R56; 40 R118, R120). -/

namespace Sys2Proof.Proofs

open Sys2Proof.Machine Sys2Proof.Laws

/-- Settles O6: the entries as the table has them, and the ROM's port at every index. -/
theorem segmentRom : Obligations.SegmentRom :=
  ⟨⟨rfl, rfl, rfl, rfl, rfl, rfl, rfl, rfl, rfl, rfl⟩, segRom_port⟩

/-! ### The first action of a byte write -/

/-- A byte write begins by driving CLK low (40 R106). -/
theorem byteSeq_lowersClk (b : Byte) :
    ∃ l, byteSeq b = .update (.loadShift b) :: .act (.clkSet false) :: l ∧ noBind l = true :=
  ⟨_, rfl, noBind_byteSeq b⟩

/-- The first thing a byte write adds to the trace is CLK at 0. -/
theorem byteSeq_trace_startsLow {s u : State} {b : Byte} {rest : List PStep} (h : calm s)
    (hrun : runEntries (byteSeq b) rest s = .next u) :
    ∃ v tr, u.trace = s.trace ++ .ev (.clkSet false) false v :: tr := by
  obtain ⟨l, hl, hnb⟩ := byteSeq_lowersClk b
  have hup := update_listDone h (.loadShift b) (.act (.clkSet false) :: l ++ rest)
  obtain ⟨t, ht, hact⟩ := wholeEntry_act (hup.calm h) (.clkSet false) (l ++ rest)
  obtain ⟨u', tr, hrun', hdone⟩ := runEntries_done l rest (hact.listDone.calm (hup.calm h)) hnb
  rw [hl, runEntries_cons (t := advance (applyUpdate s (.loadShift b)) (.act (.clkSet false) :: l ++ rest)) rfl,
    runEntries_cons ht, hrun'] at hrun
  cases hrun
  have htr := (hup.append (hact.listDone.append hdone)).trace
  exact ⟨_, .w :: tr, htr⟩

/-- Where a trace begins with CLK at 0, its rising edges do not depend on where CLK was before. -/
theorem risingLevels_low (c v : Bit) (a : LineAction) (tr : List TraceEntry) :
    risingLevels c (.ev a false v :: tr) = risingLevels false tr := by
  simp [risingLevels]

/-! ### A byte write from CLK high -/

/-- The state with CLK already low, and the decoder's last pair with it. -/
def lowerClk (s : State) : State :=
  { s with
    lines := { s.lines with clkO := false }
    dec := { s.dec with prev := some (false, s.lines.dioLatch) } }

/-- Outside a frame the decoder makes nothing of a CLK falling edge (42 R174). -/
theorem decodePair_fall_idle {d : Decoder} {c v : Bit} (hp : d.prev = some (c, v)) (hi : d.phase = .idle) :
    decodePair d false v = ({ d with prev := some (false, v) }, none) := by
  cases c <;> simp [decodePair, hp, dioEdge, clkEdge, commitBit, hi]

theorem phase_of_outside {s : State} (h : inTxn s = false) : s.dec.phase = .idle := by
  cases hp : s.dec.phase with
  | idle => rfl
  | frame => simp [inTxn, hp] at h

/-- Driving CLK low with DIO driven, where the decoder delivers nothing. -/
theorem actStep_clkLow {s : State} {d : Decoder} (h : calm s) (ho : s.lines.dioOe = true)
    (hd : decodePair s.dec false s.lines.dioLatch = (d, none)) (rest : List PStep) :
    actStep (.clkSet false) rest s =
      .next (setDecoder (recordAct (.clkSet false) rest s.lines.dioLatch s) d) := by
  have hv : levelAfter (.clkSet false) rest s = s.lines.dioLatch :=
    levelAfter_driven (a := .clkSet false) (rest := rest) ho
  have hc : clkBus (applyAction (.clkSet false) s.lines) s.obs = false := rfl
  rw [actStep_calm h.2, hv, afterAct, hc, busChange, recordAct_dec, hd]

/-- Outside a frame, driving CLK low gives the same state whether CLK was high or low. -/
theorem wholeEntry_lowerClk {s : State} (h : calm s) (hd : driven s) (ht : inTxn s = false) (rest : List PStep) :
    wholeEntry (.act (.clkSet false)) rest (lowerClk s) = wholeEntry (.act (.clkSet false)) rest s := by
  obtain ⟨-, hdio, hprev⟩ := hd
  have hidle := phase_of_outside ht
  simp only [wholeEntry]
  rw [actStep_clkLow h hdio (decodePair_fall_idle hprev hidle),
    actStep_clkLow (s := lowerClk s) h hdio (decodePair_fall_idle rfl hidle)]
  rfl

/-- So a byte write from driven lines outside a frame runs as if CLK had been low. -/
theorem runEntries_byteSeq_lowerClk {s : State} (h : calm s) (hd : driven s) (ht : inTxn s = false) (b : Byte)
    (rest : List PStep) : runEntries (byteSeq b) rest (lowerClk s) = runEntries (byteSeq b) rest s := by
  obtain ⟨l, hl, -⟩ := byteSeq_lowersClk b
  have hentry := wholeEntry_lowerClk (s := advance (applyUpdate s (.loadShift b)) (.act (.clkSet false) :: l ++ rest))
    h hd ht (l ++ rest)
  rw [hl]
  exact congrArg (andThen · (runEntries l rest)) hentry

/-! ### The rising edges -/

/-- At a byte boundary of a frame, or from driven lines outside a frame, the nine rising edges of a byte write carry the
byte, bit 0 first, and the answer. -/
theorem byteSeq_rises {s : State} (h : calm s) (hs : atByteBoundary s ∨ (driven s ∧ inTxn s = false)) (b : Byte)
    (rest : List PStep) :
    ∃ u tr r, runEntries (byteSeq b) rest s = .next u ∧ u.trace = s.trace ++ tr ∧
      risingLevels s.lines.clkO tr = bitsOf b ++ [r] := by
  rcases hs with hs | ⟨hd, ht⟩
  · have hlow := low_of_atByteBoundary hs
    obtain ⟨u, tr, r, hrun, hwave, hrise, -⟩ := byteSeq_wave h hlow (fun _ => rfl) b rest
    exact ⟨u, tr, r, hrun, hwave.list.trace, by rw [hlow.lines]; exact hrise⟩
  · have hlow : Low s.lines.dioLatch .idle s.dec.bits s.dec.bytes s.dec.acked (lowerClk s) := by
      obtain ⟨hclk, hdio, -⟩ := hd
      exact ⟨by simp [lowerClk, hclk, hdio], rfl, phase_of_outside ht, rfl, rfl, rfl⟩
    obtain ⟨u, tr, r, hrun, hwave, hrise, -⟩ := byteSeq_wave (s := lowerClk s) h hlow (fun hf => by cases hf) b rest
    rw [runEntries_byteSeq_lowerClk h hd ht] at hrun
    have htrace : u.trace = s.trace ++ tr := hwave.list.trace
    obtain ⟨v, tr', hfirst⟩ := byteSeq_trace_startsLow h hrun
    obtain rfl : tr = .ev (.clkSet false) false v :: tr' := List.append_cancel_left (htrace.symm.trans hfirst)
    exact ⟨u, _, r, hrun, htrace, by rw [risingLevels_low] at hrise ⊢; exact hrise⟩

/-- Settles O36: the nine rising edges carry the byte and the answer; latching the answer adds nothing to the trace. -/
theorem byteGoesOutLsbFirst : Obligations.ByteGoesOutLsbFirst := by
  intro s b h hb hs
  have hexec : exec (.writeByte b) s = .next (loadList s (byteSeq b ++ [.update .latchAck])) := by
    simp [exec, execWriteByte, ifBound, hb]
  obtain ⟨u, tr, r, hrun, htrace, hrise⟩ :=
    byteSeq_rises (s := loadList s (byteSeq b ++ [.update .latchAck])) (loadList_calm h _) hs b
      [.update .latchAck]
  have hrise' : risingLevels s.lines.clkO tr = bitsOf b ++ [r] := hrise
  refine ⟨finishRequest (advance (applyUpdate u .latchAck) []), tr, ?_, htrace, ?_, ?_⟩
  · rw [request_accepted hexec, runEntries_append_of hrun rfl]
    rfl
  · rw [hrise']
    rfl
  · rw [hrise']
    rfl

end Sys2Proof.Proofs
end

section
/-! PROOFS. Requests and bus bytes are encoded and decoded without loss (spec 30 R70 to R76, R78 to R86). -/

namespace Sys2Proof.Proofs

open Sys2Proof.Machine Sys2Proof.Laws

/-! ### The three fields of a request word (30 R70) -/

theorem opField_requestWord (op : BitVec 4) (a b : Word) : opField (requestWord op a b) = op :=
  (BitVec.extractLsb'_append_eq_of_le (by decide)).trans BitVec.extractLsb'_append_eq_left

theorem aField_requestWord (op : BitVec 4) (a b : Word) : aField (requestWord op a b) = a :=
  (BitVec.extractLsb'_append_eq_of_le (by decide)).trans BitVec.extractLsb'_append_eq_right

theorem bField_requestWord (op : BitVec 4) (a b : Word) : bField (requestWord op a b) = b :=
  BitVec.extractLsb'_append_eq_right

/-- A word put together from its fields decodes by them. -/
@[simp] theorem decode_requestWord (op : BitVec 4) (a b : Word) :
    decode (.request (requestWord op a b)) = .ok (decodeRequest op a b) := by
  simp only [decode, opField_requestWord, aField_requestWord, bField_requestWord]

/-! ### Operands and their fields (30 R72) -/

theorem toNat_ofNat_of_fits {n : Nat} (h : fitsUnsigned n = true) : (BitVec.ofNat 32 n).toNat = n :=
  Nat.mod_eq_of_lt (of_decide_eq_true h)

theorem toInt_ofInt_of_fits {i : Int} (h : fitsSigned i = true) : (BitVec.ofInt 32 i).toInt = i := by
  obtain ⟨hlo, hhi⟩ := of_decide_eq_true h
  exact BitVec.toInt_ofInt_eq_self (by decide) hlo hhi

theorem byteField_setWidth (b : Byte) : (b.setWidth 32).extractLsb' 0 8 = b := by
  rw [BitVec.extractLsb'_setWidth_of_le (by decide), BitVec.extractLsb'_eq_self]

theorem bitField_ite (v : Bit) : (if v then 1#32 else 0#32).getLsbD 0 = v := by cases v <;> rfl

/-! ### Command bytes (30 R79 to R84) -/

theorem decode_addrByte (p : BitVec 2) : decode (.command (0xC0#8 + p.setWidth 8)) = .ok (.addr p) := by
  revert p
  decide

theorem decode_ctrlByte (l : BitVec 3) : decode (.command (0x88#8 ||| l.setWidth 8)) = .ok (.displayCtrl l) := by
  revert l
  decide

/-- The match and mask of `ADDR` fix all of a byte but its field (30 R81). -/
theorem eq_addrByte_of_mask {b : Byte} (h : b &&& 0xFC#8 = 0xC0#8) : ∃ p : BitVec 2, b = 0xC0#8 + p.setWidth 8 := by
  refine ⟨b.extractLsb' 0 2, ?_⟩
  revert b
  decide

/-- The match and mask of `DISPLAY_CTRL` fix all of a byte but its field (30 R82). -/
theorem eq_ctrlByte_of_mask {b : Byte} (h : b &&& 0xF8#8 = 0x88#8) : ∃ l : BitVec 3, b = 0x88#8 ||| l.setWidth 8 := by
  refine ⟨b.extractLsb' 0 3, ?_⟩
  revert b
  decide

/-- A byte that matches no row of the table is rejected by name (30 R84). -/
theorem decode_unmatched {b : Byte} (hauto : b ≠ 0x40#8) (hfixed : b ≠ 0x44#8) (haddr : b &&& 0xFC#8 ≠ 0xC0#8)
    (hctrl : b &&& 0xF8#8 ≠ 0x88#8) : decode (.command b) = .error (.unknownCommand b) := by
  simp only [decode, decodeCommand, if_neg hauto, if_neg hfixed, if_neg haddr, if_neg hctrl]

/-! ### Decoding inverts encoding -/

/-- Settles O1: the word of a request gives its fields back, and a well-formed operand fits its field; the fields of the
command bytes are small enough to try every value. -/
theorem decodeInvertsEncode : Obligations.DecodeInvertsEncode := by
  intro i hwf
  cases i with
  | configure c d | initializeDisplay c d =>
    obtain ⟨hc, hd⟩ := Bool.and_eq_true_iff.mp hwf
    simp [encode, decodeRequest, toNat_ofNat_of_fits hc, toNat_ofNat_of_fits hd, -BitVec.toNat_ofNat]
  | displayDigit p d =>
    obtain ⟨hp, hd⟩ := Bool.and_eq_true_iff.mp hwf
    simp [encode, decodeRequest, toInt_ofInt_of_fits hp, toInt_ofInt_of_fits hd, -BitVec.toInt_ofInt]
  | setBrightness v | displayNumber v => simp [encode, decodeRequest, toInt_ofInt_of_fits hwf, -BitVec.toInt_ofInt]
  | writeBit v => simp [encode, decodeRequest, bitField_ite, -BitVec.getLsbD_eq_getElem]
  | writeByte b | writeCommand b => simp [encode, decodeRequest, byteField_setWidth]
  | start | stop | clearDisplay | reserved0 | reserved7 | reservedD | reservedE | reservedF =>
    exact decode_requestWord _ 0#32 0#32
  | addr p => exact decode_addrByte p
  | displayCtrl l => exact decode_ctrlByte l
  | dataAuto | dataFixed | segmentData => rfl

/-! ### Reserved op codes (30 R74) -/

/-- Whether a request is reserved does not depend on its operands. -/
theorem isReserved_decodeRequest_operands (op : BitVec 4) (a b : Word) :
    isReserved (decodeRequest op a b) = isReserved (decodeRequest op 0#32 0#32) := by
  unfold decodeRequest
  split <;> rfl

theorem isReserved_decodeRequest (op : BitVec 4) (a b : Word) :
    isReserved (decodeRequest op a b) = true ↔
      op = 0x0#4 ∨ op = 0x7#4 ∨ op = 0xD#4 ∨ op = 0xE#4 ∨ op = 0xF#4 := by
  rw [isReserved_decodeRequest_operands]
  revert op
  decide

/-- Settles O3: the decoder answers by the op code alone, and always with a request. -/
theorem requestDecodingIsTotal : Obligations.RequestDecodingIsTotal := fun _ =>
  ⟨_, rfl, isRequest_decodeRequest _ _ _, isReserved_decodeRequest _ _ _⟩

/-! ### The worked encodings (30 R86) -/

/-- Of a worked row only the request's word is to be checked: that the word gives the request back is O1. -/
theorem encodes_both_ways {i : Instr} {c : Code} (he : encode i = c) (hwf : i.wf = true) :
    encode i = c ∧ decode c = .ok i :=
  ⟨he, he ▸ decodeInvertsEncode i hwf⟩

/-- Settles O2: the words row by row, the bus bytes of three rows, and the two numbers that are out of range. -/
theorem workedEncodings : Obligations.WorkedEncodings := by
  refine ⟨?_, ?_, ?_, ?_, ?_, ?_, ?_, ?_, ?_, ?_, ?_, ?_, ?_, ?_⟩
  -- SET_BRIGHTNESS 4 and 10, DISPLAY_DIGIT 2, 7
  case refine_8 | refine_9 | refine_10 => exact and_assoc.mp ⟨encodes_both_ways (by decide) (by decide), by decide⟩
  -- DISPLAY_NUMBER -1 and 10000
  case refine_12 => exact and_assoc.mp ⟨encodes_both_ways (by decide) (by decide), .inl (by decide)⟩
  case refine_13 => exact and_assoc.mp ⟨encodes_both_ways (by decide) (by decide), .inr (by decide)⟩
  all_goals exact encodes_both_ways (by decide) (by decide)

/-! ### Match and mask -/

/-- Settles O5: a byte is one of the two mode commands, or the mask of `ADDR` or of `DISPLAY_CTRL` leaves it a field, or
it is rejected. -/
theorem busBytesByMatchAndMask : Obligations.BusBytesByMatchAndMask := by
  intro b
  by_cases hauto : b = 0x40#8
  · subst hauto
    decide
  by_cases hfixed : b = 0x44#8
  · subst hfixed
    decide
  by_cases haddr : b &&& 0xFC#8 = 0xC0#8
  · obtain ⟨p, rfl⟩ := eq_addrByte_of_mask haddr
    clear hauto hfixed haddr
    revert p
    decide
  by_cases hctrl : b &&& 0xF8#8 = 0x88#8
  · obtain ⟨l, rfl⟩ := eq_ctrlByte_of_mask hctrl
    clear hauto hfixed haddr hctrl
    revert l
    decide
  · have hwhole : b &&& 0xFF#8 = b := BitVec.and_allOnes
    simp only [decode_unmatched hauto hfixed haddr hctrl, hwhole]
    simp [hauto, hfixed, haddr, hctrl, decode]

end Sys2Proof.Proofs
end

section
/-! PROOFS. The operand bits a request does not use have no effect (spec 30 R73). -/

namespace Sys2Proof.Proofs

open Sys2Proof.Machine Sys2Proof.Laws

/-! ### The decoder reads the used bits only -/

theorem bitField_masked (a : Word) : (a &&& 1#32).getLsbD 0 = a.getLsbD 0 := by
  rw [BitVec.getLsbD_and]
  exact Bool.and_true _

theorem byteField_masked (a : Word) : (a &&& 0xFF#32).extractLsb' 0 8 = a.extractLsb' 0 8 := by
  rw [BitVec.extractLsb'_and]
  exact BitVec.and_allOnes

theorem decodeRequest_used (op : BitVec 4) (a b : Word) :
    decodeRequest op (usedA op a) (usedB op b) = decodeRequest op a b := by
  unfold decodeRequest usedA usedB
  split <;> simp only [bitField_masked, byteField_masked, *]

/-! ### Nothing reads the operand registers -/

/-- The state with other operands latched. -/
def withOperands (a b : Word) (s : State) : State := { s with aL := a, bL := b }

/-- The operation neither reads nor writes the latched operands `a_l` and `b_l`. -/
def OperandBlind (f : State → Result) : Prop :=
  ∀ a b s, f (withOperands a b s) = andThen (f s) (fun t => .next (withOperands a b t))

theorem OperandBlind.andThen {f g : State → Result} (hf : OperandBlind f) (hg : OperandBlind g) :
    OperandBlind (fun s => andThen (f s) g) := by
  intro a b s
  simp only [hf a b s, andThen_assoc, andThen_next]
  cases f s with
  | next t => exact hg a b t
  | fault e => rfl
  | refused e => rfl

theorem acceptRequest_withOperands (a b : Word) (s : State) (body : Except Reject (List PStep)) :
    acceptRequest (withOperands a b s) body = withOperands a b (acceptRequest s body) := by
  cases body with
  | ok l => rfl
  | error r => cases r <;> rfl

theorem oneByteFrame_withOperands (a b : Word) (s : State) (r : Rx) :
    oneByteFrame (withOperands a b s) r = withOperands a b (oneByteFrame s r) :=
  (apply_ite (withOperands a b) (frameRest s = []) (finishFrame s r) (undefinedFrame s)).symm

/-- No instruction reads the latched operands: a request has them in its own fields already. -/
theorem exec_operandBlind (i : Instr) : OperandBlind (exec i) := by
  intro a b s
  cases i with
  | dataAuto | dataFixed | displayCtrl => exact congrArg Host.Outcome.next (oneByteFrame_withOperands a b s _)
  | addr p =>
    simp only [exec, execAddr, andThen_next, apply_ite (withOperands a b)]
    rfl
  | segmentData pat =>
    have haddr : (withOperands a b s).rxAddr = s.rxAddr := rfl
    simp only [exec, execSegmentData, haddr]
    cases s.rxAddr with
    | none => rfl
    | some p => exact congrArg Host.Outcome.next (oneByteFrame_withOperands a b s _)
  | displayNumber v =>
    exact congrArg (fun t => Host.Outcome.next (setDigits t (if s.bound && numberValid v then digitsOf v else s.dig)))
      (acceptRequest_withOperands a b s _)
  | reserved0 | reserved7 | reservedD | reservedE | reservedF => rfl
  | _ => exact congrArg Host.Outcome.next (acceptRequest_withOperands a b s _)

/-! ### The entries of a step list -/

/-- Each step of the receiver over a waiting frame ends the frame as undefined or runs an instruction. -/
theorem takeFrame_operandBlind (k : Nat) : OperandBlind (takeFrame k) := by
  induction k with
  | zero => exact fun _ _ _ => rfl
  | succ k ih =>
    intro a b s
    have undefined : takeFrame k (undefinedFrame (withOperands a b s)) =
        andThen (takeFrame k (undefinedFrame s)) (fun t => .next (withOperands a b t)) := ih a b (undefinedFrame s)
    have byte : ∀ i rest, andThen (exec i (takeByte (withOperands a b s) rest)) (takeFrame k) =
        andThen (andThen (exec i (takeByte s rest)) (takeFrame k)) (fun t => .next (withOperands a b t)) :=
      fun i rest => (exec_operandBlind i).andThen ih a b (takeByte s rest)
    have hinbox : (withOperands a b s).rxInbox = s.rxInbox := rfl
    have haddr : (withOperands a b s).rxAddr = s.rxAddr := rfl
    simp only [takeFrame, hinbox]
    cases s.rxInbox with
    | none => rfl
    | some bytes =>
      cases bytes with
      | nil => exact undefined
      | cons c rest =>
        simp only [fetchBusByte, haddr]
        cases s.rxAddr with
        | some p => exact byte (.segmentData c) rest
        | none =>
          cases decode (.command c) with
          | error e => exact undefined
          | ok i => exact byte i rest

theorem deliverFrame_withOperands (a b : Word) (s : State) (f : Frame) :
    deliverFrame (withOperands a b s) f = withOperands a b (deliverFrame s f) := by
  simp only [deliverFrame, apply_ite (withOperands a b)]
  rfl

theorem busChange_withOperands (a b : Word) (s : State) (c v : Bit) :
    busChange (withOperands a b s) c v = withOperands a b (busChange s c v) := by
  have hdec : (withOperands a b s).dec = s.dec := rfl
  simp only [busChange, hdec]
  cases (decodePair s.dec c v).2 with
  | none => rfl
  | some f => exact deliverFrame_withOperands a b (setDecoder s (decodePair s.dec c v).1) f

theorem abandonTxn_withOperands (a b : Word) (s : State) :
    abandonTxn (withOperands a b s) = withOperands a b (abandonTxn s) :=
  (apply_ite (withOperands a b) (inTxn s = true) (setRx s Rx.top) s).symm

theorem actStep_operandBlind (act : LineAction) (rest : List PStep) : OperandBlind (actStep act rest) := by
  intro a b s
  have hobs : observeDio (withOperands a b s) (applyAction act (withOperands a b s).lines) rest =
      observeDio s (applyAction act s.lines) rest := rfl
  rw [actStep_eq, actStep_eq, hobs]
  cases observeDio s (applyAction act s.lines) rest with
  | error f => rfl
  | ok v => exact congrArg Host.Outcome.next (busChange_withOperands a b (recordAct act rest v s) _ v)

theorem wholeEntry_operandBlind (e : PStep) (rest : List PStep) : OperandBlind (wholeEntry e rest) := by
  cases e with
  | act v =>
    have wait : OperandBlind (waitStep rest) := fun _ _ _ => rfl
    exact ((actStep_operandBlind v rest).andThen (takeFrame_operandBlind 2)).andThen wait
  | wait => exact fun _ _ _ => rfl
  | sample =>
    intro a b s
    have hobs : observeDio (withOperands a b s) (withOperands a b s).lines rest = observeDio s s.lines rest := rfl
    simp only [wholeEntry, sampleStep, hobs]
    cases observeDio s s.lines rest <;> rfl
  | update u => cases u <;> exact fun _ _ _ => rfl
  | bind c d =>
    exact fun a b s => congrArg (fun t => Host.Outcome.next (recordBind c d rest t)) (abandonTxn_withOperands a b s)

theorem runList_operandBlind (l : List PStep) : OperandBlind (runList l) := by
  induction l with
  | nil => exact fun _ _ _ => rfl
  | cons e rest ih => exact (wholeEntry_operandBlind e rest).andThen ih

theorem request_operandBlind (i : Instr) : OperandBlind (request i) :=
  (exec_operandBlind i).andThen fun a b s => runList_operandBlind s.prog a b s

/-! ### Nothing observed depends on them -/

theorem observed_withOperands (a b : Word) (r : Result) :
    observed (andThen r (fun t => .next (withOperands a b t))) = observed r := by
  cases r <;> rfl

/-- Settles O4: the used bits decode to the same request, and what is left of the ignored ones, in `a_l` and `b_l`, is
neither read nor observed. -/
theorem ignoredOperandBitsHaveNoEffect : Obligations.IgnoredOperandBitsHaveNoEffect := by
  intro s op a b
  have hlatch : latchRequest s op (usedA op a) (usedB op b) =
      withOperands (usedA op a) (usedB op b) (latchRequest s op a b) := rfl
  rw [acceptAndRun, acceptAndRun, decodeRequest_used, hlatch, request_operandBlind, observed_withOperands]

end Sys2Proof.Proofs
end

section
/-! PROOFS. The counts of the shared sequences and of every request's step list (spec 40 R107, R126; 41 R158). -/

namespace Sys2Proof.Proofs

open Sys2Proof.Machine Sys2Proof.Laws

/-! ### What is counted -/

/-- Line actions, samples and `CLK_SET(1)` actions of a step list. -/
def Counts (l : List PStep) (n k e : Nat) : Prop :=
  countActs l = n ∧ countSamples l = k ∧ l.count (.act (.clkSet true)) = e

theorem Counts.append {l1 l2 : List PStep} {n1 k1 e1 n2 k2 e2 : Nat} (h1 : Counts l1 n1 k1 e1)
    (h2 : Counts l2 n2 k2 e2) : Counts (l1 ++ l2) (n1 + n2) (k1 + k2) (e1 + e2) := by
  obtain ⟨ha1, hs1, hc1⟩ := h1
  obtain ⟨ha2, hs2, hc2⟩ := h2
  exact ⟨by rw [countActs_append, ha1, ha2], by rw [countSamples_append, hs1, hs2], by rw [List.count_append, hc1, hc2]⟩

/-! ### The shared sequences -/

theorem counts_startSeq : Counts startSeq 2 0 0 := ⟨rfl, rfl, rfl⟩

theorem counts_stopSeq : Counts stopSeq 4 0 1 := ⟨rfl, rfl, rfl⟩

theorem counts_redriveSeq : Counts redriveSeq 2 0 1 := ⟨rfl, rfl, rfl⟩

theorem counts_ackSeq : Counts ackSeq 5 1 1 := ⟨rfl, rfl, rfl⟩

theorem counts_bitSeq (v : Bit) : Counts (bitSeq v) 5 0 1 := by cases v <;> exact ⟨rfl, rfl, rfl⟩

theorem counts_shiftedBitSeq (v : Bit) : Counts (shiftedBitSeq v) 5 0 1 :=
  (counts_bitSeq v).append (l2 := [.update .shiftBit]) ⟨rfl, rfl, rfl⟩

theorem counts_dataBits (vs : List Bit) : Counts (vs.flatMap shiftedBitSeq) (5 * vs.length) 0 vs.length := by
  induction vs with
  | nil => exact ⟨rfl, rfl, rfl⟩
  | cons v vs ih =>
    have h := (counts_shiftedBitSeq v).append ih
    rwa [Nat.add_comm 5, Nat.add_comm 1] at h

/-- Eight data bits and the ACK slot (40 R106). -/
theorem counts_byteSeq (b : Byte) : Counts (byteSeq b) 45 1 9 := by
  have hload : Counts [.update (.loadShift b)] 0 0 0 := ⟨rfl, rfl, rfl⟩
  rw [byteSeq_eq]
  exact hload.append ((counts_dataBits (bitsOf b)).append counts_ackSeq)

/-- Settles O9: the counts add up over the parts of a sequence. -/
theorem sharedSequenceCounts : Obligations.SharedSequenceCounts :=
  ⟨counts_startSeq, counts_stopSeq, counts_bitSeq, counts_ackSeq, counts_byteSeq⟩

/-! ### The frames -/

theorem counts_cmdFrame (b : Byte) : Counts (cmdFrame b) 51 1 10 :=
  (counts_startSeq.append (counts_byteSeq b)).append counts_stopSeq

theorem counts_addrFrame (p : BitVec 2) (pat : Byte) : Counts (addrFrame p pat) 96 2 19 :=
  ((counts_startSeq.append (counts_byteSeq _)).append (counts_byteSeq pat)).append counts_stopSeq

theorem counts_fourDigitFrames (p0 p1 p2 p3 : Byte) : Counts (fourDigitFrames p0 p1 p2 p3) 435 9 86 :=
  ((((counts_cmdFrame _).append (counts_addrFrame _ p0)).append (counts_addrFrame _ p1)).append
    (counts_addrFrame _ p2)).append (counts_addrFrame _ p3)

theorem counts_initializeFrames : Counts initializeFrames 486 10 96 :=
  (counts_fourDigitFrames _ _ _ _).append (counts_cmdFrame _)

/-! ### The step list of each request -/

/-- With valid ids `CONFIGURE` has a step list: a `Bind` or none, and both lines driven high (40 R110). -/
theorem configureBody_inRange {s : State} {c d : Nat} (h : ¬ outOfRange (.configure c d)) :
    ∃ l, configureBody s c d = .ok (l ++ redriveSeq) ∧ Counts l 0 0 0 := by
  rw [configureBody, if_pos (lineIdsValid_of_inRange h)]
  refine ⟨_, rfl, ?_⟩
  split <;> exact ⟨rfl, rfl, rfl⟩

theorem exec_start_bound {s : State} (h : s.bound = true) : exec .start s = .next (loadList s startSeq) := by
  simp [exec, execStart, ifBound, h]

theorem exec_stop_bound {s : State} (h : s.bound = true) : exec .stop s = .next (loadList s stopSeq) := by
  simp [exec, execStop, ifBound, h]

theorem exec_writeBit_bound {s : State} (h : s.bound = true) (v : Bit) :
    exec (.writeBit v) s = .next (loadList s (bitSeq v)) := by
  simp [exec, execWriteBit, ifBound, h]

theorem exec_writeByte_bound {s : State} (h : s.bound = true) (b : Byte) :
    exec (.writeByte b) s = .next (loadList s (byteSeq b ++ [PStep.update .latchAck])) := by
  simp [exec, execWriteByte, ifBound, h]

theorem exec_writeCommand_bound {s : State} (h : s.bound = true) (b : Byte) :
    exec (.writeCommand b) s = .next (loadList s (cmdFrame b)) := by
  simp [exec, execWriteCommand, ifBound, h]

theorem exec_setBrightness_bound {s : State} (h : s.bound = true) (l : Int) :
    exec (.setBrightness l) s = .next (loadList s (brightnessBody l)) := by
  simp [exec, execSetBrightness, ifBound, h]

theorem exec_displayDigit_bound {s : State} (h : s.bound = true) {p d : Int} (hr : ¬ outOfRange (.displayDigit p d)) :
    exec (.displayDigit p d) s = .next (loadList s (cmdFrame dataFixedByte ++
      addrFrame (BitVec.ofInt 2 p) (segRom (BitVec.ofInt 4 d)))) := by
  simp [exec, execDisplayDigit, ifBound, h, digitBody, digitValid_of_inRange hr]

theorem exec_displayNumber_bound {s : State} (h : s.bound = true) {v : Int} (hr : ¬ outOfRange (.displayNumber v)) :
    exec (.displayNumber v) s = .next (setDigits (loadList s (fourDigitFrames (segRom (digitsOf v).d0)
      (segRom (digitsOf v).d1) (segRom (digitsOf v).d2) (segRom (digitsOf v).d3))) (digitsOf v)) := by
  simp [exec, execDisplayNumber, ifBound, h, numberBody, numberValid_of_inRange hr]

theorem exec_clearDisplay_bound {s : State} (h : s.bound = true) :
    exec .clearDisplay s = .next (loadList s clearBody) := by
  simp [exec, execClearDisplay, ifBound, h]

/-- A request that is not rejected has its operands in range, and its binding if it needs one (60 R200, R202). -/
theorem accepts_of_notRejected {i : Instr} {s : State} (h : ∀ r, ¬ rejectedFor i s r) :
    ¬ outOfRange i ∧ (needsBinding i = true → s.bound = true) := by
  have hbound : needsBinding i = true → s.bound = true := by simpa [rejectedFor] using h .unbound
  exact ⟨fun ho => h .range ⟨ho, hbound⟩, hbound⟩

/-- Of a request that loads a list, the counts are those of the list. -/
theorem Counts.prog_of_exec {i : Instr} {s t : State} {l : List PStep} {n k e : Nat} (hc : Counts l n k e)
    (hl : exec i s = .next (loadList s l)) (he : exec i s = .next t) : Counts t.prog n k e := by
  rw [hl] at he
  cases he
  exact hc

/-- Settles O10: a request that is not rejected loads the list of its row, whose counts add up over its parts. -/
theorem requestCounts : Obligations.RequestCounts := by
  intro i s t n k e he hrej hrow
  obtain ⟨hr, hbound⟩ := accepts_of_notRejected hrej
  cases i with
  | configure c d =>
    obtain ⟨rfl, rfl, rfl⟩ := hrow
    obtain ⟨l, hbody, hc⟩ := configureBody_inRange (s := s) hr
    exact (hc.append counts_redriveSeq).prog_of_exec (exec_configure_ok hbody) he
  | initializeDisplay c d =>
    obtain ⟨rfl, rfl, rfl⟩ := hrow
    obtain ⟨l, hbody, hc⟩ := configureBody_inRange (s := s) hr
    have hall := (hc.append counts_redriveSeq).append counts_initializeFrames
    exact hall.prog_of_exec (exec_initializeDisplay_ok hbody) he
  | start =>
    obtain ⟨rfl, rfl, rfl⟩ := hrow
    exact counts_startSeq.prog_of_exec (exec_start_bound (hbound rfl)) he
  | stop =>
    obtain ⟨rfl, rfl, rfl⟩ := hrow
    exact counts_stopSeq.prog_of_exec (exec_stop_bound (hbound rfl)) he
  | writeBit v =>
    obtain ⟨rfl, rfl, rfl⟩ := hrow
    exact (counts_bitSeq v).prog_of_exec (exec_writeBit_bound (hbound rfl) v) he
  | writeByte b =>
    obtain ⟨rfl, rfl, rfl⟩ := hrow
    have hlatch : Counts [.update .latchAck] 0 0 0 := ⟨rfl, rfl, rfl⟩
    exact ((counts_byteSeq b).append hlatch).prog_of_exec (exec_writeByte_bound (hbound rfl) b) he
  | writeCommand b =>
    obtain ⟨rfl, rfl, rfl⟩ := hrow
    exact (counts_cmdFrame b).prog_of_exec (exec_writeCommand_bound (hbound rfl) b) he
  | setBrightness l =>
    obtain ⟨rfl, rfl, rfl⟩ := hrow
    exact (counts_cmdFrame _).prog_of_exec (exec_setBrightness_bound (hbound rfl) l) he
  | displayDigit p d =>
    obtain ⟨rfl, rfl, rfl⟩ := hrow
    exact ((counts_cmdFrame _).append (counts_addrFrame _ _)).prog_of_exec (exec_displayDigit_bound (hbound rfl) hr) he
  | displayNumber v =>
    obtain ⟨rfl, rfl, rfl⟩ := hrow
    rw [exec_displayNumber_bound (hbound rfl) hr] at he
    cases he
    exact counts_fourDigitFrames _ _ _ _
  | clearDisplay =>
    obtain ⟨rfl, rfl, rfl⟩ := hrow
    exact (counts_fourDigitFrames _ _ _ _).prog_of_exec (exec_clearDisplay_bound (hbound rfl)) he
  | reserved0 | reserved7 | reservedD | reservedE | reservedF | dataAuto | dataFixed | addr _ | displayCtrl _
  | segmentData _ => exact hrow.elim

end Sys2Proof.Proofs
end

section
/-! PROOFS. What a step of the engine does to the drivers, and how a request ends (spec 40 R100 to R105, 10 R44). -/

namespace Sys2Proof.Proofs

open Sys2Proof.Machine Sys2Proof.Laws

/-- An operation answers one next state. -/
theorem next_unique {r : Result} {u v : State} (hu : r = .next u) (hv : r = .next v) : u = v := by
  simpa using hu.symm.trans hv

/-! ### The engine's step -/

/-- The turn is the engine's while it is busy, no frame waits and `rst` is low. -/
theorem step_busy {s : State} (hin : s.rxInbox = none) (hrst : rstHigh s = false) (hbusy : s.busy = true) :
    step s = engineStep (takeRst s) := by
  simp [step, fetch, hin, hrst, hbusy]

theorem step_entry {s : State} {e : PStep} {rest : List PStep} (hin : s.rxInbox = none) (hrst : rstHigh s = false)
    (hbusy : s.busy = true) (hp : s.prog = e :: rest) : step s = performEntry e rest (takeRst s) := by
  rw [step_busy hin hrst hbusy, engineStep, takeRst_prog, hp]

theorem step_finish {s : State} (hin : s.rxInbox = none) (hrst : rstHigh s = false) (hbusy : s.busy = true)
    (hp : s.prog = []) : step s = .next (finishRequest (takeRst s)) := by
  rw [step_busy hin hrst hbusy, engineStep, takeRst_prog, hp]

/-- A ready engine to which nothing is offered has an idle cycle (10 R21). -/
theorem step_idle {s : State} (hin : s.rxInbox = none) (hrst : rstHigh s = false) (hbusy : s.busy = false)
    (hm : reqValid s = false) : step s = .next (idleCycle (takeRst s)) := by
  simp only [step, fetch, hin, hrst, hbusy, fetchRequest, takeRst_hostMoves]
  cases hl : s.hostMoves with
  | nil => rfl
  | cons m ms =>
    cases m with
    | pause => rfl
    | offer op a b => simp [reqValid, hl] at hm

/-! ### The line drivers -/

theorem afterAct_lines (a : LineAction) (rest : List PStep) (v : Bit) (s : State) :
    (afterAct a rest v s).lines = applyAction a s.lines := by
  simp [afterAct]

/-- Settles O14: a receiver that keeps 42 R176 lets every line action go through. -/
theorem lineActionEffects : Obligations.LineActionEffects := by
  intro s rest a hr
  refine ⟨_, actStep_calm hr a rest, ?_⟩
  cases a <;> exact afterAct_lines _ _ _ s

/-- Settles O15: of all that a step can be, three touch the drivers. -/
theorem driversChangeOnlyByActions : Obligations.DriversChangeOnlyByActions := by
  intro s t h
  cases step_cases h with
  | act a rest v _ _ busy prog _ eq =>
    exact .inr (.inl ⟨busy, a, rest, prog, by rw [eq, afterAct_lines, takeRst_lines]⟩)
  | bind c d rest _ _ busy prog eq =>
    exact .inr (.inr (.inl ⟨busy, c, d, rest, prog, by simp [eq, undrive]⟩))
  | reset _ rst eq => exact .inr (.inr (.inr ⟨rst, by rw [eq]; rfl⟩))
  | accept op a b _ _ _ _ _ eq =>
    obtain ⟨hlines, -⟩ := exec_decodeRequest_keepsBus eq
    exact .inl hlines
  | frameRead _ _ _ eq | addressed _ _ _ _ _ eq | finish _ _ _ _ eq | wait _ _ _ _ _ eq | sample _ _ _ _ _ _ _ eq
  | update _ _ _ _ _ _ eq | idle _ _ _ eq => exact .inl (by simp [eq])

/-! ### Events, waits and samples -/

/-- What an observation reads: the latch while DIO is driven, the receiver's answer while it is released (10 R27). -/
theorem observedLevel_known (s : State) (l : Lines) (rest : List PStep) {v : Bit}
    (hv : v = if l.dioOe then l.dioLatch else releasedLevel s rest) :
    (l.dioOe = true → v = l.dioLatch) ∧ (l.dioOe = false → s.receiver = .absent → v = true) ∧
      (l.dioOe = false → s.receiver = .reference → v = !refPulls s) := by
  obtain ⟨habs, href⟩ := releasedLevel_known s rest
  exact ⟨fun ho => by simp [hv, ho], fun ho hk => by simp [hv, ho, habs hk], fun ho hk => by simp [hv, ho, href hk]⟩

/-- Settles O16: the three kinds of entry that reach the trace, each by its own operation. -/
theorem waitFollowsEveryAction : Obligations.WaitFollowsEveryAction := by
  refine ⟨fun s a rest hbusy hcalm hrst hp => ?_, fun s rest hbusy hin hrst hp => ?_,
    fun s rest hbusy hcalm hrst hp => ?_⟩
  · have hstep : step s = .next (afterAct a rest (levelAfter a rest (takeRst s)) (takeRst s)) := by
      rw [step_entry hcalm.1 hrst hbusy hp]
      exact actStep_calm (s := takeRst s) hcalm.2 a rest
    refine ⟨_, levelAfter a rest (takeRst s), hstep, by simp [afterAct], by simp [afterAct], afterAct_lines _ _ _ _,
      by rw [afterAct_lines, afterAct_trace]; rfl, ?_⟩
    rw [afterAct_lines]
    exact observedLevel_known s _ rest rfl
  · exact ⟨_, step_entry hin hrst hbusy hp, rfl, rfl, rfl, rfl, rfl⟩
  · have hstep : step s = .next (recordSample rest (sampleLevel rest (takeRst s)) (takeRst s)) := by
      rw [step_entry hcalm.1 hrst hbusy hp]
      exact sampleStep_calm (s := takeRst s) hcalm.2 rest
    exact ⟨_, sampleLevel rest (takeRst s), hstep, by simp, by simp, by simp, by simp, by simp, by simp,
      observedLevel_known s _ rest rfl⟩

/-! ### The end of a request -/

theorem rstHigh_of_nil {s : State} (h : s.rstIn = []) : rstHigh s = false := by
  rw [rstHigh, h]
  rfl

/-- With no reset to come, an engine that is not busy is ready (10 R21). -/
theorem reqReady_of_idle {s : State} (hbusy : s.busy = false) (hrst : s.rstIn = []) : reqReady s = true := by
  simp [reqReady, hbusy, rstHigh_of_nil hrst]

/-- Settles O18: `finish`, and the idle cycle after it. -/
theorem finishPulsesDone : Obligations.FinishPulsesDone := by
  intro s hin hrst hbusy hp
  have hrst' : (finishRequest (takeRst s)).rstIn = [] := by simp [hrst]
  refine ⟨_, step_finish hin (rstHigh_of_nil hrst) hbusy hp, rfl, rfl, rfl, reqReady_of_idle rfl hrst', ?_, ?_, ?_,
    fun hm => ?_⟩
  · exact ⟨rfl, rfl, rfl, rfl, rfl, rfl, rfl, rfl⟩
  · exact ⟨rfl, rfl, rfl⟩
  · exact ⟨rfl, rfl, rfl, rfl⟩
  · exact ⟨_, step_idle hin (rstHigh_of_nil hrst') rfl (by simp only [reqValid, hm]), rfl, rfl,
      reqReady_of_idle rfl (by simp [hrst]), rfl, rfl⟩

end Sys2Proof.Proofs
end

section
/-! PROOFS. `CONFIGURE`, `START`, `STOP` and `WRITE_BIT`, run to their `done` (spec 40 R110 to R118). -/

namespace Sys2Proof.Proofs

open Sys2Proof.Machine Sys2Proof.Laws

/-! ### A request run to its `done` -/

/-- What the acceptance of a request leaves as it was, and the request's flags as it sets them (40 R105). -/
structure Accepted (s t : State) : Prop where
  inputs : keepsInputs s t
  ack : keepsAck s t
  dig : t.dig = s.dig
  rejected : t.rejected = false
  illegal : t.illegal = false
  unbound : t.unbound = false
  reqNack : t.reqNack = false

theorem accepted_loadList (s : State) (l : List PStep) : Accepted s (loadList s l) :=
  ⟨⟨rfl, rfl, rfl, rfl, rfl, rfl⟩, ⟨rfl, rfl, rfl, rfl⟩, rfl, rfl, rfl, rfl, rfl⟩

section
variable {l : List PStep} {tr : List TraceEntry} {s t u : State}

theorem Accepted.completed (h : Accepted s t) (hd : ListDone l tr t u) (hp : u.prog = []) :
    completed (finishRequest u) :=
  ⟨rfl, rfl, hp, hd.rejected.trans h.rejected, hd.illegal.trans h.illegal, hd.unbound.trans h.unbound⟩

theorem Accepted.keepsInputs (h : Accepted s t) (hd : ListDone l tr t u) : keepsInputs s (finishRequest u) := by
  obtain ⟨hop, ha, hb, hk, hm, hr⟩ := h.inputs
  exact ⟨hd.opL.trans hop, hd.aL.trans ha, hd.bL.trans hb, hd.receiver.trans hk, hd.hostMoves.trans hm,
    hd.rstIn.trans hr⟩

theorem Accepted.keepsAck (h : Accepted s t) (hu : Machine.keepsAck t u) : Machine.keepsAck s (finishRequest u) := by
  obtain ⟨hl, ho, hs, hc⟩ := h.ack
  obtain ⟨hl', ho', hs', hc'⟩ := hu
  exact ⟨hl'.trans hl, ho'.trans ho, hs'.trans hs, hc'.trans hc⟩

/-- NACK at `done`: a sample of the request read 1 (10 R30). -/
theorem Accepted.nack (h : Accepted s t) (hd : ListDone l tr t u) : (finishRequest u).nack = (samplesOf tr).any id := by
  rw [finishRequest_nack, hd.reqNack, h.reqNack, Bool.false_or]

/-- An accepted request with no binding: what it leaves as it was. -/
theorem requestFrame_of_listDone (hd : ListDone l tr (loadList s l) u) (hp : u.prog = []) :
    requestFrame s (finishRequest u) :=
  have ha := accepted_loadList s l
  ⟨ha.completed hd hp, ha.keepsInputs hd, ⟨hd.bound, hd.clkSel, hd.dioSel⟩, hd.dig⟩

end

/-- An accepted request is its list and `finish`. -/
theorem request_of_runEntries {i : Instr} {l : List PStep} {s u : State} (he : exec i s = .next (loadList s l))
    (hrun : runEntries l [] (loadList s l) = .next u) : request i s = .next (finishRequest u) := by
  rw [request_accepted he, hrun, andThen_next]

/-! ### Line actions in a row -/

/-- A line action with its wait, by the levels the bus then has. -/
theorem act_event {s : State} (h : calm s) (a : LineAction) (rest : List PStep) {c v : Bit}
    (hc : clkBus (applyAction a s.lines) s.obs = c) (hv : levelAfter a rest s = v) :
    ∃ u, wholeEntry (.act a) rest s = .next u ∧ ListDone [.act a] [.ev a c v, .w] s u ∧
      u.dec = (decodePair s.dec c v).1 ∧ u.lines = applyAction a s.lines := by
  obtain ⟨u, hu, hdone⟩ := wholeEntry_act h a rest
  have hlist := hdone.listDone
  have hdec := hdone.dec
  rw [hc, hv] at hlist hdec
  exact ⟨u, hu, hlist, hdec, hdone.lines⟩

/-- Line actions leave the acknowledgment and the byte write's registers alone. -/
theorem runEntries_acts_keepsAck (as : List LineAction) {rest : List PStep} {s u : State} (h : calm s)
    (hr : runEntries (as.map .act) rest s = .next u) : keepsAck s u := by
  induction as generalizing s with
  | nil =>
    cases hr
    exact ⟨rfl, rfl, rfl, rfl⟩
  | cons a as ih =>
    obtain ⟨t, ht, hd⟩ := wholeEntry_act h a (as.map .act ++ rest)
    rw [List.map_cons, runEntries_cons ht] at hr
    obtain ⟨hl, ho, hs, hc⟩ := ih (hd.listDone.calm h) hr
    exact ⟨hl.trans hd.same.lastAck, ho.trans hd.same.ackO, hs.trans hd.same.shreg, hc.trans hd.same.bitcnt⟩

/-! ### START -/

/-- START_SEQ from any lines drives both low (40 R106, R113). -/
theorem startSeq_events {s : State} (h : calm s) (rest : List PStep) :
    ∃ u, runEntries startSeq rest s = .next u ∧
      ListDone startSeq [.ev .dioLow (clkBus s.lines s.obs) false, .w, .ev (.clkSet false) false false, .w] s u := by
  obtain ⟨s1, e1, d1, -, l1⟩ := act_event h .dioLow (([.act (.clkSet false)] : List PStep) ++ rest) rfl
    (levelAfter_driven rfl)
  obtain ⟨s2, e2, d2, -, -⟩ := act_event (d1.calm h) (.clkSet false) (([] : List PStep) ++ rest) (c := false)
    (v := false) rfl (by rw [levelAfter_driven] <;> simp [l1, applyAction])
  refine ⟨s2, ?_, d1.append d2⟩
  rw [startSeq, runEntries_cons e1, runEntries_cons e2]
  rfl

/-- Settles O31: START_SEQ drives both lines low; from idle-high its first action is the start condition. -/
theorem startCompletes : Obligations.StartCompletes := by
  intro s h hb
  have he := exec_start_bound hb
  have hc := loadList_calm h startSeq
  obtain ⟨u, hrun, hd⟩ := startSeq_events hc []
  have hp := runEntries_prog hrun (by simp [startSeq]) hc
  refine ⟨he, finishRequest u, request_of_runEntries he hrun, requestFrame_of_listDone hd hp,
    (accepted_loadList s _).keepsAck (runEntries_acts_keepsAck [.dioLow, .clkSet false] hc hrun),
    (accepted_loadList s _).nack hd, hd.lines, hd.trace, hd.others, fun hi => ?_⟩
  obtain ⟨u', tr, hrun', hw, -, hlow⟩ := startSeq_opens hc (loadList_idleHigh hi _) []
  obtain rfl : u' = u := next_unique hrun' hrun
  obtain ⟨hl, -, -⟩ := hi
  refine ⟨by simp [hl, clkBus], ?_, (atByteBoundary_of_low hlow : atByteBoundary u'), hlow.bytes, hw.delivered,
    hw.receivers⟩
  simp [inTxn, hlow.phase]

/-- START_SEQ with CLK low: DIO moves with CLK low, which is no condition (40 R114, 42 R172). -/
theorem startSeq_clkLow {s : State} {v : Bit} (h : calm s) (ho : s.lines.clkOe = true) (hc : s.lines.clkO = false)
    (hp : s.dec.prev = some (false, v)) (rest : List PStep) :
    ∃ u, runEntries startSeq rest s = .next u ∧
      Wave startSeq [.ev .dioLow false false, .w, .ev (.clkSet false) false false, .w] s u ∧
      u.dec = { s.dec with prev := some (false, false) } := by
  obtain ⟨s1, e1, w1, d1, l1⟩ := act_wave h .dioLow (([.act (.clkSet false)] : List PStep) ++ rest) (c := false)
    (by simp [applyAction, clkBus, ho, hc]) (levelAfter_driven rfl) (decodePair_low hp _)
  obtain ⟨s2, e2, w2, d2, -⟩ := act_wave (w1.list.calm h) (.clkSet false) (([] : List PStep) ++ rest) (c := false)
    (v := false) rfl (by rw [levelAfter_driven] <;> simp [l1, applyAction]) (decodePair_low (by rw [d1]) _)
  refine ⟨s2, ?_, w1.append w2, by rw [d2, d1]⟩
  rw [startSeq, runEntries_cons e1, runEntries_cons e2]
  rfl

/-- Settles O32: both actions of START_SEQ find CLK low. -/
theorem startWithoutIdleHighMakesNoCondition : Obligations.StartWithoutIdleHighMakesNoCondition := by
  intro s h hb ho hc ⟨v, hp⟩
  obtain ⟨u, hrun, hw, hdec⟩ := startSeq_clkLow (loadList_calm h startSeq) ho hc hp []
  exact ⟨finishRequest u, request_of_runEntries (exec_start_bound hb) hrun, hdec, hw.delivered, hw.receivers,
    hw.list.trace⟩

/-! ### STOP -/

/-- STOP_SEQ ends idle-high, whatever the lines and the decoder were: DIO rises with CLK high (40 R115, 42 R172). -/
theorem stopSeq_events {s : State} (h : calm s) (rest : List PStep) :
    ∃ u v, runEntries stopSeq rest s = .next u ∧
      ListDone stopSeq [.ev (.clkSet false) false v, .w, .ev .dioLow false false, .w, .ev (.clkSet true) true false, .w,
        .ev .dioHigh true true, .w] s u ∧
      (s.lines.dioOe = true → v = s.lines.dioLatch) ∧ idleHigh u := by
  obtain ⟨s1, e1, d1, -, l1⟩ := act_event h (.clkSet false)
    (([.act .dioLow, .act (.clkSet true), .act .dioHigh] : List PStep) ++ rest) (c := false) rfl rfl
  obtain ⟨s2, e2, d2, -, l2⟩ := act_event (d1.calm h) .dioLow
    (([.act (.clkSet true), .act .dioHigh] : List PStep) ++ rest) (c := false) (v := false) (by rw [l1]; rfl)
    (levelAfter_driven rfl)
  obtain ⟨s3, e3, d3, p3, l3⟩ := act_event (d2.calm (d1.calm h)) (.clkSet true)
    (([.act .dioHigh] : List PStep) ++ rest) (c := true) (v := false) rfl
    (by rw [levelAfter_driven] <;> simp [l2, applyAction])
  obtain ⟨s4, e4, d4, p4, l4⟩ := act_event (d3.calm (d2.calm (d1.calm h))) .dioHigh (([] : List PStep) ++ rest)
    (c := true) (v := true) (by rw [l3]; rfl) (levelAfter_driven rfl)
  have hprev : s3.dec.prev = some (true, false) := by rw [p3]; exact decodePair_prev _ _ _
  refine ⟨s4, _, ?_, ((d1.append d2).append d3).append d4, fun ho => levelAfter_driven (a := .clkSet false) ho, ?_, ?_,
    ?_⟩
  · rw [stopSeq, runEntries_cons e1, runEntries_cons e2, runEntries_cons e3, runEntries_cons e4]
    rfl
  · rw [l4, l3, l2, l1]
    rfl
  · rw [p4]
    exact decodePair_prev _ _ _
  · rw [p4]
    simp [decodePair, hprev, dioEdge, stopCondition, clkEdge]

/-- From driven lines outside a frame, STOP_SEQ delivers nothing (40 R116, 42 R174): its first action lowers CLK. -/
theorem stopSeq_outside {s : State} (h : calm s) (hd : driven s) (ht : inTxn s = false) (rest : List PStep) :
    ∃ u, runEntries stopSeq rest s = .next u ∧ u.delivered = s.delivered ∧ u.receivers = s.receivers := by
  have hlow : Low s.lines.dioLatch .idle s.dec.bits s.dec.bytes s.dec.acked (lowerClk s) := by
    obtain ⟨hclk, hdio, -⟩ := hd
    exact ⟨by simp [lowerClk, hclk, hdio], rfl, phase_of_outside ht, rfl, rfl, rfl⟩
  obtain ⟨u, tr, hrun, hw, -⟩ := stopSeq_idle (s := lowerClk s) h hlow rest
  refine ⟨u, ?_, hw.delivered, hw.receivers⟩
  rw [stopSeq, runEntries, wholeEntry_lowerClk h hd ht] at hrun
  exact hrun

/-- Settles O33: STOP_SEQ ends idle-high, and what it delivers is the frame it finds open. -/
theorem stopCompletes : Obligations.StopCompletes := by
  intro s h hb
  have he := exec_stop_bound hb
  have hc := loadList_calm h stopSeq
  obtain ⟨u, v, hrun, hd, hv, hidle⟩ := stopSeq_events hc []
  have hp := runEntries_prog hrun (by simp [stopSeq]) hc
  refine ⟨he, finishRequest u, v, request_of_runEntries he hrun, requestFrame_of_listDone hd hp,
    (accepted_loadList s _).keepsAck
      (runEntries_acts_keepsAck [.clkSet false, .dioLow, .clkSet true, .dioHigh] hc hrun),
    (accepted_loadList s _).nack hd, hidle, hd.trace, hv, hd.others, fun hbd => ?_, fun hdr ht => ?_⟩
  · obtain ⟨u', tr, hrun', -, -, -, hdel, -⟩ :=
      stopSeq_closes hc (low_of_atByteBoundary (s := loadList s stopSeq) hbd) []
    obtain rfl : u' = u := next_unique hrun' hrun
    exact hdel
  · obtain ⟨u', hrun', hdel, hrx⟩ := stopSeq_outside hc hdr ht []
    obtain rfl : u' = u := next_unique hrun' hrun
    exact ⟨hdel, hrx⟩

/-! ### WRITE_BIT -/

/-- `BIT_SEQ(0)` drives DIO low from its second action to its last (40 R106, R118). -/
theorem bitSeq_zero_events {s : State} (h : calm s) (rest : List PStep) :
    ∃ u v, runEntries (bitSeq false) rest s = .next u ∧
      ListDone (bitSeq false) [.ev (.clkSet false) false v, .w, .ev .dioLow false false, .w,
        .ev (.clkSet true) true false, .w, .ev (.clkSet false) false false, .w, .ev .dioRestore false false, .w] s u ∧
      (s.lines.dioOe = true → v = s.lines.dioLatch) := by
  obtain ⟨s1, e1, d1, -, l1⟩ := act_event h (.clkSet false)
    (([.act .dioLow, .act (.clkSet true), .act (.clkSet false), .act .dioRestore] : List PStep) ++ rest) (c := false)
    rfl rfl
  have c1 := d1.calm h
  obtain ⟨s2, e2, d2, -, l2⟩ := act_event c1 .dioLow
    (([.act (.clkSet true), .act (.clkSet false), .act .dioRestore] : List PStep) ++ rest) (c := false) (v := false)
    (by rw [l1]; rfl) (levelAfter_driven rfl)
  have c2 := d2.calm c1
  obtain ⟨s3, e3, d3, -, l3⟩ := act_event c2 (.clkSet true)
    (([.act (.clkSet false), .act .dioRestore] : List PStep) ++ rest) (c := true) (v := false) rfl
    (by rw [levelAfter_driven] <;> simp [l2, applyAction])
  have c3 := d3.calm c2
  obtain ⟨s4, e4, d4, -, l4⟩ := act_event c3 (.clkSet false) (([.act .dioRestore] : List PStep) ++ rest) (c := false)
    (v := false) rfl (by rw [levelAfter_driven] <;> simp [l3, l2, applyAction])
  obtain ⟨s5, e5, d5, -, -⟩ := act_event (d4.calm c3) .dioRestore (([] : List PStep) ++ rest) (c := false) (v := false)
    (by rw [l4]; rfl) (by rw [levelAfter_driven] <;> simp [l4, l3, l2, applyAction])
  refine ⟨s5, _, ?_, (((d1.append d2).append d3).append d4).append d5,
    fun ho => levelAfter_driven (a := .clkSet false) ho⟩
  unfold bitSeq
  rw [if_neg (by decide), runEntries_cons e1, runEntries_cons e2, runEntries_cons e3, runEntries_cons e4,
    runEntries_cons e5]
  rfl

/-- From driven lines, but for the ACK slot of an open byte, the reference receiver does not pull once CLK is low
(42 R181). -/
theorem refPulls_afterClkLow {s t : State} (hd : driven s)
    (hk : inTxn s = true → s.lines.clkO = false ∧ s.dec.bits.length < 8)
    (ht : t.dec = (decodePair s.dec false s.lines.dioLatch).1) : refPulls t = false := by
  obtain ⟨-, -, hprev⟩ := hd
  cases hx : inTxn s with
  | false =>
    have hidle := phase_of_outside hx
    rw [decodePair_fall_idle hprev hidle] at ht
    simp [refPulls, ht, hidle]
  | true =>
    obtain ⟨hlow, hbits⟩ := hk hx
    rw [hlow] at hprev
    rw [decodePair_low hprev] at ht
    have : s.dec.bits.length ≠ 8 := by omega
    simp [refPulls, ht, this]

/-- `BIT_SEQ(1)` releases DIO for the three actions in the middle; they read 1 with no receiver, and with any other from
driven lines, but for the ACK slot of an open byte (40 R106, R118; 42 R176). -/
theorem bitSeq_one_events {s : State} (h : calm s) (rest : List PStep) :
    ∃ u r0 r1 r2 r3, runEntries (bitSeq true) rest s = .next u ∧
      ListDone (bitSeq true) [.ev (.clkSet false) false r0, .w, .ev .dioRelease false r1, .w,
        .ev (.clkSet true) true r2, .w, .ev (.clkSet false) false r3, .w,
        .ev .dioRestore false s.lines.dioLatch, .w] s u ∧
      (s.lines.dioOe = true → r0 = s.lines.dioLatch) ∧
      (s.receiver = .absent → r1 = true ∧ r2 = true ∧ r3 = true) ∧
      (driven s → (inTxn s = true → s.lines.clkO = false ∧ s.dec.bits.length < 8) →
        r1 = true ∧ r2 = true ∧ r3 = true) := by
  obtain ⟨s1, e1, d1, p1, l1⟩ := act_event h (.clkSet false)
    (([.act .dioRelease, .act (.clkSet true), .act (.clkSet false), .act .dioRestore] : List PStep) ++ rest)
    (c := false) rfl rfl
  have c1 := d1.calm h
  obtain ⟨s2, e2, d2, p2, l2⟩ := act_event c1 .dioRelease
    (([.act (.clkSet true), .act (.clkSet false), .act .dioRestore] : List PStep) ++ rest) (c := false)
    (by rw [l1]; rfl) (levelAfter_released rfl)
  have c2 := d2.calm c1
  have o2 : s2.lines.dioOe = false := by rw [l2]; rfl
  obtain ⟨s3, e3, d3, p3, l3⟩ := act_event c2 (.clkSet true)
    (([.act (.clkSet false), .act .dioRestore] : List PStep) ++ rest) (c := true) rfl (levelAfter_released o2)
  have c3 := d3.calm c2
  have o3 : s3.lines.dioOe = false := by rw [l3]; exact o2
  obtain ⟨s4, e4, d4, -, l4⟩ := act_event c3 (.clkSet false) (([.act .dioRestore] : List PStep) ++ rest) (c := false)
    rfl (levelAfter_released o3)
  obtain ⟨s5, e5, d5, -, -⟩ := act_event (d4.calm c3) .dioRestore (([] : List PStep) ++ rest) (c := false)
    (v := s.lines.dioLatch) (by rw [l4]; rfl) (by rw [levelAfter_driven] <;> simp [l4, l3, l2, l1, applyAction])
  refine ⟨s5, _, _, _, _, ?_, (((d1.append d2).append d3).append d4).append d5,
    fun ho => levelAfter_driven (a := .clkSet false) ho, fun hk => ?_, fun hd hk => ?_⟩
  · unfold bitSeq
    rw [if_pos rfl, runEntries_cons e1, runEntries_cons e2, runEntries_cons e3, runEntries_cons e4, runEntries_cons e5]
    rfl
  · have k1 := d1.receiver.trans hk
    have k2 := d2.receiver.trans k1
    exact ⟨(releasedLevel_known s1 _).1 k1, (releasedLevel_known s2 _).1 k2,
      (releasedLevel_known s3 _).1 (d3.receiver.trans k2)⟩
  · have ⟨_, hdio, _⟩ := hd
    have q1 : refPulls s1 = false :=
      refPulls_afterClkLow hd hk (by rw [p1, levelAfter_driven (a := .clkSet false) hdio]; rfl)
    obtain ⟨w, hprev1⟩ : ∃ w, s1.dec.prev = some (false, w) := ⟨_, by rw [p1]; exact decodePair_prev _ _ _⟩
    rw [decodePair_low hprev1] at p2
    have q2 : refPulls s2 = false := by rw [← q1]; simp [refPulls, p2]
    rw [decodePair_rise (by rw [p2])] at p3
    have q3 : refPulls s3 = false := by rw [← q2]; simp [refPulls, p3]
    have r2 := releasedLevel_dataBit (rest := ([.act (.clkSet false), .act .dioRestore] : List PStep) ++ rest) c2.2
      (heldLevel_none (.inr ⟨_, by rw [p2]⟩)) rfl q2
    refine ⟨releasedLevel_dataBit c1.2 (heldLevel_none (.inl ?_)) rfl q1, r2,
      releasedLevel_steady c3.2 o3 (by rw [p3, r2]) (fun _ => rfl) (fun _ => by rw [q3]; rfl)⟩
    rw [l1]
    exact hdio

/-- A bit leaves CLK low and both lines driven, and keeps the latch exactly if it is 1 (40 R117). -/
theorem linesAfter_bitSeq_any (v : Bit) (l : Lines) :
    linesAfter (bitSeq v) l = ⟨true, false, true, if v then l.dioLatch else false⟩ := by cases v <;> rfl

/-- What a run of `BIT_SEQ(v)` makes of the request. -/
theorem writeBit_done {s u : State} {v : Bit} {tr : List TraceEntry} (h : calm s) (hb : s.bound = true)
    (hrun : runEntries (bitSeq v) [] (loadList s (bitSeq v)) = .next u)
    (hd : ListDone (bitSeq v) tr (loadList s (bitSeq v)) u) (hs : samplesOf tr = []) :
    request (.writeBit v) s = .next (finishRequest u) ∧ requestFrame s (finishRequest u) ∧
      keepsAck s (finishRequest u) ∧ (finishRequest u).nack = false ∧ keepsOtherReceivers s (finishRequest u) ∧
      (finishRequest u).lines = ⟨true, false, true, if v then s.lines.dioLatch else false⟩ := by
  have hc := loadList_calm h (bitSeq v)
  have hp := runEntries_prog hrun (by simp [bitSeq]) hc
  have hack := runEntries_acts_keepsAck
    [.clkSet false, if v then .dioRelease else .dioLow, .clkSet true, .clkSet false, .dioRestore] hc hrun
  refine ⟨request_of_runEntries (exec_writeBit_bound hb v) hrun, requestFrame_of_listDone hd hp,
    (accepted_loadList s _).keepsAck hack, ?_, hd.others, hd.lines.trans (linesAfter_bitSeq_any v _)⟩
  rw [(accepted_loadList s _).nack hd, hs]
  rfl

/-- Settles O34: the two forms of BIT_SEQ. -/
theorem writeBitCompletes : Obligations.WriteBitCompletes := by
  intro s v h hb
  refine ⟨exec_writeBit_bound hb v, ?_⟩
  cases v with
  | false =>
    obtain ⟨u, r0, hrun, hd, h0⟩ := bitSeq_zero_events (loadList_calm h (bitSeq false)) []
    obtain ⟨hreq, hframe, hack, hnack, hothers, hlines⟩ := writeBit_done h hb hrun hd rfl
    exact ⟨_, r0, false, false, false, hreq, hframe, hack, hnack, hothers, hlines, hd.trace, h0,
      fun _ => ⟨rfl, rfl, rfl⟩, (nomatch ·), (nomatch ·)⟩
  | true =>
    obtain ⟨u, r0, r1, r2, r3, hrun, hd, h0, habs, hone⟩ := bitSeq_one_events (loadList_calm h (bitSeq true)) []
    obtain ⟨hreq, hframe, hack, hnack, hothers, hlines⟩ := writeBit_done h hb hrun hd rfl
    exact ⟨_, r0, r1, r2, r3, hreq, hframe, hack, hnack, hothers, hlines, hd.trace, h0, (nomatch ·),
      fun _ => habs, fun _ => hone⟩

/-! ### CONFIGURE -/

/-- Both lines driven high, from any lines (40 R110, R111). -/
theorem redriveSeq_events {s : State} (h : calm s) (rest : List PStep) :
    ∃ u v, runEntries redriveSeq rest s = .next u ∧
      ListDone redriveSeq [.ev (.clkSet true) true v, .w, .ev .dioHigh true true, .w] s u ∧
      (s.lines.dioOe = true → v = s.lines.dioLatch) := by
  obtain ⟨s1, e1, d1, -, l1⟩ := act_event h (.clkSet true) (([.act .dioHigh] : List PStep) ++ rest) (c := true) rfl rfl
  obtain ⟨s2, e2, d2, -, -⟩ := act_event (d1.calm h) .dioHigh (([] : List PStep) ++ rest) (c := true) (v := true)
    (by rw [l1]; rfl) (levelAfter_driven rfl)
  refine ⟨s2, _, ?_, d1.append d2, fun ho => levelAfter_driven (a := .clkSet true) ho⟩
  rw [redriveSeq, runEntries_cons e1, runEntries_cons e2]
  rfl

/-- Outside a transaction, on lines just bound or driven, this delivers nothing (42 R171, R172, R174). -/
theorem redriveSeq_outside {s : State} (h : calm s) (hi : s.dec.phase = .idle) (hd : s.dec.prev = none ∨ driven s)
    (rest : List PStep) :
    ∃ u, runEntries redriveSeq rest s = .next u ∧ u.delivered = s.delivered ∧ u.receivers = s.receivers := by
  generalize hv : levelAfter (.clkSet true) (([.act .dioHigh] : List PStep) ++ rest) s = v
  have hclk : (decodePair s.dec true v).2 = none ∧ (decodePair s.dec true v).1.phase = .idle := by
    rcases hd with hfresh | ⟨-, hdio, hprev⟩
    · simp [decodePair, hfresh, hi]
    · have hlatch : v = s.lines.dioLatch := hv.symm.trans (levelAfter_driven (a := .clkSet true) hdio)
      simp [decodePair, hprev, hlatch, dioEdge, clkEdge_phase, hi]
  obtain ⟨s1, e1, w1, d1, l1⟩ := act_wave h (.clkSet true) (([.act .dioHigh] : List PStep) ++ rest) (c := true) rfl hv
    (Prod.ext rfl hclk.1)
  obtain ⟨hquiet, -⟩ := decodePair_high_idle (d := s1.dec) (v0 := v) (by rw [d1]; exact decodePair_prev _ _ _)
    (by rw [d1]; exact hclk.2)
  obtain ⟨s2, e2, w2, -, -⟩ := act_wave (w1.list.calm h) .dioHigh (([] : List PStep) ++ rest) (c := true) (v := true)
    (by rw [l1]; rfl) (levelAfter_driven rfl) (Prod.ext rfl hquiet)
  have w := w1.append w2
  refine ⟨s2, ?_, w.delivered, w.receivers⟩
  rw [redriveSeq, runEntries_cons e1, runEntries_cons e2]
  rfl

/-- At a byte boundary of an open frame it is a stop condition, and delivers the frame (40 R110, 42 R172). -/
theorem redriveSeq_closes {bytes : List Byte} {acked : Bool} {s : State} (h : calm s)
    (hl : Low false .frame [] bytes acked s) (rest : List PStep) :
    ∃ u, runEntries redriveSeq rest s = .next u ∧ idleHigh u ∧
      u.delivered = s.delivered ++ [{ bytes := bytes, complete := true, acked := acked }] := by
  obtain ⟨s1, e1, w1, d1, l1⟩ := act_wave h (.clkSet true) (([.act .dioHigh] : List PStep) ++ rest) (c := true)
    (v := false) rfl (by rw [levelAfter_driven] <;> simp [hl.lines, applyAction]) (decodePair_rise hl.prev false)
  obtain ⟨s2, e2, -, d2, l2, del2, -⟩ := act_delivers (w1.list.calm h) .dioHigh (([] : List PStep) ++ rest) (c := true)
    (v := true) (d := { s1.dec with phase := .idle, hiDirty := true, prev := some (true, true) })
    (f := { bytes := bytes, complete := true, acked := acked }) (by rw [l1]; rfl) (levelAfter_driven rfl)
    (by simp [d1, decodePair, dioEdge, stopCondition, clkEdge, hl.phase, hl.bits, hl.bytes, hl.acked])
  refine ⟨s2, ?_, ⟨?_, by rw [d2], by rw [d2]⟩, by rw [del2, w1.delivered]⟩
  · rw [redriveSeq, runEntries_cons e1, runEntries_cons e2]
    rfl
  · rw [l2, l1, hl.lines]
    rfl

/-- Settles O30: the bound pair gets no `Bind`, so the decoder sees DIO rise with CLK high. -/
theorem configureSamePairClosesFrame : Obligations.ConfigureSamePairClosesFrame := by
  intro s h hb hbd hr
  obtain ⟨u, hrun, hidle, hdel⟩ := redriveSeq_closes (loadList_calm h redriveSeq)
    (low_of_atByteBoundary (s := loadList s redriveSeq) hbd) []
  exact ⟨finishRequest u, request_of_runEntries (exec_configure_ok (configureBody_same hr hb)) hrun, hidle, hdel⟩

/-- The state a `Bind` leaves, with both lines still to be driven high and then `rest` to run (40 R104, R110). -/
def afterBind (c d : Word) (rest : List PStep) (s : State) : State :=
  recordBind c d (redriveSeq ++ rest) (abandonTxn s)

theorem runEntries_bind (c d : Word) (rest : List PStep) (s : State) :
    runEntries (.bind c d :: redriveSeq) rest s = runEntries redriveSeq rest (afterBind c d rest s) := rfl

theorem afterBind_calm {s : State} (h : calm s) (c d : Word) (rest : List PStep) : calm (afterBind c d rest s) := by
  simpa [afterBind, calm] using h

/-- A `Bind` and both lines driven high: what it adds to the trace and leaves on the new bus (40 R110, R111). -/
theorem bindSeq_events {s : State} (h : calm s) (c d : Word) (rest : List PStep) :
    ∃ u v, runEntries (.bind c d :: redriveSeq) rest s = .next u ∧
      runEntries redriveSeq rest (afterBind c d rest s) = .next u ∧ calm (afterBind c d rest s) ∧
      ListDone redriveSeq [.ev (.clkSet true) true v, .w, .ev .dioHigh true true, .w] (afterBind c d rest s) u ∧
      idleHigh u ∧ u.receivers = (abandonTxn s).receivers ∧ u.delivered = s.delivered := by
  have hc := afterBind_calm h c d rest
  obtain ⟨u, v, hrun, hdone, -⟩ := redriveSeq_events hc rest
  have hbind := (runEntries_bind c d rest s).trans hrun
  obtain ⟨u₁, hrun₁, -, hidle, -, hrx⟩ := bindSeq_done h c d rest
  obtain rfl := next_unique hrun₁ hbind
  obtain ⟨u₂, hrun₂, hdel, -⟩ := redriveSeq_outside hc rfl (.inl rfl) rest
  obtain rfl := next_unique hrun₂ hrun
  exact ⟨u₂, v, hbind, hrun, hc, hdone, hidle, hrx, hdel.trans (by simp [afterBind])⟩

/-- A `Bind` leaves of the request's registers what the acceptance left of them (40 R110). -/
theorem Accepted.bind {s t : State} (h : Accepted s t) (c d : Word) (rest : List PStep) :
    Accepted s (afterBind c d rest t) where
  inputs := by simpa [afterBind, Machine.keepsInputs] using h.inputs
  ack := by simpa [afterBind, Machine.keepsAck] using h.ack
  dig := by simpa [afterBind] using h.dig
  rejected := by simpa [afterBind] using h.rejected
  illegal := by simpa [afterBind] using h.illegal
  unbound := by simpa [afterBind] using h.unbound
  reqNack := by simpa [afterBind] using h.reqNack

/-- The end of `CONFIGURE`, with a `Bind` before it or without: `t` is the state before the lines are driven. -/
theorem redrive_done {s t u : State} {tr : List TraceEntry} (ha : Accepted s t) (hc : calm t)
    (hrun : runEntries redriveSeq [] t = .next u) (hd : ListDone redriveSeq tr t u) (hs : samplesOf tr = []) :
    completed (finishRequest u) ∧ keepsInputs s (finishRequest u) ∧ keepsAck s (finishRequest u) ∧
      (finishRequest u).dig = s.dig ∧ (finishRequest u).nack = false ∧
      (finishRequest u).lines = ⟨true, true, true, true⟩ := by
  refine ⟨ha.completed hd (runEntries_prog hrun (by simp [redriveSeq]) hc), ha.keepsInputs hd,
    ha.keepsAck (runEntries_acts_keepsAck [.clkSet true, .dioHigh] hc hrun), hd.dig.trans ha.dig, ?_, hd.lines⟩
  rw [ha.nack hd, hs]
  rfl

/-- `CONFIGURE` of another pair, or of a first one. -/
theorem configureBody_bind {s : State} {c d : Nat} (h : ¬ outOfRange (.configure c d))
    (hne : ¬ (s.bound = true ∧ c = s.clkSel.toNat ∧ d = s.dioSel.toNat)) :
    configureBody s c d = .ok (.bind (BitVec.ofNat 32 c) (BitVec.ofNat 32 d) :: redriveSeq) := by
  have hnot : (s.bound && decide (c = s.clkSel.toNat) && decide (d = s.dioSel.toNat)) = false := by
    simpa [and_assoc] using hne
  simp [configureBody, lineIdsValid_of_inRange h, hnot, redriveSeq]

/-- Settles O28: for the bound pair the lines are driven high where they are; for any other a `Bind` comes first, and
the new bus is idle-high with nothing sent on it. -/
theorem configureBindsAndDrivesHigh : Obligations.ConfigureBindsAndDrivesHigh := by
  intro s c d h hc hd hr
  by_cases hsame : s.bound = true ∧ c = s.clkSel.toNat ∧ d = s.dioSel.toNat
  · obtain ⟨hb, rfl, rfl⟩ := hsame
    have he := exec_configure_ok (configureBody_same hr hb)
    have hc := loadList_calm h redriveSeq
    obtain ⟨u, v, hrun, hdone, hv⟩ := redriveSeq_events hc []
    obtain ⟨hcomp, hin, hack, hdig, hnack, hlines⟩ := redrive_done (accepted_loadList s _) hc hrun hdone rfl
    refine ⟨⟨redriveSeq, he, fun _ => rfl, fun hn => absurd ⟨hb, rfl, rfl⟩ hn⟩,
      finishRequest u, v, request_of_runEntries he hrun, hcomp, hin, hack, hdig, hnack, hdone.bound.trans hb,
      congrArg BitVec.toNat hdone.clkSel, congrArg BitVec.toNat hdone.dioSel, hlines,
      fun _ => ⟨hdone.trace, hv, hdone.others, fun hdr ht => ?_⟩, fun hn => absurd ⟨hb, rfl, rfl⟩ hn,
      fun hn => absurd (hb.symm.trans hn) Bool.noConfusion⟩
    obtain ⟨u', hrun', hdel, hrx⟩ := redriveSeq_outside hc (phase_of_outside ht) (.inr hdr) []
    obtain rfl : u' = u := next_unique hrun' hrun
    exact ⟨hdel, hrx⟩
  · have he := exec_configure_ok (configureBody_bind hr hsame)
    obtain ⟨u, v, hrun, hredrive, hct, hdone, hidle, hrx, hdel⟩ :=
      bindSeq_events (loadList_calm h _) (BitVec.ofNat 32 c) (BitVec.ofNat 32 d) []
    obtain ⟨hcomp, hin, hack, hdig, hnack, hlines⟩ :=
      redrive_done ((accepted_loadList s _).bind _ _ _) hct hredrive hdone rfl
    refine ⟨⟨_, he, fun hs => absurd hs hsame, fun _ => rfl⟩, finishRequest u, v, request_of_runEntries he hrun, hcomp,
      hin, hack, hdig, hnack, hdone.bound, ?_, ?_, hlines, fun hs => absurd hs hsame,
      fun _ => ⟨by simp [hdone.trace, afterBind], hidle, hdel⟩, fun _ ht => ?_⟩
    · rw [finishRequest_clkSel, hdone.clkSel, afterBind, recordBind_clkSel, BitVec.toNat_ofNat, Nat.mod_eq_of_lt hc]
    · rw [finishRequest_dioSel, hdone.dioSel, afterBind, recordBind_dioSel, BitVec.toNat_ofNat, Nat.mod_eq_of_lt hd]
    · rw [finishRequest_receivers, hrx, abandonTxn_loadList_receivers, abandonTxn, ht]
      rfl

end Sys2Proof.Proofs
end

section
/-! PROOFS. `WRITE_BYTE` and `WRITE_COMMAND`, run to their `done` (spec 40 R120 to R124). -/

namespace Sys2Proof.Proofs

open Sys2Proof.Machine Sys2Proof.Laws

/-! ### One byte, one sample -/

/-- A list with one sample adds one sampled level to the trace. -/
theorem sample_of_countSamples {l : List PStep} {tr : List TraceEntry} {s u : State} (hd : ListDone l tr s u)
    (hk : countSamples l = 1) : ∃ r, samplesOf tr = [r] :=
  List.length_eq_one_iff.1 (hd.samples.trans hk)

theorem countSamples_byteSeq (b : Byte) : countSamples (byteSeq b) = 1 := by
  obtain ⟨-, hs, -⟩ := counts_byteSeq b
  exact hs

theorem countSamples_cmdFrame (b : Byte) : countSamples (cmdFrame b) = 1 := by
  obtain ⟨-, hs, -⟩ := counts_cmdFrame b
  exact hs

theorem linesAfter_shiftedBitSeq_any (v : Bit) (l : Lines) :
    linesAfter (shiftedBitSeq v) l = linesAfter (shiftedBitSeq v) ⟨true, l.clkO, true, l.dioLatch⟩ := by cases v <;> rfl

/-- The first of some bits drives both lines, whatever they were. -/
theorem linesAfter_dataBits_any (v : Bit) (vs : List Bit) (l : Lines) :
    linesAfter ((v :: vs).flatMap shiftedBitSeq) l =
      linesAfter ((v :: vs).flatMap shiftedBitSeq) ⟨true, l.clkO, true, l.dioLatch⟩ := by
  rw [List.flatMap_cons, linesAfter_append, linesAfter_append, linesAfter_shiftedBitSeq_any]

/-- A byte write leaves CLK low and both lines driven, whatever they were (40 R120). -/
theorem linesAfter_byteSeq_any (b : Byte) (l : Lines) :
    linesAfter (byteSeq b) l = ⟨true, false, true, if b = 0xFF#8 then l.dioLatch else false⟩ := by
  rw [← linesAfter_byteSeq b l.clkO l.dioLatch, byteSeq_eq]
  simp only [linesAfter_append]
  exact congrArg (linesAfter ackSeq) (linesAfter_dataBits_any _ _ l)

/-- `ack_o` is latched after the byte (40 R120). -/
theorem latchAck_done {b : Byte} {tr : List TraceEntry} {s u : State} (h : calm s) (hd : ListDone (byteSeq b) tr s u) :
    ListDone (byteSeq b ++ [PStep.update .latchAck]) tr s (advance (applyUpdate u .latchAck) []) := by
  have := hd.append (update_listDone (hd.calm h) .latchAck [])
  rwa [List.append_nil] at this

theorem runEntries_latchAck {b : Byte} {s u : State} (h : runEntries (byteSeq b) [.update .latchAck] s = .next u) :
    runEntries (byteSeq b ++ [PStep.update .latchAck]) [] s = .next (advance (applyUpdate u .latchAck) []) :=
  runEntries_append_of h rfl

/-- Settles O35: a byte write samples once, and `ack_o`, LAST_ACK and NACK follow from the sample. -/
theorem writeByteCompletes : Obligations.WriteByteCompletes := by
  intro s b h hb
  have he := exec_writeByte_bound hb b
  have hc := loadList_calm h (byteSeq b ++ [PStep.update .latchAck])
  obtain ⟨u, tr, hrun, hd⟩ := runEntries_done (byteSeq b) [.update .latchAck] hc (noBind_byteSeq b)
  obtain ⟨r, hr⟩ := sample_of_countSamples hd (countSamples_byteSeq b)
  have hd' := latchAck_done hc hd
  have hack : u.lastAck = !r := by rw [hd.lastAck, hr]; rfl
  have hlines : u.lines = ⟨true, false, true, if b = 0xFF#8 then s.lines.dioLatch else false⟩ :=
    hd.lines.trans (linesAfter_byteSeq_any b _)
  refine ⟨he, _, tr, r, request_of_runEntries he (runEntries_latchAck hrun), requestFrame_of_listDone hd' rfl,
    hd'.others, hd'.trace, hd.shapes, hr, hack, hack, ?_, hlines⟩
  rw [(accepted_loadList s _).nack hd', hr]
  simp

/-! ### WRITE_COMMAND -/

theorem noLatch_cmdFrame (b : Byte) : noLatch (cmdFrame b) = true := by
  have hbit : ∀ v, noLatch (bitSeq v) = true := fun v => by cases v <;> rfl
  simp [cmdFrame, startSeq, byteSeq, shiftedBitSeq, ackSeq, stopSeq, hbit, noLatch]

/-- CMD_FRAME(b) from any lines ends idle-high: it ends in STOP_SEQ (41 R139). -/
theorem cmdFrame_idleHigh {s : State} (h : calm s) (b : Byte) (rest : List PStep) :
    ∃ u tr, runEntries (cmdFrame b) rest s = .next u ∧ ListDone (cmdFrame b) tr s u ∧ idleHigh u := by
  obtain ⟨t, tr, hrun, hd⟩ := runEntries_done (startSeq ++ byteSeq b) (stopSeq ++ rest) h (by simp [startSeq, noBind])
  obtain ⟨u, v, hstop, hd', -, hidle⟩ := stopSeq_events (hd.calm h) rest
  exact ⟨u, _, runEntries_append_of hrun hstop, hd.append hd', hidle⟩

/-- Settles O38: CMD_FRAME has one sample, latches no `ack_o`, and ends idle-high. -/
theorem writeCommandCompletes : Obligations.WriteCommandCompletes := by
  intro s b h hb
  have he := exec_writeCommand_bound hb b
  have hc := loadList_calm h (cmdFrame b)
  obtain ⟨u, tr, hrun, hd, hidle⟩ := cmdFrame_idleHigh hc b []
  obtain ⟨r, hr⟩ := sample_of_countSamples hd (countSamples_cmdFrame b)
  have hp := runEntries_prog hrun (by simp [cmdFrame, startSeq]) hc
  refine ⟨he, finishRequest u, tr, r, request_of_runEntries he hrun, requestFrame_of_listDone hd hp, hidle, hd.others,
    hd.trace, hd.shapes, hr, hd.ackO (noLatch_cmdFrame b), ?_, ?_⟩
  · rw [finishRequest_lastAck, hd.lastAck, hr]
    rfl
  · rw [(accepted_loadList s _).nack hd, hr]
    simp

/-- CMD_FRAME(b) at a byte boundary of an open frame makes no start: its byte is the frame's next, and its stop closes
the frame (40 R124, 42 R172). -/
theorem cmdFrame_inFrame {bytes : List Byte} {acked : Bool} {s : State} (h : calm s)
    (hl : Low false .frame [] bytes acked s) (b : Byte) (rest : List PStep) :
    ∃ u, runEntries (cmdFrame b) rest s = .next u ∧ u.delivered =
      s.delivered ++ [{ bytes := bytes ++ [b], complete := true, acked := acked && u.lastAck }] := by
  obtain ⟨s1, tr1, e1, w1, -, l1⟩ := startSeq_low h hl (byteSeq b ++ (stopSeq ++ rest))
  have c1 := w1.list.calm h
  obtain ⟨s2, tr2, r, e2, w2, -, -, q2, -, -, l2⟩ := byteSeq_wave c1 l1 (fun _ => rfl) b (stopSeq ++ rest)
  obtain ⟨s3, tr3, e3, d3, q3, -, del3, -⟩ := stopSeq_closes (w2.list.calm c1) l2 rest
  have hack : s3.lastAck = !r := by rw [d3.lastAck, q3, w2.list.lastAck, q2]; rfl
  refine ⟨s3, ?_, ?_⟩
  · rw [cmdFrame, List.append_assoc]
    exact runEntries_append_of (by rw [List.append_assoc]; exact e1) (runEntries_append_of e2 e3)
  · rw [del3, w2.delivered, w1.delivered, hack]
    rfl

/-! ### The same list under two step lists -/

/-- The same bus, receivers and observations, whatever the engine still has to run. -/
structure SameBus (s t : State) : Prop where
  calm : calm s
  calm' : Machine.calm t
  lines : t.lines = s.lines
  dec : t.dec = s.dec
  obs : t.obs = s.obs
  receiver : t.receiver = s.receiver
  clkSel : t.clkSel = s.clkSel
  dioSel : t.dioSel = s.dioSel
  receivers : t.receivers = s.receivers
  trace : t.trace = s.trace
  delivered : t.delivered = s.delivered
  lastAck : t.lastAck = s.lastAck

theorem sameBus_loadList {s : State} (h : calm s) (l l' : List PStep) : SameBus (loadList s l) (loadList s l') where
  calm := loadList_calm h l
  calm' := loadList_calm h l'
  lines := rfl
  dec := rfl
  obs := rfl
  receiver := rfl
  clkSel := rfl
  dioSel := rfl
  receivers := rfl
  trace := rfl
  delivered := rfl
  lastAck := rfl

/-- The end of one request and the acceptance of the next are not seen on the bus. -/
theorem SameBus.nextRequest {s t : State} (h : SameBus s t) (l : List PStep) :
    SameBus s (loadList (finishRequest t) l) := { h with }

theorem SameBus.latchAck {s t : State} (h : SameBus s t) (rest : List PStep) :
    SameBus s (advance (applyUpdate t .latchAck) rest) := { h with }

/-- An entry after which the kind of a release is known (40 R106): dataBitRelease reads no further. -/
def fixesRelease : PStep → Bool
  | .act (.clkSet _) => false
  | .act _ => true
  | .sample => true
  | .bind _ _ => true
  | .wait => false
  | .update _ => false

theorem dataBitRelease_append {l : List PStep} (h : l.any fixesRelease = true) (rest rest' : List PStep) :
    dataBitRelease (l ++ rest) = dataBitRelease (l ++ rest') := by
  induction l with
  | nil => cases h
  | cons e l ih =>
    cases e with
    | act a =>
      cases a with
      | clkSet v => exact ih h
      | dioLow | dioHigh | dioRelease | dioRestore => rfl
    | wait | update _ => exact ih h
    | sample | bind _ _ => rfl

/-- A list of no binding whose levels on DIO do not depend on what is to run after it: at each observation DIO is
driven, or the list itself says what kind of release it is. -/
def levelsFixed : List PStep → Lines → Bool
  | [], _ => true
  | .act a :: l, ln => ((applyAction a ln).dioOe || l.any fixesRelease) && levelsFixed l (applyAction a ln)
  | .sample :: l, ln => (ln.dioOe || l.any fixesRelease) && levelsFixed l ln
  | .wait :: l, ln => levelsFixed l ln
  | .update _ :: l, ln => levelsFixed l ln
  | .bind _ _ :: _, _ => false

theorem levelsFixed_startSeq (ln : Lines) : levelsFixed startSeq ln = true := rfl

theorem levelsFixed_stopSeq (ln : Lines) : levelsFixed stopSeq ln = true := by
  simp [stopSeq, levelsFixed, fixesRelease, applyAction]

/-- A list that ends with DIO restored. -/
theorem levelsFixed_restore {l : List PStep} (h : noBind l = true) (ln : Lines) :
    levelsFixed (l ++ [PStep.act .dioRestore]) ln = true := by
  induction l generalizing ln with
  | nil => rfl
  | cons e l ih =>
    cases e with
    | act a => simp [levelsFixed, fixesRelease, ih h]
    | sample => simp [levelsFixed, fixesRelease, ih h]
    | wait | update _ => exact ih h ln
    | bind c d => cases h

theorem levelsFixed_byteSeq (b : Byte) (ln : Lines) : levelsFixed (byteSeq b) ln = true := by
  have hack : ackSeq = ([.act .dioRelease, .act (.clkSet false), .act (.clkSet true), .sample, .act (.clkSet false)] :
      List PStep) ++ [PStep.act .dioRestore] := rfl
  have hnb := noBind_byteSeq b
  rw [byteSeq_eq, hack, ← List.append_assoc, ← List.append_assoc] at hnb ⊢
  rw [noBind_append, Bool.and_eq_true] at hnb
  exact levelsFixed_restore hnb.1 ln

section
variable {s t : State} {rest rest' : List PStep} (h : SameBus s t)
include h

theorem SameBus.releasedLevel (hr : dataBitRelease rest = dataBitRelease rest') :
    releasedLevel t rest' = releasedLevel s rest := by
  simp only [Machine.releasedLevel, heldLevel, refPulls, h.receiver, h.lines, h.dec, h.obs, hr]

theorem SameBus.levelAfter {a : LineAction}
    (hr : (applyAction a s.lines).dioOe = true ∨ dataBitRelease rest = dataBitRelease rest') :
    levelAfter a rest' t = levelAfter a rest s := by
  rcases hr with ho | hr
  · rw [levelAfter_driven ho, levelAfter_driven (by rw [h.lines]; exact ho), h.lines]
  · simp only [Laws.levelAfter, h.lines, h.releasedLevel hr]

end

/-- What a line action makes of the receivers: a frame it delivers is read by the one on the bound lines. -/
theorem act_receivers {s u : State} {a : LineAction} {rest : List PStep} (h : calm s)
    (hu : wholeEntry (.act a) rest s = .next u) :
    u.receivers = (decodePair s.dec (clkBus (applyAction a s.lines) s.obs) (levelAfter a rest s)).2.elim s.receivers
      (fun f => storeRx s.receivers (boundPair s) (reading f (rxOf s))) := by
  cases hf : (decodePair s.dec (clkBus (applyAction a s.lines) s.obs) (levelAfter a rest s)).2 with
  | none =>
    obtain ⟨u', hu', hd⟩ := wholeEntry_act h a rest
    obtain rfl : u' = u := next_unique hu' hu
    exact hd.quiet hf
  | some f =>
    obtain ⟨u', hu', -, -, -, -, hrx⟩ := act_delivers h a rest rfl rfl (Prod.ext rfl hf)
    obtain rfl : u' = u := next_unique hu' hu
    exact hrx

theorem SameBus.act {s t : State} {a : LineAction} {rest rest' : List PStep} (h : SameBus s t)
    (hr : (applyAction a s.lines).dioOe = true ∨ dataBitRelease rest = dataBitRelease rest') :
    ∃ s' t', wholeEntry (.act a) rest s = .next s' ∧ wholeEntry (.act a) rest' t = .next t' ∧ SameBus s' t' ∧
      s'.lines = applyAction a s.lines := by
  obtain ⟨s', hs', ds⟩ := wholeEntry_act h.calm a rest
  obtain ⟨t', ht', dt⟩ := wholeEntry_act h.calm' a rest'
  have hv := h.levelAfter hr
  have hpair : boundPair t = boundPair s := by simp [boundPair, h.clkSel, h.dioSel]
  refine ⟨s', t', hs', ht', ?_, ds.lines⟩
  constructor
  case calm => exact ds.listDone.calm h.calm
  case calm' => exact dt.listDone.calm h.calm'
  case lines => rw [dt.lines, ds.lines, h.lines]
  case dec => rw [dt.dec, ds.dec, hv, h.lines, h.dec, h.obs]
  case obs => rw [dt.obs, ds.obs, h.obs]
  case receiver => rw [dt.same.receiver, ds.same.receiver, h.receiver]
  case clkSel => rw [dt.same.clkSel, ds.same.clkSel, h.clkSel]
  case dioSel => rw [dt.same.dioSel, ds.same.dioSel, h.dioSel]
  case receivers =>
    rw [act_receivers h.calm' ht', act_receivers h.calm hs', hv, h.lines, h.dec, h.obs, rxOf, rxOf, hpair, h.receivers]
  case trace => rw [dt.trace, ds.trace, hv, h.lines, h.obs, h.trace]
  case delivered => rw [dt.delivered, ds.delivered, hv, h.lines, h.dec, h.obs, h.delivered]
  case lastAck => rw [dt.same.lastAck, ds.same.lastAck, h.lastAck]

/-- Such a list does the same on the same bus, whatever is to run after it. -/
theorem SameBus.runEntries {l : List PStep} {s t : State} (h : SameBus s t) (hl : levelsFixed l s.lines = true)
    (rest rest' : List PStep) :
    ∃ s' t', runEntries l rest s = .next s' ∧ runEntries l rest' t = .next t' ∧ SameBus s' t' := by
  induction l generalizing s t with
  | nil => exact ⟨s, t, rfl, rfl, h⟩
  | cons e l ih =>
    have hkind : l.any fixesRelease = true → dataBitRelease (l ++ rest) = dataBitRelease (l ++ rest') :=
      fun hf => dataBitRelease_append hf rest rest'
    have follow : ∀ {s₁ t₁ : State}, wholeEntry e (l ++ rest) s = .next s₁ → wholeEntry e (l ++ rest') t = .next t₁ →
        SameBus s₁ t₁ → levelsFixed l s₁.lines = true →
        ∃ s' t', Laws.runEntries (e :: l) rest s = .next s' ∧ Laws.runEntries (e :: l) rest' t = .next t' ∧
          SameBus s' t' := by
      intro s₁ t₁ hs ht h₁ hl₁
      rw [runEntries_cons hs, runEntries_cons ht]
      exact ih h₁ hl₁
    cases e with
    | act a =>
      simp only [levelsFixed, Bool.and_eq_true, Bool.or_eq_true] at hl
      obtain ⟨hobs, hrest⟩ := hl
      obtain ⟨s₁, t₁, hs, ht, h₁, hlines⟩ := h.act (hobs.imp_right hkind)
      exact follow hs ht h₁ (by rw [hlines]; exact hrest)
    | sample =>
      simp only [levelsFixed, Bool.and_eq_true, Bool.or_eq_true] at hl
      obtain ⟨hobs, hrest⟩ := hl
      have hv : sampleLevel (l ++ rest') t = sampleLevel (l ++ rest) s := by
        rcases hobs with ho | hf
        · simp [sampleLevel, h.lines, ho]
        · simp only [sampleLevel, h.lines, h.releasedLevel (hkind hf)]
      refine follow (sampleStep_calm h.calm.2 _) (sampleStep_calm h.calm'.2 _) ?_ hrest
      exact { h with
        obs := by simp [h.obs]
        trace := by simp [h.trace, hv]
        lastAck := by simp [hv] }
    | wait =>
      refine follow rfl rfl ?_ hl
      exact { h with trace := by simp [h.trace] }
    | update w =>
      refine follow rfl rfl ?_ (by rw [advance_lines, applyUpdate_lines]; exact hl)
      cases w <;> exact { h with }
    | bind c d => cases hl

/-! ### `START`, `WRITE_BYTE`, `STOP` -/

/-- The one request and the three run the same parts on the same bus. Of the three, the second latches `ack_o`, and the
last has no sample. -/
theorem writeCommand_sameBus {s : State} (h : calm s) (hb : s.bound = true) (b : Byte) :
    ∃ u v, runEntries (cmdFrame b) [] (loadList s (cmdFrame b)) = .next u ∧
      requests [.start, .writeByte b, .stop] s = .next (finishRequest v) ∧ SameBus u v ∧ v.ackO = v.lastAck ∧
      (finishRequest v).nack = false := by
  obtain ⟨s1, t1, es1, et1, h1⟩ := (sameBus_loadList h (cmdFrame b) startSeq).runEntries (levelsFixed_startSeq _)
    (byteSeq b ++ (stopSeq ++ [])) []
  obtain ⟨s2, t2, es2, et2, h2⟩ := (h1.nextRequest (byteSeq b ++ [PStep.update .latchAck])).runEntries
    (levelsFixed_byteSeq b _) (stopSeq ++ []) [PStep.update .latchAck]
  obtain ⟨s3, t3, es3, et3, h3⟩ := ((h2.latchAck []).nextRequest stopSeq).runEntries (levelsFixed_stopSeq _) [] []
  have hstart := request_of_runEntries (exec_start_bound hb) et1
  obtain ⟨-, v1, hv1, ⟨-, -, ⟨hb1, -⟩, -⟩, -⟩ := startCompletes s h hb
  obtain rfl := next_unique hv1 hstart
  have hbyte := request_of_runEntries (exec_writeByte_bound (hb1.trans hb) b) (runEntries_latchAck et2)
  obtain ⟨-, v2, -, r, hv2, ⟨-, -, ⟨hb2, -⟩, -⟩, -, -, -, -, hackO2, hack2, -⟩ :=
    writeByteCompletes (finishRequest t1) b h1.calm' (hb1.trans hb)
  obtain rfl := next_unique hv2 hbyte
  have hb2' := hb2.trans (hb1.trans hb)
  have hstop := request_of_runEntries (exec_stop_bound hb2') et3
  obtain ⟨-, v3, -, hv3, -, ⟨hack3, hackO3, -⟩, hnack3, -⟩ :=
    stopCompletes (finishRequest (advance (applyUpdate t2 .latchAck) [])) (h2.latchAck []).calm' hb2'
  obtain rfl := next_unique hv3 hstop
  refine ⟨s3, t3, ?_, ?_, h3, ?_, hnack3⟩
  · rw [cmdFrame, List.append_assoc] at es1 ⊢
    exact runEntries_append_of (by rw [List.append_assoc]; exact es1) (runEntries_append_of es2 es3)
  · simp only [requests, hstart, hbyte, hstop, andThen_next]
  · exact (hackO3.trans (hackO2.trans hack2.symm)).trans hack3.symm

/-- Settles O39: the one request as O38 has it, the three on the same bus. -/
theorem writeCommandCornerCases : Obligations.WriteCommandCornerCases := by
  intro s b h hb
  obtain ⟨u, v, hrun, hthree, hsame, hackO, hnack⟩ := writeCommand_sameBus h hb b
  have hone := request_of_runEntries (exec_writeCommand_bound hb b) hrun
  obtain ⟨-, u', -, r, hu', -, hidle, -, -, -, -, hackO', hack', hnack'⟩ := writeCommandCompletes s b h hb
  obtain rfl := next_unique hu' hone
  refine ⟨_, _, hone, hthree, hidle, fun hbd => ?_, hsame.trace.symm, hsame.lines.symm, hsame.delivered.symm,
    hsame.dec.symm, hsame.receivers.symm, hsame.lastAck.symm, hackO', hackO, ?_, hnack⟩
  · obtain ⟨w, hw, hdel⟩ :=
      cmdFrame_inFrame (loadList_calm h (cmdFrame b)) (low_of_atByteBoundary (s := loadList s (cmdFrame b)) hbd) b []
    obtain rfl := next_unique hw hrun
    exact hdel
  · rw [hnack', hack', Bool.not_not]

end Sys2Proof.Proofs
end

section
/-! PROOFS. The engine's waveform does not depend on the receiver (spec 40 R103, R125). -/

namespace Sys2Proof.Proofs

open Sys2Proof.Machine Sys2Proof.Laws

/-! ### The list is fixed by the binding -/

/-- Whether a binding has been made, and the bound pair (10 R23). -/
def binding (s : State) : Bool × LinePair := (s.bound, boundPair s)

theorem acceptRequest_prog_congr (s1 s2 : State) {body1 body2 : Except Reject (List PStep)} (h : body1 = body2) :
    (acceptRequest s1 body1).prog = (acceptRequest s2 body2).prog := by
  subst h
  cases body1 <;> simp

section
variable {s1 s2 : State} (h : binding s1 = binding s2)
include h

theorem ifBound_congr (body : Except Reject (List PStep)) : ifBound s1 body = ifBound s2 body := by
  have hb : s1.bound = s2.bound := congrArg Prod.fst h
  rw [ifBound, ifBound, hb]

theorem configureBody_congr (c d : Nat) : configureBody s1 c d = configureBody s2 c d := by
  simp only [binding, boundPair, Prod.mk.injEq, LinePair.mk.injEq] at h
  obtain ⟨hb, hc, hd⟩ := h
  rw [configureBody, configureBody, hb, hc, hd]

theorem initializeBody_congr (c d : Nat) : initializeBody s1 c d = initializeBody s2 c d := by
  rw [initializeBody, initializeBody, configureBody_congr h]

/-- The step list that a request loads, or that it is rejected, depends on the binding alone (40 R103, R110). -/
theorem exec_prog_congr {i : Instr} (hi : isRequest i = true) {t1 t2 : State} (h1 : exec i s1 = .next t1)
    (h2 : exec i s2 = .next t2) : t1.prog = t2.prog := by
  cases i with
  | configure c d =>
    cases h1
    cases h2
    exact acceptRequest_prog_congr s1 s2 (configureBody_congr h c d)
  | initializeDisplay c d =>
    cases h1
    cases h2
    exact acceptRequest_prog_congr s1 s2 (initializeBody_congr h c d)
  | start | stop | writeBit _ | writeByte _ | writeCommand _ | setBrightness _ | displayDigit _ _ | displayNumber _
  | clearDisplay =>
    cases h1
    cases h2
    exact acceptRequest_prog_congr s1 s2 (ifBound_congr h _)
  | reserved0 | reserved7 | reservedD | reservedE | reservedF =>
    cases h1
    cases h2
    rfl
  | dataAuto | dataFixed | addr _ | displayCtrl _ | segmentData _ => cases hi

end

/-! ### The engine's side of a list -/

/-- The binding after a list (40 R104 `Bd`). -/
def bindingAfter : List PStep → Bool × LinePair → Bool × LinePair
  | [], b => b
  | .bind c d :: l, _ => bindingAfter l (true, { clk := c, dio := d })
  | .act _ :: l, b => bindingAfter l b
  | .wait :: l, b => bindingAfter l b
  | .sample :: l, b => bindingAfter l b
  | .update _ :: l, b => bindingAfter l b

/-- What the engine does with a list, without what it observes: fixed by the list, the drivers and the binding. -/
structure Waveform (l : List PStep) (tr : List TraceEntry) (s u : State) : Prop where
  trace : u.trace = s.trace ++ tr
  shapes : tr.map shape = shapesOf l
  lines : u.lines = linesAfter l s.lines
  binding : binding u = bindingAfter l (Proofs.binding s)

theorem Waveform.cons {e : PStep} {l : List PStep} {tr1 tr2 : List TraceEntry} {s t u : State}
    (h1 : Waveform [e] tr1 s t) (h2 : Waveform l tr2 t u) : Waveform (e :: l) (tr1 ++ tr2) s u where
  trace := by rw [h2.trace, h1.trace, List.append_assoc]
  shapes := by
    rw [List.map_append, h1.shapes, h2.shapes]
    exact (shapesOf_append [e] l).symm
  lines := by
    rw [h2.lines, h1.lines]
    exact (linesAfter_append [e] l s.lines).symm
  binding := by
    rw [h2.binding, h1.binding]
    cases e <;> rfl

theorem waveform_of_listDone {e : PStep} {tr : List TraceEntry} {s t : State} (hb : noBind [e] = true)
    (h : ListDone [e] tr s t) : Waveform [e] tr s t where
  trace := h.trace
  shapes := h.shapes
  lines := h.lines
  binding := by
    rw [binding, h.bound, h.boundPair]
    cases e with
    | bind c d => cases hb
    | act _ | wait | sample | update _ => rfl

/-- Every entry, under a receiver that keeps 42 R176. -/
theorem wholeEntry_waveform {s : State} (h : calm s) (e : PStep) (rest : List PStep) :
    ∃ t tr, wholeEntry e rest s = .next t ∧ calm t ∧ Waveform [e] tr s t := by
  have quiet : ∀ {t : State} {tr : List TraceEntry}, wholeEntry e rest s = .next t → noBind [e] = true →
      ListDone [e] tr s t → ∃ t tr, wholeEntry e rest s = .next t ∧ calm t ∧ Waveform [e] tr s t :=
    fun ht hb hd => ⟨_, _, ht, hd.calm h, waveform_of_listDone hb hd⟩
  cases e with
  | act a =>
    obtain ⟨t, ht, hd⟩ := wholeEntry_act h a rest
    exact quiet ht rfl hd.listDone
  | wait => exact quiet rfl rfl (wait_listDone h rest)
  | sample => exact quiet (sampleStep_calm h.2 rest) rfl (sample_listDone h rest)
  | update w => exact quiet rfl rfl (update_listDone h w rest)
  | bind c d =>
    refine ⟨_, [.bind c d], rfl, by simpa [calm] using h, ⟨?_, rfl, ?_, rfl⟩⟩
    · rw [recordBind_trace, abandonTxn_trace]
    · rw [recordBind_lines, abandonTxn_lines]
      rfl

/-- Every list, with a `Bind` or without. -/
theorem runList_waveform {s : State} (h : calm s) (l : List PStep) :
    ∃ u tr, runList l s = .next u ∧ Waveform l tr s u := by
  induction l generalizing s with
  | nil => exact ⟨finishRequest s, [], rfl, (List.append_nil _).symm, rfl, rfl, rfl⟩
  | cons e l ih =>
    obtain ⟨t, tr1, ht, hc, h1⟩ := wholeEntry_waveform h e l
    obtain ⟨u, tr2, hu, h2⟩ := ih hc
    exact ⟨u, tr1 ++ tr2, (runList_cons ht).trans hu, h1.cons h2⟩

/-- A request, rejected or not: its acceptance is not seen on the lines. -/
theorem request_waveform {i : Instr} (hi : isRequest i = true) {s t : State} (h : calm s) (he : exec i s = .next t) :
    ∃ u tr, request i s = .next u ∧ Waveform t.prog tr s u := by
  obtain ⟨-, -, -, -, -, -, -, ⟨-, -, -, hrcv, -, -⟩, ⟨hbound, hclk, hdio⟩, -, ⟨hlines, -, -, hin, -, htrace, -⟩, -⟩ :=
    exec_request_frame hi he
  have hbinding : binding t = binding s := by simp [binding, boundPair, hbound, hclk, hdio]
  obtain ⟨u, tr, hu, hw⟩ := runList_waveform (s := t) (by simpa [calm, hin, hrcv] using h) t.prog
  refine ⟨u, tr, by rw [request, he, andThen_next, hu], ?_, hw.shapes, ?_, ?_⟩
  · rw [hw.trace, htrace]
  · rw [hw.lines, hlines]
  · rw [hw.binding, hbinding]

/-- Settles O58: equal bindings give equal lists, and a list gives the same waveform from the same drivers. -/
theorem waveformIndependentOfReceiver : Obligations.WaveformIndependentOfReceiver := by
  intro i s1 s2 hi h1 h2 hbound hclk hdio hlines
  have hbinding : binding s1 = binding s2 := by simp [binding, boundPair, hbound, hclk, hdio]
  obtain ⟨t1, ht1⟩ := exec_next i s1
  obtain ⟨t2, ht2⟩ := exec_next i s2
  have hprog := exec_prog_congr hbinding hi ht1 ht2
  obtain ⟨u1, tr1, hu1, w1⟩ := request_waveform hi h1 ht1
  obtain ⟨u2, tr2, hu2, w2⟩ := request_waveform hi h2 ht2
  have hafter : binding u1 = binding u2 := by rw [w1.binding, w2.binding, hprog, hbinding]
  simp only [binding, boundPair, Prod.mk.injEq, LinePair.mk.injEq] at hafter
  obtain ⟨hb, hc, hd⟩ := hafter
  refine ⟨u1, u2, tr1, tr2, hu1, hu2, w1.trace, w2.trace, ?_, ?_, hb, hc, hd⟩
  · rw [w1.shapes, w2.shapes, hprog]
  · rw [w1.lines, w2.lines, hprog, hlines]

end Sys2Proof.Proofs
end

section
/-! PROOFS. The request level is the fold of the machine's steps, for a request and for a run (40 R104, 70 R238). -/

namespace Sys2Proof.Proofs

open Sys2Proof.Machine Sys2Proof.Laws

/-! ### Steps in a row -/

/-- `n` steps of the machine, stopping at a fault (the host interface's run). -/
abbrev runCore (n : Nat) (s : State) : Result := Host.Core.run Sys2Proof.core n s

theorem runCore_succ (n : Nat) (s : State) : runCore (n + 1) s = andThen (step s) (runCore n) := by
  have hcore : Sys2Proof.core.step s = step s := rfl
  simp only [runCore, Host.Core.run]
  generalize Sys2Proof.core.step s = r at hcore
  rw [← hcore]
  cases r <;> rfl

theorem runCore_add (n m : Nat) (s : State) : runCore (n + m) s = andThen (runCore n s) (runCore m) := by
  induction n generalizing s with
  | zero => rw [Nat.zero_add]; rfl
  | succ n ih =>
    rw [Nat.add_right_comm, runCore_succ, runCore_succ, andThen_assoc]
    congr 1
    funext t
    exact ih t

/-- Some number of steps from `s` answers `r`, and none of them ends a run of the host's requests. -/
def Leads (s : State) (r : Result) : Prop :=
  ∃ n, runCore n s = r ∧ ∀ k, runSteps (n + k) s = andThen r (runSteps k)

theorem leads_refl (s : State) : Leads s (.next s) := ⟨0, rfl, fun k => by rw [Nat.zero_add]; rfl⟩

theorem leads_step {s : State} (h : endsRun s = false) : Leads s (step s) := by
  refine ⟨1, ?_, fun k => ?_⟩
  · rw [runCore_succ]
    cases step s <;> rfl
  · rw [Nat.add_comm]
    simp [runSteps, h]

theorem Leads.andThen {s : State} {r : Result} {f : State → Result} (h : Leads s r)
    (hf : ∀ t, r = .next t → Leads t (f t)) : Leads s (andThen r f) := by
  obtain ⟨n, hrun, hsteps⟩ := h
  cases r with
  | next t =>
    obtain ⟨m, hrun', hsteps'⟩ := hf t rfl
    refine ⟨n + m, by rw [runCore_add, hrun, andThen_next, hrun', andThen_next], fun k => ?_⟩
    rw [Nat.add_assoc, hsteps, andThen_next, hsteps', andThen_next]
  | fault e => exact ⟨n, hrun, hsteps⟩
  | refused e => exact ⟨n, hrun, hsteps⟩

/-- What is left of a run follows steps that do not end it. -/
theorem Leads.runSteps_andThen {s : State} {r : Result} {f : State → Result} (h : Leads s r)
    (hf : ∀ t, r = .next t → ∃ n, ∀ k, runSteps (n + k) t = f t) :
    ∃ n, ∀ k, runSteps (n + k) s = Machine.andThen r f := by
  obtain ⟨n, -, hn⟩ := h
  cases r with
  | next t =>
    obtain ⟨m, hm⟩ := hf t rfl
    exact ⟨n + m, fun k => by rw [Nat.add_assoc, hn, andThen_next, hm, andThen_next]⟩
  | fault e => exact ⟨n, hn⟩
  | refused e => exact ⟨n, hn⟩

/-! ### The receiver takes a frame -/

theorem endsRun_inbox {s : State} {bytes : List Byte} (h : s.rxInbox = some bytes) : endsRun s = false := by
  simp [endsRun, h]

/-- The receiver's bytes are steps of the machine, one each [log 15]. -/
theorem leads_takeFrame (k : Nat) (s : State) : Leads s (takeFrame k s) := by
  induction k generalizing s with
  | zero => exact leads_refl s
  | succ k ih =>
    cases hin : s.rxInbox with
    | none => rw [takeFrame_none hin]; exact leads_refl s
    | some bytes =>
      have htake : takeFrame (k + 1) s = Machine.andThen (step s) (takeFrame k) := by
        rw [takeFrame, hin]
        simp only [step, fetch_inbox hin]
        cases fetchBusByte s bytes <;> rfl
      rw [htake]
      exact (leads_step (endsRun_inbox hin)).andThen fun t _ => ih t

/-! ### An entry, a list, a request -/

/-- The engine runs `l`: it is busy with it, no frame waits, and no reset is to come. -/
structure Running (l : List PStep) (ms : List HostMove) (s : State) : Prop where
  prog : s.prog = l
  busy : s.busy = true
  inbox : s.rxInbox = none
  rst : s.rstIn = []
  moves : s.hostMoves = ms

/-- With no reset to come a step uses up no level of `rst`. -/
theorem takeRst_of_nil {s : State} (h : s.rstIn = []) : takeRst s = s := by
  cases s
  cases h
  rfl

theorem Running.leads_step {l : List PStep} {ms : List HostMove} {s : State} (h : Running l ms s) :
    Leads s (step s) := Proofs.leads_step (by simp [endsRun, h.inbox, rstHigh_of_nil h.rst, h.busy])

theorem Running.step_entry {e : PStep} {rest : List PStep} {ms : List HostMove} {s : State}
    (h : Running (e :: rest) ms s) : step s = performEntry e rest s := by
  rw [Proofs.step_entry h.inbox (rstHigh_of_nil h.rst) h.busy h.prog, takeRst_of_nil h.rst]

/-- After a line action the receiver takes the frame it may have delivered, and the action's wait is next. -/
theorem Running.after_takeFrame {a : LineAction} {rest : List PStep} {ms : List HostMove} {v : Bit} {s u : State}
    (h : Running (.act a :: rest) ms s) (htake : takeFrame 2 (afterAct a rest v s) = .next u) :
    Running (.wait :: rest) ms u := by
  cases hin : (afterAct a rest v s).rxInbox with
  | none =>
    rw [takeFrame_none hin] at htake
    cases htake
    exact ⟨by simp [afterAct], by simp [afterAct, h.busy], hin, by simp [afterAct, h.rst], by simp [afterAct, h.moves]⟩
  | some bytes =>
    obtain ⟨r, hr⟩ := takeFrame_some hin
    rw [hr] at htake
    cases htake
    exact ⟨by simp [afterAct], by simp [afterAct, h.busy], rfl, by simp [afterAct, h.rst], by simp [afterAct, h.moves]⟩

/-- An entry with its wait leaves the rest of the list to run. -/
theorem Running.wholeEntry_next {e : PStep} {rest : List PStep} {ms : List HostMove} {s u : State}
    (h : Running (e :: rest) ms s) (hu : wholeEntry e rest s = .next u) : Running rest ms u := by
  cases e with
  | act a =>
    simp only [wholeEntry, andThen_eq_next, actStep_eq] at hu
    obtain ⟨w, ⟨t, hact, htake⟩, hwait⟩ := hu
    split at hact <;> cases hact
    cases hwait
    have hw := h.after_takeFrame htake
    exact ⟨rfl, hw.busy, hw.inbox, hw.rst, hw.moves⟩
  | wait =>
    cases hu
    exact ⟨rfl, h.busy, h.inbox, h.rst, h.moves⟩
  | sample =>
    simp only [wholeEntry, sampleStep] at hu
    split at hu <;> cases hu
    exact ⟨rfl, h.busy, h.inbox, h.rst, h.moves⟩
  | update w =>
    cases hu
    exact ⟨rfl, by simp [h.busy], by simp [h.inbox], by simp [h.rst], by simp [h.moves]⟩
  | bind c d =>
    cases hu
    exact ⟨rfl, by simp [h.busy], by simp [h.inbox], by simp [h.rst], by simp [h.moves]⟩

/-- An entry is one step of the engine; a line action is one, then the receiver's, then its wait's (40 R104). -/
theorem Running.leads_wholeEntry {e : PStep} {rest : List PStep} {ms : List HostMove} {s : State}
    (h : Running (e :: rest) ms s) : Leads s (wholeEntry e rest s) := by
  have hstep := h.leads_step
  rw [h.step_entry] at hstep
  cases e with
  | act a =>
    refine (hstep.andThen fun t _ => leads_takeFrame 2 t).andThen fun w hw => ?_
    obtain ⟨t, hact, htake⟩ := andThen_eq_next.1 hw
    rw [performEntry, actStep_eq] at hact
    split at hact <;> cases hact
    have hwait := h.after_takeFrame htake
    have := hwait.leads_step
    rwa [hwait.step_entry] at this
  | wait | sample | update _ | bind _ _ => exact hstep

theorem Running.leads_runList {l : List PStep} {ms : List HostMove} {s : State} (h : Running l ms s) :
    Leads s (runList l s) := by
  induction l generalizing s with
  | nil =>
    have hstep := h.leads_step
    rwa [step_finish h.inbox (rstHigh_of_nil h.rst) h.busy h.prog, takeRst_of_nil h.rst] at hstep
  | cons e rest ih => exact h.leads_wholeEntry.andThen fun t ht => ih (h.wholeEntry_next ht)

/-- The engine is not busy, no frame waits, and no reset is to come. -/
structure Resting (ms : List HostMove) (s : State) : Prop where
  busy : s.busy = false
  inbox : s.rxInbox = none
  rst : s.rstIn = []
  moves : s.hostMoves = ms

theorem Running.runList_next {l : List PStep} {ms : List HostMove} {s u : State} (h : Running l ms s)
    (hu : runList l s = .next u) : Resting ms u := by
  induction l generalizing s with
  | nil =>
    cases hu
    exact ⟨rfl, h.inbox, h.rst, h.moves⟩
  | cons e rest ih =>
    obtain ⟨t, ht, hrest⟩ := andThen_eq_next.1 hu
    exact ih (h.wholeEntry_next ht) hrest

/-- An accepted request is the engine's to run. -/
theorem running_of_exec {i : Instr} {s t : State} (hi : isRequest i = true) (hin : s.rxInbox = none)
    (hrst : s.rstIn = []) (he : exec i s = .next t) : Running t.prog s.hostMoves t := by
  obtain ⟨hbusy, -, -, -, -, -, -, ⟨-, -, -, -, hmoves, hrst'⟩, -, -, ⟨-, -, -, hin', -⟩, -⟩ := exec_request_frame hi he
  exact ⟨rfl, hbusy, by rw [hin', hin], by rw [hrst', hrst], hmoves⟩

/-! ### A run -/

/-- The offered request is accepted and run to its `done`. -/
theorem leads_acceptAndRun {s : State} {op : BitVec 4} {a b : Word} {ms : List HostMove}
    (h : Resting (.offer op a b :: ms) s) : Leads s (acceptAndRun op a b s) := by
  have hstep : step s = exec (decodeRequest op a b) (latchRequest s op a b) := by
    rw [step, fetch_offer h.inbox (rstHigh_of_nil h.rst) h.busy h.moves, takeRst_of_nil h.rst]
  have hends : endsRun s = false := by
    simp [endsRun, rstHigh_of_nil h.rst, h.moves, noOfferLeft]
  have hlead := leads_step hends
  rw [hstep] at hlead
  exact hlead.andThen fun t ht =>
    (running_of_exec (isRequest_decodeRequest op a b) (by exact h.inbox) (by exact h.rst) ht).leads_runList

theorem acceptAndRun_next {s u : State} {op : BitVec 4} {a b : Word} {ms : List HostMove}
    (h : Resting (.offer op a b :: ms) s) (hu : acceptAndRun op a b s = .next u) : Resting ms u := by
  obtain ⟨t, ht, hrun⟩ := andThen_eq_next.1 hu
  have hr := (running_of_exec (isRequest_decodeRequest op a b) (by exact h.inbox) (by exact h.rst) ht).runList_next hrun
  have hms : (latchRequest s op a b).hostMoves = ms := by simp [h.moves]
  rwa [hms] at hr

/-- The cycle after the last `done` ends the run (70 R238). -/
theorem Resting.runSteps_last {ms : List HostMove} {s : State} (h : Resting ms s) (hn : noOfferLeft ms = true)
    (k : Nat) :
    runSteps (1 + k) s = .next (idleCycle s) := by
  have hends : endsRun s = true := by simp [endsRun, h.inbox, h.busy, h.moves, hn]
  rw [Nat.add_comm, runSteps_of_ends hends,
    step_idle h.inbox (rstHigh_of_nil h.rst) h.busy (reqValid_of_noOfferLeft (by rw [h.moves, hn])),
    takeRst_of_nil h.rst]

theorem Resting.idleCycle {m : HostMove} {ms : List HostMove} {s : State} (h : Resting (m :: ms) s) :
    Resting ms (idleCycle s) := ⟨h.busy, h.inbox, h.rst, by simp [h.moves]⟩

/-- The steps of a run answer what the request level answers. -/
theorem Resting.runSteps_eq {ms : List HostMove} {s : State} (h : Resting ms s) :
    ∃ n, ∀ k, runSteps (n + k) s = runMoves ms s := by
  induction ms generalizing s with
  | nil => exact ⟨1, h.runSteps_last rfl⟩
  | cons m ms ih =>
    cases m with
    | offer op a b => exact (leads_acceptAndRun h).runSteps_andThen fun t ht => ih (acceptAndRun_next h ht)
    | pause =>
      cases hn : noOfferLeft ms with
      | true =>
        rw [runMoves_of_noOfferLeft (by exact hn)]
        exact ⟨1, h.runSteps_last hn⟩
      | false =>
        have hstep : step s = .next (Machine.idleCycle s) := by
          rw [step_idle h.inbox (rstHigh_of_nil h.rst) h.busy (by simp [reqValid, h.moves]), takeRst_of_nil h.rst]
        have hlead : Leads s (step s) := leads_step (by simp [endsRun, rstHigh_of_nil h.rst, h.moves, noOfferLeft, hn])
        rw [hstep] at hlead
        rw [runMoves_pause hn]
        exact hlead.runSteps_andThen (f := runMoves ms) fun t ht => by cases ht; exact ih h.idleCycle

theorem noOfferLeft_tail {ms : List HostMove} (h : noOfferLeft ms = true) : noOfferLeft ms.tail = true := by
  rw [noOfferLeft_iff] at h ⊢
  exact fun m hm => h m (List.mem_of_mem_tail hm)

/-- A run ends with the idle cycle of a resting engine to which nothing more is offered. -/
theorem Resting.runMoves_next {ms : List HostMove} {s u : State} (h : Resting ms s) (hu : runMoves ms s = .next u) :
    ∃ ms' w, Resting ms' w ∧ noOfferLeft ms' = true ∧ u = Machine.idleCycle w := by
  induction ms generalizing s with
  | nil =>
    cases hu
    exact ⟨[], s, h, rfl, rfl⟩
  | cons m ms ih =>
    cases m with
    | offer op a b =>
      obtain ⟨t, ht, hrun⟩ := andThen_eq_next.1 hu
      exact ih (acceptAndRun_next h ht) hrun
    | pause =>
      cases hn : noOfferLeft ms with
      | true =>
        rw [runMoves_of_noOfferLeft (by exact hn)] at hu
        cases hu
        exact ⟨_, s, h, hn, rfl⟩
      | false =>
        rw [runMoves_pause hn] at hu
        exact ih h.idleCycle hu

/-- Settles O59: an entry of the list is a step of the engine, a wait or a byte of a frame one more, whatever the
receiver answers; a run is its requests and pauses in order. -/
theorem requestLevelAgreesWithSteps : Obligations.RequestLevelAgreesWithSteps := by
  refine ⟨fun i s t hi hin hrst he => ?_, fun s hin hrst hbusy => ?_⟩
  · obtain ⟨n, hn, -⟩ := (running_of_exec hi hin hrst he).leads_runList
    exact ⟨n, by rw [request, he, andThen_next]; exact hn⟩
  · have h : Resting s.hostMoves s := ⟨hbusy, hin, hrst, rfl⟩
    refine ⟨h.runSteps_eq, fun u hu => ?_⟩
    obtain ⟨ms, w, hw, hn, rfl⟩ := h.runMoves_next hu
    have hleft : noOfferLeft (idleCycle w).hostMoves = true := by
      rw [idleCycle_hostMoves, hw.moves]
      exact noOfferLeft_tail hn
    refine ⟨hw.busy, rfl, reqValid_of_noOfferLeft hleft, hleft, fun hnone => ?_⟩
    rw [run, runMoves_of_noOfferLeft hnone, Host.Outcome.next.injEq] at hu
    exact hu.symm

end Sys2Proof.Proofs
end

section
/-! PROOFS. The arithmetic and the requests of the display sequencer, run to their `done` (spec 41 R140 to R153). -/

namespace Sys2Proof.Proofs

open Sys2Proof.Machine Sys2Proof.Laws

/-! ### The clamp and the digits -/

/-- Settles O7: between 0 and 7 a level fits the three bits of the control byte. -/
theorem brightnessClamp : Obligations.BrightnessClamp := by
  intro l
  unfold clampLevel Config.brightMax
  split
  · rfl
  · split
    · rfl
    · rw [BitVec.toNat_ofInt]
      omega

/-- A decimal digit fits a digit register. -/
theorem toNat_digit (n : Nat) : (BitVec.ofNat 4 (n % 10)).toNat = n % 10 := by
  rw [BitVec.toNat_ofNat]
  omega

/-- Settles O8: each register holds its decimal digit, and a value below 10000 has four of them. -/
theorem digitDecomposition : Obligations.DigitDecomposition := by
  intro v h0 h9
  obtain ⟨n, rfl⟩ := Int.eq_ofNat_of_zero_le h0
  simp only [digitsOf, Int.toNat_natCast, toNat_digit]
  omega

/-! ### Lists of frames -/

/-- A list that binds nothing, latches no `ack_o`, and ends in STOP_SEQ, as the sequencer's lists of frames do
(41 R139). -/
structure EndsInStop (l : List PStep) : Prop where
  noBind : noBind l = true
  noLatch : noLatch l = true
  stop : stopSeq <:+ l

/-- Entries that come before such a list. -/
theorem EndsInStop.prepend {l1 l2 : List PStep} (h2 : EndsInStop l2) (hb : Laws.noBind l1 = true)
    (hk : Laws.noLatch l1 = true) : EndsInStop (l1 ++ l2) where
  noBind := by rw [noBind_append, hb, h2.noBind]; rfl
  noLatch := by rw [noLatch_append, hk, h2.noLatch]; rfl
  stop := h2.stop.trans (List.suffix_append l1 l2)

theorem EndsInStop.append {l1 l2 : List PStep} (h1 : EndsInStop l1) (h2 : EndsInStop l2) : EndsInStop (l1 ++ l2) :=
  h2.prepend h1.noBind h1.noLatch

theorem noLatch_byteSeq (b : Byte) : noLatch (byteSeq b) = true := by
  simpa [cmdFrame, startSeq, stopSeq, noLatch] using noLatch_cmdFrame b

theorem endsInStop_cmdFrame (b : Byte) : EndsInStop (cmdFrame b) :=
  ⟨noBind_cmdFrame b, noLatch_cmdFrame b, List.suffix_append _ _⟩

theorem endsInStop_addrFrame (p : BitVec 2) (pat : Byte) : EndsInStop (addrFrame p pat) where
  noBind := noBind_addrFrame p pat
  noLatch := by simp [addrFrame, startSeq, stopSeq, noLatch, noLatch_byteSeq]
  stop := List.suffix_append _ _

theorem endsInStop_fourDigitFrames (p0 p1 p2 p3 : Byte) : EndsInStop (fourDigitFrames p0 p1 p2 p3) :=
  ((((endsInStop_cmdFrame _).append (endsInStop_addrFrame _ p0)).append (endsInStop_addrFrame _ p1)).append
    (endsInStop_addrFrame _ p2)).append (endsInStop_addrFrame _ p3)

theorem endsInStop_initializeFrames : EndsInStop initializeFrames :=
  (endsInStop_fourDigitFrames _ _ _ _).append (endsInStop_cmdFrame _)

/-- Whatever the lines were, such a list ends idle-high (41 R139). -/
theorem EndsInStop.run {l : List PStep} {s : State} (hl : EndsInStop l) (h : calm s) (rest : List PStep) :
    ∃ u tr, runEntries l rest s = .next u ∧ ListDone l tr s u ∧ idleHigh u := by
  obtain ⟨hb, -, l, rfl⟩ := hl
  rw [noBind_append, Bool.and_eq_true] at hb
  obtain ⟨t, _, hrun, hd⟩ := runEntries_done l (stopSeq ++ rest) h hb.1
  obtain ⟨u, _, hstop, hd', -, hidle⟩ := stopSeq_events (hd.calm h) rest
  exact ⟨u, _, runEntries_append_of hrun hstop, hd.append hd', hidle⟩

theorem EndsInStop.ne_nil {l : List PStep} (hl : EndsInStop l) : l ≠ [] := by
  rintro rfl
  exact absurd (List.suffix_nil.1 hl.stop) (by simp [stopSeq])

/-! ### A sequencer request run to its `done` -/

/-- LAST_ACK is that of the last sample, if there is one (40 R121). -/
theorem getLast_eq_ackAfter {rs : List Bit} (h : rs ≠ []) (old : Bool) : rs.getLast? = some (!ackAfter rs old) := by
  rw [ackAfter, List.getLast?_eq_some_getLast h, Bool.not_not]

/-- A request accepted in `s` is done in `u`. It ran `l`, which has `k` samples, from `t`, and that added `tr` to the
trace. -/
structure SequenceDone (l : List PStep) (k : Nat) (tr : List TraceEntry) (s t u : State) : Prop where
  completed : completed u
  inputs : keepsInputs s u
  dig : u.dig = s.dig
  ackO : u.ackO = s.ackO
  binding : keepsBinding t u
  others : keepsOtherReceivers t u
  idle : idleHigh u
  trace : u.trace = t.trace ++ tr
  shapes : tr.map shape = shapesOf l
  samples : (samplesOf tr).length = k
  last : (samplesOf tr).getLast? = some (!u.lastAck)
  nack : u.nack = (samplesOf tr).any id

theorem EndsInStop.done {l : List PStep} {n k e : Nat} {s t : State} (hl : EndsInStop l) (hn : Counts l n k e)
    (hk : k ≠ 0) (ha : Accepted s t) (hc : calm t) :
    ∃ u tr, runEntries l [] t = .next u ∧ SequenceDone l k tr s t (finishRequest u) := by
  obtain ⟨u, tr, hrun, hd, hidle⟩ := hl.run hc []
  obtain ⟨-, hcount, -⟩ := hn
  obtain ⟨-, hackO, -⟩ := ha.ack
  have hlen : (samplesOf tr).length = k := hd.samples.trans hcount
  have hne : samplesOf tr ≠ [] := List.ne_nil_of_length_pos (by omega)
  exact ⟨u, tr, hrun,
    { completed := ha.completed hd (runEntries_prog hrun hl.ne_nil hc)
      inputs := ha.keepsInputs hd
      dig := hd.dig.trans ha.dig
      ackO := (hd.ackO hl.noLatch).trans hackO
      binding := ⟨hd.bound, hd.clkSel, hd.dioSel⟩
      others := hd.others
      idle := hidle
      trace := hd.trace
      shapes := hd.shapes
      samples := hlen
      last := by rw [finishRequest_lastAck, hd.lastAck]; exact getLast_eq_ackAfter hne _
      nack := ha.nack hd }⟩

/-- A request accepted with such a list. `s'` is `s`, or `s` with the digit registers written. -/
theorem EndsInStop.request {i : Instr} {l : List PStep} {n k e : Nat} {s s' : State} (hl : EndsInStop l)
    (hn : Counts l n k e) (hk : k ≠ 0) (hc : calm s') (he : exec i s = .next (loadList s' l)) :
    ∃ u tr, request i s = .next u ∧ SequenceDone l k tr s' (loadList s' l) u := by
  obtain ⟨u, tr, hrun, hd⟩ := hl.done hn hk (accepted_loadList s' l) (loadList_calm hc l)
  refine ⟨finishRequest u, tr, ?_, hd⟩
  rw [Machine.request, he, andThen_next, runList_eq, loadList_prog, hrun, andThen_next]

section
variable {l : List PStep} {k : Nat} {tr : List TraceEntry} {s t u : State}

theorem SequenceDone.lastAck (h : SequenceDone l k tr s t u) {r : Bit} (hr : (samplesOf tr).getLast? = some r) :
    u.lastAck = !r := by
  rw [Option.some.inj (hr.symm.trans h.last), Bool.not_not]

theorem SequenceDone.boundPair (h : SequenceDone l k tr s t u) : Machine.boundPair u = Machine.boundPair t := by
  obtain ⟨-, hclk, hdio⟩ := h.binding
  rw [Machine.boundPair, hclk, hdio]
  rfl

/-- The list ran from the acceptance: what the request leaves as it was. -/
theorem SequenceDone.requestFrame (h : SequenceDone l k tr s (loadList s l) u) : requestFrame s u :=
  ⟨h.completed, h.inputs, h.binding, h.dig⟩

end

/-- Settles O41: one frame of one byte, so one sample. -/
theorem setBrightnessCompletes : Obligations.SetBrightnessCompletes := by
  intro s l h hb
  have he := exec_setBrightness_bound hb l
  obtain ⟨u, tr, hreq, hd⟩ := (endsInStop_cmdFrame _).request (counts_cmdFrame _) one_ne_zero h he
  obtain ⟨r, hr⟩ := List.length_eq_one_iff.1 hd.samples
  exact ⟨he, u, tr, r, hreq, hd.requestFrame, hd.idle, hd.others, hd.trace, hd.shapes, hr, hd.ackO,
    hd.lastAck (by rw [hr]; rfl), hd.nack.trans (by simp [hr])⟩

/-- Settles O42: a frame of one byte and a frame of two. -/
theorem displayDigitCompletes : Obligations.DisplayDigitCompletes := by
  intro s p d h hb hp0 hp3 hd0 hd9
  have he := exec_displayDigit_bound hb (p := p) (d := d) (by simp only [outOfRange]; omega)
  obtain ⟨u, tr, hreq, hd⟩ := ((endsInStop_cmdFrame _).append (endsInStop_addrFrame _ _)).request
    ((counts_cmdFrame _).append (counts_addrFrame _ _)) (by decide) h he
  obtain ⟨r1, r2, r3, hr⟩ := List.length_eq_three.1 hd.samples
  exact ⟨he, u, tr, r1, r2, r3, hreq, hd.requestFrame, hd.idle, hd.others, hd.trace, hd.shapes, hr, hd.ackO,
    hd.lastAck (by rw [hr]; rfl), hd.nack.trans (by simp [hr, Bool.or_assoc])⟩

/-- Settles O43: acceptance writes the digit registers, and the frames of the four digits do not touch them. -/
theorem displayNumberCompletes : Obligations.DisplayNumberCompletes := by
  intro s v h hb h0 h9
  have he := exec_displayNumber_bound hb (v := v) (by simp only [outOfRange]; omega)
  obtain ⟨u, tr, hreq, hd⟩ := (endsInStop_fourDigitFrames _ _ _ _).request (s' := setDigits s (digitsOf v))
    (counts_fourDigitFrames _ _ _ _) (by decide) h he
  exact ⟨_, rfl, he, u, tr, hreq, hd.completed, hd.inputs, hd.binding, hd.dig, hd.idle, hd.others, hd.trace, hd.shapes,
    hd.samples, hd.ackO, hd.last, hd.nack⟩

/-- Settles O44: the frames of four blank patterns. -/
theorem clearDisplayCompletes : Obligations.ClearDisplayCompletes := by
  intro s h hb
  have he := exec_clearDisplay_bound hb
  obtain ⟨u, tr, hreq, hd⟩ := (endsInStop_fourDigitFrames _ _ _ _).request (counts_fourDigitFrames _ _ _ _)
    (by decide) h he
  exact ⟨_, rfl, he, u, tr, hreq, hd.requestFrame, hd.idle, hd.others, hd.trace, hd.shapes, hd.samples, hd.ackO,
    hd.last, hd.nack⟩

/-! ### INITIALIZE -/

/-- The frames of `INITIALIZE` as 41 R140 has them: brightness 7 is the byte 0x8F. -/
theorem append_initializeFrames (l : List PStep) :
    l ++ initializeFrames = l ++ (cmdFrame 0x44#8 ++ addrFrame 0#2 0x00#8 ++ addrFrame 1#2 0x00#8 ++
      addrFrame 2#2 0x00#8 ++ addrFrame 3#2 0x00#8) ++ cmdFrame 0x8F#8 := (List.append_assoc l _ _).symm

/-- What `INITIALIZE` runs after its `Bind`, or without one. -/
theorem endsInStop_redriveFrames : EndsInStop (redriveSeq ++ initializeFrames) :=
  endsInStop_initializeFrames.prepend rfl rfl

theorem counts_redriveFrames : Counts (redriveSeq ++ initializeFrames) 488 10 97 :=
  counts_redriveSeq.append counts_initializeFrames

/-- Abandoning the transaction changes no receiver but the one on the bound lines, and that only if one was open
(42 R186). -/
theorem abandonTxn_lookupRx {s : State} {p : LinePair} (h : p ≠ boundPair s ∨ inTxn s = false) :
    lookupRx (abandonTxn s).receivers p = lookupRx s.receivers p := by
  rcases h with hp | ht
  · exact abandonTxn_otherReceivers s p hp
  · rw [abandonTxn, ht]
    rfl

theorem afterBind_trace (c d : Word) (rest : List PStep) (s : State) :
    (afterBind c d rest s).trace = s.trace ++ [.bind c d] := by simp [afterBind]

theorem afterBind_receivers (c d : Word) (rest : List PStep) (s : State) :
    (afterBind c d rest s).receivers = (abandonTxn s).receivers := rfl

/-- With a `Bind` first, both lines are driven high and the frames sent from the state it leaves. -/
theorem runEntries_bindInitialize {s t : State} {c d : Word} (ha : Accepted s t) (h : calm t) :
    ∃ u tr, runEntries (.bind c d :: redriveSeq ++ initializeFrames) [] t = .next u ∧
      SequenceDone (redriveSeq ++ initializeFrames) 10 tr s (afterBind c d (initializeFrames ++ []) t)
        (finishRequest u) := by
  obtain ⟨u, tr, hrun, hdone⟩ := endsInStop_redriveFrames.done counts_redriveFrames (by decide)
    (ha.bind c d (initializeFrames ++ [])) (afterBind_calm h c d (initializeFrames ++ []))
  refine ⟨u, tr, ?_, hdone⟩
  rw [runEntries_append, runEntries_bind, ← runEntries_append, hrun]

/-- Settles O45: `CONFIGURE`'s list, then the frames; with a `Bind`, everything after it is on the new lines. -/
theorem initializeCompletes : Obligations.InitializeCompletes := by
  intro s c d h hc hd hr
  by_cases hsame : s.bound = true ∧ c = s.clkSel.toNat ∧ d = s.dioSel.toNat
  · obtain ⟨hb, rfl, rfl⟩ := hsame
    have hbody := configureBody_same hr hb
    have he := exec_initializeDisplay_ok hbody
    obtain ⟨u, tr, hreq, hdone⟩ := endsInStop_redriveFrames.request counts_redriveFrames (by decide) h he
    obtain ⟨hbound, hclk, hdio⟩ := hdone.binding
    exact ⟨_, he, ⟨_, exec_configure_ok hbody, append_initializeFrames _⟩, u, tr, hreq, hdone.completed, hdone.inputs,
      hdone.dig, hbound.trans hb, congrArg BitVec.toNat hclk, congrArg BitVec.toNat hdio, hdone.idle, hdone.trace,
      hdone.shapes, hdone.samples, hdone.ackO, hdone.last, hdone.nack,
      fun p hp _ => hdone.others p (hdone.boundPair ▸ hp)⟩
  · have hbody := configureBody_bind hr hsame
    have he := exec_initializeDisplay_ok hbody
    obtain ⟨u, tr, hrun, hdone⟩ := runEntries_bindInitialize (c := BitVec.ofNat 32 c) (d := BitVec.ofNat 32 d)
      (accepted_loadList s _) (loadList_calm h _)
    obtain ⟨hbound, hclk, hdio⟩ := hdone.binding
    have htrace := hdone.trace
    rw [afterBind_trace, loadList_trace, List.append_assoc] at htrace
    refine ⟨_, he, ⟨_, exec_configure_ok hbody, append_initializeFrames _⟩, finishRequest u, _,
      request_of_runEntries he hrun, hdone.completed, hdone.inputs, hdone.dig, hbound, ?_, ?_, hdone.idle, htrace,
      congrArg (Shape.bind _ _ :: ·) hdone.shapes, hdone.samples, hdone.ackO, hdone.last, hdone.nack,
      fun p hp hold => ?_⟩
    · rw [hclk]
      exact Nat.mod_eq_of_lt hc
    · rw [hdio]
      exact Nat.mod_eq_of_lt hd
    · rw [hdone.others p (hdone.boundPair ▸ hp), afterBind_receivers, abandonTxn_loadList_receivers,
        abandonTxn_lookupRx hold]

end Sys2Proof.Proofs
end

section
/-! PROOFS. The reference receiver: each bus byte where it stands in its frame, and the frame as a whole (spec 42 R182 to
R186). -/

namespace Sys2Proof.Proofs

open Sys2Proof.Machine Sys2Proof.Laws

/-! ### What the reading of a frame changes -/

theorem keepsOtherReceivers_setRx (s : State) (r : Rx) : keepsOtherReceivers s (setRx s r) :=
  fun _ hp => lookupRx_storeRx_other r hp

/-- An operation that ends the reading of a frame with `r` makes `r` the receiver's state, and changes nothing else but
that the frame no longer waits (42 R182 to R186). -/
theorem frameRead_of_eq {x : Result} {s : State} {r : Rx} (hwf : receiversWf s.receivers = true)
    (hx : x = .next (finishFrame s r)) :
    ∃ t, x = .next t ∧ rxOf t = r ∧ keepsOtherReceivers s t ∧
      t = { s with receivers := t.receivers, rxInbox := none, rxAddr := none } :=
  ⟨_, hx, rxOf_finishFrame hwf r, keepsOtherReceivers_setRx s r, rfl⟩

/-! ### A byte by its place in the frame -/

theorem oneByteFrame_last {s : State} (h : frameRest s = []) (r : Rx) : oneByteFrame s r = finishFrame s r := if_pos h

theorem oneByteFrame_followed {s : State} (h : frameRest s ≠ []) (r : Rx) : oneByteFrame s r = finishFrame s Rx.top :=
  if_neg h

/-- Settles O48: with nothing after it, the byte is the whole frame. -/
theorem oneByteCommandsComplete : Obligations.OneByteCommandsComplete := by
  intro s l hlast hwf
  have whole : ∀ r, Host.Outcome.next (oneByteFrame s r) = (.next (finishFrame s r) : Result) :=
    fun r => congrArg _ (oneByteFrame_last hlast r)
  exact ⟨frameRead_of_eq hwf (whole _), frameRead_of_eq hwf (whole _), frameRead_of_eq hwf (whole _)⟩

/-! ### The positions of the display -/

theorem position_cases (p : BitVec 2) : p = 0#2 ∨ p = 1#2 ∨ p = 2#2 ∨ p = 3#2 := by
  revert p
  decide

/-- A pattern goes to its position and to no other (42 R183). -/
theorem getDisp_setDisp (r : Rx) (p q : BitVec 2) (pat : Byte) :
    getDisp (setDisp r p pat) q = if q = p then some pat else getDisp r q := by
  obtain rfl | rfl | rfl | rfl := position_cases p <;> obtain rfl | rfl | rfl | rfl := position_cases q <;> rfl

theorem setDisp_mode (r : Rx) (p : BitVec 2) (pat : Byte) : (setDisp r p pat).mode = r.mode := by
  obtain rfl | rfl | rfl | rfl := position_cases p <;> rfl

theorem setDisp_ctrl (r : Rx) (p : BitVec 2) (pat : Byte) : (setDisp r p pat).ctrl = r.ctrl := by
  obtain rfl | rfl | rfl | rfl := position_cases p <;> rfl

theorem exec_addr_addresses {s : State} {p : BitVec 2} (hl : (frameRest s).length = 1)
    (hm : (rxOf s).mode = some .fixed) : exec (.addr p) s = .next (addressPosition s p) :=
  congrArg Host.Outcome.next (if_pos ⟨hl, hm⟩)

theorem exec_segmentData_addressed {s : State} {p : BitVec 2} (ha : s.rxAddr = some p) (pat : Byte) :
    exec (.segmentData pat) s = .next (oneByteFrame s (setDisp (rxOf s) p pat)) := by
  simp only [exec, execSegmentData, ha]

/-- Settles O49: the address byte leaves its position for the data byte, which writes there. -/
theorem addressAndDataComplete : Obligations.AddressAndDataComplete := by
  constructor
  · intro s p pat hin hmode
    exact ⟨_, exec_addr_addresses (by simp [frameRest, hin]) hmode, rfl⟩
  · intro s p pat hlast haddr hwf
    have hexec := exec_segmentData_addressed haddr pat
    rw [oneByteFrame_last hlast] at hexec
    obtain ⟨t, ht, hrx, hothers, hframe⟩ := frameRead_of_eq hwf hexec
    refine ⟨t, ht, ?_, fun q hq => ?_, ?_, ?_, hothers, hframe⟩
    · rw [hrx, getDisp_setDisp, if_pos rfl]
    · rw [hrx, getDisp_setDisp, if_neg hq]
    · rw [hrx, setDisp_mode]
    · rw [hrx, setDisp_ctrl]

/-! ### Frames the receiver does not define -/

theorem exec_addr_undefined {s : State} {p : BitVec 2} (h : (frameRest s).length ≠ 1 ∨ (rxOf s).mode ≠ some .fixed) :
    exec (.addr p) s = .next (finishFrame s Rx.top) :=
  congrArg Host.Outcome.next (if_neg (not_and_or.2 h))

theorem exec_segmentData_undefined {s : State} {pat : Byte} (h : frameRest s ≠ [] ∨ s.rxAddr = none) :
    exec (.segmentData pat) s = .next (finishFrame s Rx.top) := by
  cases ha : s.rxAddr with
  | none =>
    simp only [exec, execSegmentData, ha]
    rfl
  | some p =>
    have hrest : frameRest s ≠ [] := h.resolve_right (by simp [ha])
    rw [exec_segmentData_addressed ha, oneByteFrame_followed hrest]

/-- A frame that is incomplete, empty or not wholly acknowledged does not wait to be taken (42 R186). -/
theorem deliverFrame_undefined {f : Frame} (s : State) (h : f.complete = false ∨ f.bytes = [] ∨ f.acked = false) :
    deliverFrame s f = setRx (recordFrame s f) Rx.top := by
  rcases deliverFrame_cases s f with ⟨hcomplete, hacked, hbytes, -⟩ | ⟨-, he⟩
  · simp [hcomplete, hacked, hbytes] at h
  · exact he

/-- Settles O50: each such byte ends the reading with every element unknown, and so does the delivery. -/
theorem undefinedFramesMakeReceiverUnknown : Obligations.UndefinedFramesMakeReceiverUnknown := by
  intro s hwf
  refine ⟨fun i hi h => frameRead_of_eq hwf ?_, fun f h => ?_⟩
  · cases i with
    | dataAuto | dataFixed | displayCtrl _ => exact congrArg _ (oneByteFrame_followed h _)
    | addr p => exact exec_addr_undefined h
    | segmentData pat => exact exec_segmentData_undefined h
    | configure _ _ | start | stop | writeBit _ | writeByte _ | writeCommand _ | initializeDisplay _ _
    | setBrightness _ | displayDigit _ _ | displayNumber _ | clearDisplay | reserved0 | reserved7 | reservedD
    | reservedE | reservedF => cases hi
  · rw [deliverFrame_undefined s h]
    exact ⟨rxOf_setRx (s := recordFrame s f) hwf Rx.top, keepsOtherReceivers_setRx (recordFrame s f) Rx.top, rfl⟩

/-- Settles O51: the receiver's steps over the frame end in its reading of the whole. -/
theorem receiverReadsWholeFrame : Obligations.ReceiverReadsWholeFrame := by
  intro s bytes hwf
  have htake : takeFrame 2 (openFrame s bytes) = .next (finishFrame s (readFrame bytes (rxOf s))) :=
    takeFrame_reads rfl rfl
  exact frameRead_of_eq hwf htake

end Sys2Proof.Proofs
end

section
/-! PROOFS. The frames a host builds itself, of whole bytes or of single bits (spec 42 R175, R177; 40 R113 to R122). -/

namespace Sys2Proof.Proofs

open Sys2Proof.Machine Sys2Proof.Laws

/-! ### Requests in order -/

theorem requests_cons_of {i : Instr} {is : List Instr} {s t : State} (h : request i s = .next t) :
    requests (i :: is) s = requests is t := by
  rw [requests, h, andThen_next]

theorem requests_append (is js : List Instr) (s : State) :
    requests (is ++ js) s = andThen (requests is s) (requests js) := by
  induction is generalizing s with
  | nil => rfl
  | cons i is ih =>
    rw [List.cons_append, requests, requests, andThen_assoc]
    exact congrArg (andThen (request i s)) (funext ih)

/-! ### A transaction in progress -/

/-- Between two requests of a transaction the host builds: the decoder holds the frame's `bytes`, and `bits` of its next
one (42 R175). -/
structure Building (bits : List Bit) (bytes : List Byte) (acked : Bool) (s : State) : Prop where
  calm : Machine.calm s
  bound : s.bound = true
  low : Low false .frame bits bytes acked s

theorem low_loadList {latch : Bit} {p : Phase} {bits : List Bit} {bytes : List Byte} {acked : Bool} {s : State}
    (h : Low latch p bits bytes acked s) (l : List PStep) : Low latch p bits bytes acked (loadList s l) :=
  ⟨h.lines, h.prev, h.phase, h.bits, h.bytes, h.acked⟩

theorem low_finishRequest {latch : Bit} {p : Phase} {bits : List Bit} {bytes : List Byte} {acked : Bool} {s : State}
    (h : Low latch p bits bytes acked s) : Low latch p bits bytes acked (finishRequest s) :=
  ⟨h.lines, h.prev, h.phase, h.bits, h.bytes, h.acked⟩

/-- A request of a bound engine whose list delivers no frame and ends inside one. -/
theorem request_builds {i : Instr} {l : List PStep} {tr : List TraceEntry} {bits : List Bit} {bytes : List Byte}
    {acked : Bool} {s u : State} (h : calm s) (hb : s.bound = true) (he : exec i s = .next (loadList s l))
    (hrun : runEntries l [] (loadList s l) = .next u) (hw : Wave l tr (loadList s l) u)
    (hl : Low false .frame bits bytes acked u) :
    request i s = .next (finishRequest u) ∧ Building bits bytes acked (finishRequest u) ∧
      (finishRequest u).delivered = s.delivered ∧ (finishRequest u).receivers = s.receivers :=
  ⟨request_of_runEntries he hrun,
    ⟨hw.list.calm (loadList_calm h l), hw.list.bound.trans hb, low_finishRequest hl⟩, hw.delivered, hw.receivers⟩

theorem start_builds {s : State} (h : calm s) (hb : s.bound = true) (hi : idleHigh s) :
    ∃ u, request .start s = .next u ∧ Building [] [] true u ∧ u.delivered = s.delivered := by
  obtain ⟨u, tr, hrun, hw, -, hl⟩ := startSeq_opens (loadList_calm h startSeq) (loadList_idleHigh hi _) []
  obtain ⟨hreq, hbuild, hdel, -⟩ := request_builds h hb (exec_start_bound hb) hrun hw hl
  exact ⟨_, hreq, hbuild, hdel⟩

/-- A byte written at a byte boundary is the frame's next, acknowledged or not (40 R120, 42 R175). -/
theorem writeByte_builds {bytes : List Byte} {acked : Bool} {s : State} (h : Building [] bytes acked s) (b : Byte) :
    ∃ u, request (.writeByte b) s = .next u ∧ Building [] (bytes ++ [b]) (acked && u.lastAck) u ∧
      u.delivered = s.delivered ∧ u.receivers = s.receivers := by
  have hc := loadList_calm h.calm (byteSeq b ++ [PStep.update .latchAck])
  obtain ⟨t, tr, r, hrun, hw, -, -, hr, -, -, hl⟩ :=
    byteSeq_wave hc (low_loadList h.low _) (fun _ => rfl) b [.update .latchAck]
  have hack : t.lastAck = !r := by rw [hw.list.lastAck, hr]; rfl
  have hlatched : Wave (byteSeq b ++ [PStep.update .latchAck]) tr (loadList s _)
      (advance (applyUpdate t .latchAck) []) :=
    ⟨latchAck_done hc hw.list, hw.delivered, hw.receivers⟩
  obtain ⟨hreq, hbuild, hdel, hrx⟩ := request_builds h.calm h.bound (exec_writeByte_bound h.bound b)
    (runEntries_latchAck hrun) hlatched ⟨hl.lines, hl.prev, hl.phase, hl.bits, hl.bytes, hl.acked⟩
  rw [addAnswer_frame, ← hack] at hbuild
  exact ⟨_, hreq, hbuild, hdel, hrx⟩

/-- Settles O37: nine pulses, of which the decoder makes a byte and its ACK slot. -/
theorem writeByteExtendsFrame : Obligations.WriteByteExtendsFrame := by
  intro s b h hb hbd
  obtain ⟨u, hreq, hbuild, hdel, hrx⟩ := writeByte_builds ⟨h, hb, low_of_atByteBoundary hbd⟩ b
  exact ⟨u, hreq, atByteBoundary_of_low hbuild.low, hbuild.low.bytes, hbuild.low.acked, hdel, hrx⟩

/-- A bit written inside a frame is committed as it is, but for the ninth of its byte, where the receiver may answer
(40 R118, 42 R175). -/
theorem writeBit_builds {bits : List Bit} {bytes : List Byte} {acked : Bool} {s : State}
    (h : Building bits bytes acked s) (v : Bit) :
    ∃ u r, request (.writeBit v) s = .next u ∧ (bits.length ≠ 8 → r = v) ∧
      Building (committed .frame bits bytes acked r).1 (committed .frame bits bytes acked r).2.1
        (committed .frame bits bytes acked r).2.2 u ∧ u.delivered = s.delivered := by
  have hc := loadList_calm h.calm (bitSeq v)
  have hl := low_loadList h.low (bitSeq v)
  have he := exec_writeBit_bound h.bound v
  cases v with
  | false =>
    obtain ⟨u, tr, hrun, hw, -, -, hl'⟩ := bitSeq_zero hc hl []
    obtain ⟨hreq, hbuild, hdel, -⟩ := request_builds h.calm h.bound he hrun hw hl'
    exact ⟨_, false, hreq, fun _ => rfl, hbuild, hdel⟩
  | true =>
    obtain ⟨u, tr, r, hrun, hw, -, -, hone, -, -, hl'⟩ := bitSeq_one hc hl []
    obtain ⟨hreq, hbuild, hdel, -⟩ := request_builds h.calm h.bound he hrun hw hl'
    exact ⟨_, r, hreq, fun hn => hone fun _ => hn, hbuild, hdel⟩

/-- The stop delivers the whole bytes, complete if no bit is left over (40 R115, 42 R175). -/
theorem stop_delivers {bits : List Bit} {bytes : List Byte} {acked : Bool} {s : State}
    (h : Building bits bytes acked s) :
    ∃ u, request .stop s = .next u ∧ idleHigh u ∧
      u.delivered = s.delivered ++ [{ bytes := bytes, complete := bits.isEmpty, acked := acked }] := by
  obtain ⟨u, tr, hrun, -, -, hidle, hdel, -⟩ :=
    stopSeq_closes (loadList_calm h.calm stopSeq) (low_loadList h.low stopSeq) []
  exact ⟨_, request_of_runEntries (exec_stop_bound h.bound) hrun, hidle, hdel⟩

/-- `START`, requests that build `bytes`, and `STOP`. -/
theorem hostBuilt_delivers {is : List Instr} {bytes : List Byte} {whole : Bool} {s : State} (h : calm s)
    (hb : s.bound = true) (hi : idleHigh s)
    (hbuild : ∀ t, Building [] [] true t → ∃ u bits acked, requests is t = .next u ∧ Building bits bytes acked u ∧
      bits.isEmpty = whole ∧ u.delivered = t.delivered) :
    ∃ u, requests (.start :: (is ++ [.stop])) s = .next u ∧ idleHigh u ∧
      u.delivered.map content = s.delivered.map content ++ [(bytes, whole)] := by
  obtain ⟨s1, hstart, hopen, hdel1⟩ := start_builds h hb hi
  obtain ⟨s2, bits, acked, hmid, hend, rfl, hdel2⟩ := hbuild s1 hopen
  obtain ⟨s3, hstop, hidle, hdel3⟩ := stop_delivers hend
  refine ⟨s3, ?_, hidle, ?_⟩
  · rw [requests_cons_of hstart, requests_append, hmid, andThen_next, requests_cons_of hstop]
    rfl
  · rw [hdel3, hdel2, hdel1, List.map_append]
    rfl

/-! ### Whole bytes -/

theorem writeBytes_build (bs : List Byte) {bytes : List Byte} {acked : Bool} {s : State}
    (h : Building [] bytes acked s) :
    ∃ u acked', requests (bs.map .writeByte) s = .next u ∧ Building [] (bytes ++ bs) acked' u ∧
      u.delivered = s.delivered := by
  induction bs generalizing bytes acked s with
  | nil => exact ⟨s, acked, rfl, by rwa [List.append_nil], rfl⟩
  | cons b bs ih =>
    obtain ⟨t, hreq, ht, hdel, -⟩ := writeByte_builds h b
    obtain ⟨u, acked', hreqs, hu, hdel'⟩ := ih ht
    rw [List.append_assoc] at hu
    exact ⟨u, acked', by rw [List.map_cons, requests_cons_of hreq, hreqs], hu, hdel'.trans hdel⟩

/-- Settles O53: every byte is the frame's next, and the stop finds a byte boundary. -/
theorem hostBuiltFrameDeliversItsBytes : Obligations.HostBuiltFrameDeliversItsBytes := by
  intro s bs h hb hi
  refine hostBuilt_delivers h hb hi fun t ht => ?_
  obtain ⟨u, acked, hreqs, hu, hdel⟩ := writeBytes_build bs ht
  exact ⟨u, [], acked, hreqs, hu, rfl, hdel⟩

/-! ### Single bits -/

/-- Fewer than nine bits are no group. -/
theorem groupBytes_short {bits : List Bit} (h : bits.length ≤ 8) : groupBytes bits = [] := by
  unfold groupBytes
  split
  · simp only [List.length_cons] at h
    omega
  · rfl

/-- Eight bits and a ninth are a byte; the ninth is its ACK slot (42 R175). -/
theorem groupBytes_cons {bits : List Bit} (h : bits.length = 8) (v : Bit) (vs : List Bit) :
    groupBytes (bits ++ v :: vs) = byteOfBits bits :: groupBytes vs := by
  match bits, h with
  | [_, _, _, _, _, _, _, _], _ => rfl

theorem writeBits_build (vs : List Bit) {bits : List Bit} {bytes : List Byte} {acked : Bool} {s : State}
    (h8 : bits.length ≤ 8) (h : Building bits bytes acked s) :
    ∃ u bits' acked', requests (vs.map .writeBit) s = .next u ∧
      Building bits' (bytes ++ groupBytes (bits ++ vs)) acked' u ∧
      bits'.length = (bits.length + vs.length) % 9 ∧ u.delivered = s.delivered := by
  induction vs generalizing bits bytes acked s with
  | nil =>
    rw [List.append_nil, groupBytes_short h8, List.append_nil]
    exact ⟨s, bits, acked, rfl, h, (Nat.mod_eq_of_lt (Nat.lt_succ_of_le h8)).symm, rfl⟩
  | cons v vs ih =>
    obtain ⟨t, r, hreq, hr, ht, hdel⟩ := writeBit_builds h v
    by_cases hfull : bits.length = 8
    · simp only [committed, hfull, Nat.lt_irrefl, if_false] at ht
      obtain ⟨u, bits', acked', hreqs, hu, hlen, hdel'⟩ := ih (bits := []) (Nat.zero_le 8) ht
      refine ⟨u, bits', acked', by rw [List.map_cons, requests_cons_of hreq, hreqs], ?_, ?_, hdel'.trans hdel⟩
      · rw [groupBytes_cons hfull]
        simpa using hu
      · rw [hlen, hfull, List.length_cons, List.length_nil]
        omega
    · have hlt : bits.length < 8 := by omega
      obtain rfl := hr hfull
      simp only [committed, hlt, if_true] at ht
      obtain ⟨u, bits', acked', hreqs, hu, hlen, hdel'⟩ := ih (by rw [List.length_append]; exact hlt) ht
      rw [List.append_assoc] at hu
      refine ⟨u, bits', acked', by rw [List.map_cons, requests_cons_of hreq, hreqs], hu, ?_, hdel'.trans hdel⟩
      rw [hlen, List.length_append, List.length_singleton, List.length_cons, Nat.add_assoc, Nat.add_comm 1]

/-- Settles O54: nine bits make a byte, whatever the ninth, and the stop counts what is left over. -/
theorem hostBuiltBitsDeliverWholeBytes : Obligations.HostBuiltBitsDeliverWholeBytes := by
  intro s vs h hb hi
  refine hostBuilt_delivers h hb hi fun t ht => ?_
  obtain ⟨u, bits, acked, hreqs, hu, hlen, hdel⟩ := writeBits_build vs (bits := []) (Nat.zero_le 8) ht
  refine ⟨u, bits, acked, hreqs, hu, ?_, hdel⟩
  rw [List.length_nil, Nat.zero_add] at hlen
  rw [← hlen]
  cases bits <;> rfl

end Sys2Proof.Proofs
end

section
/-! PROOFS. The frames each request puts on the wire, and what the reference receiver makes of them (spec 42 R177, R181 to
R187; 41 R139 to R153). -/

namespace Sys2Proof.Proofs

open Sys2Proof.Machine Sys2Proof.Laws

/-! ### Frames in a row -/

/-- The reference receiver's reading of frames in order (42 R182 to R186). -/
def readFrames (fs : List (List Byte)) (r : Rx) : Rx := fs.foldl (fun r bytes => readFrame bytes r) r

theorem readFrames_append (fs gs : List (List Byte)) (r : Rx) :
    readFrames (fs ++ gs) r = readFrames gs (readFrames fs r) := List.foldl_append

/-- A run from idle-high to idle-high that delivers these frames, each complete. The reference receiver acknowledges every
byte of them, and reads them in order. -/
structure FramesDone (l : List PStep) (fs : List (List Byte)) (s u : State) : Prop where
  list : ∃ tr, ListDone l tr s u
  idle : idleHigh u
  delivered : u.delivered.map content = s.delivered.map content ++ fs.map fun bytes => (bytes, true)
  shown : s.receiver = .reference → receiversWf s.receivers = true →
    receiversWf u.receivers = true ∧ rxOf u = readFrames fs (rxOf s) ∧ u.lastAck = true ∧ u.reqNack = s.reqNack

/-- Wherever the list runs from idle-high, it sends these frames. -/
def Sends (l : List PStep) (fs : List (List Byte)) : Prop :=
  ∀ (s : State) (rest : List PStep), calm s → idleHigh s → ∃ u, runEntries l rest s = .next u ∧ FramesDone l fs s u

theorem FramesDone.anyReject {l : List PStep} {fs : List (List Byte)} {s u : State} (h : FramesDone l fs s u) :
    Machine.anyReject u = Machine.anyReject s := by
  obtain ⟨tr, hd⟩ := h.list
  simp only [Machine.anyReject, hd.rejected, hd.illegal, hd.unbound]

/-- Samples that all read 0 leave LAST_ACK at 1 (40 R121). -/
theorem ackAfter_of_zeros {rs : List Bit} (hne : rs ≠ []) (h : ∀ r ∈ rs, r = false) (old : Bool) :
    ackAfter rs old = true := by
  have hlast := h _ (List.getLast_mem hne)
  rw [ackAfter, List.getLast?_eq_some_getLast hne, hlast]
  rfl

/-- One frame, of one byte or more. -/
theorem FramesDone.of_frameDone {l : List PStep} {tr : List TraceEntry} {bytes : List Byte} {rs : List Bit}
    {s u : State} (h : FrameDone l tr bytes rs s u) (hbytes : bytes ≠ []) (hrs : rs ≠ []) :
    FramesDone l [bytes] s u where
  list := ⟨tr, h.list⟩
  idle := h.idle
  delivered := by
    rw [h.delivered, List.map_append]
    rfl
  shown hrcv hwf := by
    have hzero := h.reference hrcv
    have hacked : rs.any id = false := List.any_eq_false.2 fun r hr => by simp [hzero r hr]
    have hread : reading { bytes := bytes, complete := true, acked := !rs.any id } (rxOf s) =
        readFrame bytes (rxOf s) := by simp [reading, hacked, hbytes]
    have hrx := h.receivers
    rw [hread] at hrx
    refine ⟨hrx ▸ receiversWf_storeRx hwf _ _, ?_, ?_, ?_⟩
    · rw [rxOf, h.list.boundPair, hrx, lookupRx_storeRx_self hwf]
      rfl
    · rw [h.list.lastAck, h.samples, ackAfter_of_zeros hrs hzero]
    · rw [h.list.reqNack, h.samples, hacked, Bool.or_false]

theorem sends_cmdFrame (b : Byte) : Sends (cmdFrame b) [[b]] := by
  intro s rest h hi
  obtain ⟨u, tr, r, hrun, hd⟩ := cmdFrame_done h hi b rest
  exact ⟨u, hrun, .of_frameDone hd (List.cons_ne_nil _ _) (List.cons_ne_nil _ _)⟩

theorem sends_addrFrame (p : BitVec 2) (pat : Byte) : Sends (addrFrame p pat) [[addrByte p, pat]] := by
  intro s rest h hi
  obtain ⟨u, tr, r1, r2, hrun, hd⟩ := addrFrame_done h hi p pat rest
  exact ⟨u, hrun, .of_frameDone hd (List.cons_ne_nil _ _) (List.cons_ne_nil _ _)⟩

theorem Sends.append {l1 l2 : List PStep} {fs gs : List (List Byte)} (h1 : Sends l1 fs) (h2 : Sends l2 gs) :
    Sends (l1 ++ l2) (fs ++ gs) := by
  intro s rest h hi
  obtain ⟨t, hrun1, hd1⟩ := h1 s (l2 ++ rest) h hi
  obtain ⟨tr1, hl1⟩ := hd1.list
  obtain ⟨u, hrun2, hd2⟩ := h2 t rest (hl1.calm h) hd1.idle
  obtain ⟨tr2, hl2⟩ := hd2.list
  refine ⟨u, runEntries_append_of hrun1 hrun2,
    { list := ⟨tr1 ++ tr2, hl1.append hl2⟩, idle := hd2.idle, delivered := ?_, shown := fun hrcv hwf => ?_ }⟩
  · rw [hd2.delivered, hd1.delivered, List.append_assoc, List.map_append]
  · obtain ⟨hwf1, hrx1, -, hnack1⟩ := hd1.shown hrcv hwf
    obtain ⟨hwf2, hrx2, hack2, hnack2⟩ := hd2.shown (hl1.receiver.trans hrcv) hwf1
    exact ⟨hwf2, by rw [hrx2, hrx1, readFrames_append], hack2, hnack2.trans hnack1⟩

/-- The frames that write four patterns (41 R150, R153). -/
def digitFrames (p0 p1 p2 p3 : Byte) : List (List Byte) :=
  [[dataFixedByte], [addrByte 0#2, p0], [addrByte 1#2, p1], [addrByte 2#2, p2], [addrByte 3#2, p3]]

theorem sends_fourDigitFrames (p0 p1 p2 p3 : Byte) :
    Sends (fourDigitFrames p0 p1 p2 p3) (digitFrames p0 p1 p2 p3) :=
  ((((sends_cmdFrame _).append (sends_addrFrame _ p0)).append (sends_addrFrame _ p1)).append
    (sends_addrFrame _ p2)).append (sends_addrFrame _ p3)

theorem sends_initializeFrames : Sends initializeFrames (wireFrames (.initializeDisplay 0 0)) :=
  (sends_fourDigitFrames 0#8 0#8 0#8 0#8).append (sends_cmdFrame _)

/-- An accepted request is its list and `finish`. `s'` is `s`, or `s` with the digit registers written. -/
theorem request_of_loadList {i : Instr} {l : List PStep} {s s' u : State} (he : exec i s = .next (loadList s' l))
    (hrun : runEntries l [] (loadList s' l) = .next u) : request i s = .next (finishRequest u) := by
  rw [request, he, andThen_next, runList_eq, loadList_prog, hrun, andThen_next]

/-- A request accepted at idle-high with such a list. -/
theorem Sends.request {i : Instr} {l : List PStep} {fs : List (List Byte)} {s s' : State} (hl : Sends l fs)
    (h : calm s') (hi : idleHigh s') (he : exec i s = .next (loadList s' l)) :
    ∃ u, request i s = .next (finishRequest u) ∧ FramesDone l fs (loadList s' l) u := by
  obtain ⟨u, hrun, hd⟩ := hl (loadList s' l) [] (loadList_calm h l) (loadList_idleHigh hi l)
  exact ⟨u, request_of_loadList he hrun, hd⟩

/-! ### Rejected requests -/

theorem lineIdsValid_outOfRange {c d : Nat} (h : outOfRange (.configure c d)) : lineIdsValid c d = false := by
  rw [Bool.eq_false_iff, Ne, lineIdsValid_iff]
  simp only [outOfRange] at h
  omega

theorem digitValid_outOfRange {p d : Int} (h : outOfRange (.displayDigit p d)) : digitValid p d = false := by
  simp only [outOfRange] at h
  rw [Bool.eq_false_iff, Ne]
  simp only [digitValid, Bool.and_eq_true, decide_eq_true_eq]
  unfold Config.numPositions
  omega

theorem numberValid_outOfRange {v : Int} (h : outOfRange (.displayNumber v)) : numberValid v = false := by
  simp only [outOfRange] at h
  rw [Bool.eq_false_iff, Ne]
  simp only [numberValid, Bool.and_eq_true, decide_eq_true_eq]
  unfold Config.valueMax
  omega

theorem exec_outOfRange {i : Instr} {s : State} (h : outOfRange i) (hb : needsBinding i = true → s.bound = true) :
    exec i s = .next (reject s .range) := by
  cases i with
  | configure c d => simp [exec, execConfigure, configureBody, lineIdsValid_outOfRange h, acceptRequest]
  | initializeDisplay c d =>
    simp [exec, execInitialize, initializeBody, configureBody, lineIdsValid_outOfRange h, acceptRequest]
  | displayDigit p d =>
    simp [exec, execDisplayDigit, ifBound, hb rfl, digitBody, digitValid_outOfRange h, acceptRequest]
  | displayNumber v =>
    simp only [exec, execDisplayNumber, ifBound, hb rfl, numberBody, numberValid_outOfRange h]
    rfl
  | start | stop | writeBit _ | writeByte _ | writeCommand _ | setBrightness _ | clearDisplay | reserved0 | reserved7
  | reservedD | reservedE | reservedF | dataAuto | dataFixed | addr _ | displayCtrl _ | segmentData _ => exact h.elim

theorem exec_unbound {i : Instr} {s : State} (hi : needsBinding i = true) (hb : s.bound = false) :
    exec i s = .next (reject s .unbound) := by
  cases i with
  | start => simp [exec, execStart, ifBound, hb, acceptRequest]
  | stop => simp [exec, execStop, ifBound, hb, acceptRequest]
  | writeBit v => simp [exec, execWriteBit, ifBound, hb, acceptRequest]
  | writeByte b => simp [exec, execWriteByte, ifBound, hb, acceptRequest]
  | writeCommand b => simp [exec, execWriteCommand, ifBound, hb, acceptRequest]
  | setBrightness l => simp [exec, execSetBrightness, ifBound, hb, acceptRequest]
  | displayDigit p d => simp [exec, execDisplayDigit, ifBound, hb, acceptRequest]
  | displayNumber v =>
    simp only [exec, execDisplayNumber, ifBound, hb]
    rfl
  | clearDisplay => simp [exec, execClearDisplay, ifBound, hb, acceptRequest]
  | configure _ _ | initializeDisplay _ _ | reserved0 | reserved7 | reservedD | reservedE | reservedF | dataAuto
  | dataFixed | addr _ | displayCtrl _ | segmentData _ => cases hi

theorem exec_reserved {i : Instr} (h : isReserved i = true) (s : State) : exec i s = .next (reject s .illegal) := by
  cases i <;> simp only [isReserved, Bool.false_eq_true] at h <;> rfl

/-- The first reason that applies turns the request down (60 R200, R205). -/
theorem exec_rejectedFor {i : Instr} {s : State} {r : Reject} (h : rejectedFor i s r) :
    exec i s = .next (reject s r) := by
  cases r with
  | range =>
    obtain ⟨hrange, hb⟩ := h
    exact exec_outOfRange hrange hb
  | illegal => exact exec_reserved h s
  | unbound =>
    obtain ⟨hi, hb⟩ := h
    exact exec_unbound hi hb

theorem request_rejected {i : Instr} {s : State} {r : Reject} (h : exec i s = .next (reject s r)) :
    request i s = .next (finishRequest (reject s r)) := by
  rw [request, h, andThen_next]
  cases r <;> rfl

/-! ### What a request delivers -/

/-- The request runs to its `done` and delivers these frames, each complete; a rejected one none (42 R177). -/
def Delivers (i : Instr) (s : State) (fs : List (List Byte)) : Prop :=
  ∃ u, request i s = .next u ∧ u.delivered.map content =
    s.delivered.map content ++ (if anyReject u then [] else fs.map fun bytes => (bytes, true))

theorem delivers_of_rejected {i : Instr} {s : State} {r : Reject} (h : exec i s = .next (reject s r))
    (fs : List (List Byte)) : Delivers i s fs := by
  refine ⟨_, request_rejected h, ?_⟩
  have hrej : anyReject (finishRequest (reject s r)) = true := by cases r <;> rfl
  rw [hrej, finishRequest_delivered, reject_delivered]
  exact (List.append_nil _).symm

theorem delivers_of_done {i : Instr} {s u : State} {fs : List (List Byte)} (hreq : request i s = .next u)
    (hr : anyReject u = false)
    (hd : u.delivered.map content = s.delivered.map content ++ fs.map fun bytes => (bytes, true)) :
    Delivers i s fs := ⟨u, hreq, by rw [hd, hr]; rfl⟩

theorem Sends.delivers {i : Instr} {l : List PStep} {fs : List (List Byte)} {s s' : State} (hl : Sends l fs)
    (h : calm s') (hi : idleHigh s') (he : exec i s = .next (loadList s' l)) (hs : s'.delivered = s.delivered) :
    Delivers i s fs := by
  obtain ⟨u, hreq, hd⟩ := hl.request h hi he
  exact delivers_of_done hreq hd.anyReject (hs ▸ hd.delivered)

/-- The list of `CONFIGURE` run at idle-high, with a `Bind` or without, delivers nothing and ends idle-high (40 R110,
R111). -/
theorem configureBody_quiet {s t : State} {c d : Nat} {l : List PStep} (hr : ¬ outOfRange (.configure c d))
    (hbody : configureBody s c d = .ok l) (ha : Accepted s t) (h : calm t) (hi : idleHigh t) (rest : List PStep) :
    ∃ u, runEntries l rest t = .next u ∧ calm u ∧ idleHigh u ∧ u.delivered = t.delivered ∧ anyReject u = false := by
  have flags : ∀ {l' : List PStep} {tr : List TraceEntry} {t' u : State}, Accepted s t' → ListDone l' tr t' u →
      anyReject u = false := fun ha' hd => by
    simp only [anyReject, hd.rejected, hd.illegal, hd.unbound, ha'.rejected, ha'.illegal, ha'.unbound]
    rfl
  by_cases hsame : s.bound = true ∧ c = s.clkSel.toNat ∧ d = s.dioSel.toNat
  · obtain ⟨hb, rfl, rfl⟩ := hsame
    obtain rfl : redriveSeq = l := by simpa [configureBody_same hr hb] using hbody
    have hready := ready_of_idleHigh h hi
    obtain ⟨u, _, hrun, hd, -⟩ := redriveSeq_events h rest
    obtain ⟨u₁, hrun₁, -, hidle⟩ := runEntries_closes rest hready closes_redriveSeq
    obtain rfl := next_unique hrun₁ hrun
    obtain ⟨-, -, hphase⟩ := hi
    obtain ⟨u₂, hrun₂, hdel, -⟩ := redriveSeq_outside h hphase (.inr hready.driven) rest
    obtain rfl := next_unique hrun₂ hrun
    exact ⟨u₂, hrun, hd.calm h, hidle, hdel, flags ha hd⟩
  · obtain rfl : (PStep.bind _ _ :: redriveSeq) = l := by simpa [configureBody_bind hr hsame] using hbody
    obtain ⟨u, _, hrun, -, hcalm, hd, hidle, -, hdel⟩ :=
      bindSeq_events h (BitVec.ofNat 32 c) (BitVec.ofNat 32 d) rest
    exact ⟨u, hrun, hd.calm hcalm, hidle, hdel, flags (ha.bind _ _ _) hd⟩

theorem configure_delivers {s : State} {c d : Nat} (h : calm s) (hi : idleHigh s)
    (hr : ¬ outOfRange (.configure c d)) : Delivers (.configure c d) s [] := by
  obtain ⟨l, hbody, -⟩ := configureBody_inRange (s := s) hr
  obtain ⟨u, hrun, -, -, hdel, hrej⟩ := configureBody_quiet hr hbody (accepted_loadList s _) (loadList_calm h _)
    (loadList_idleHigh hi _) []
  refine delivers_of_done (request_of_runEntries (exec_configure_ok hbody) hrun) hrej ?_
  rw [finishRequest_delivered, hdel]
  exact (List.append_nil _).symm

theorem initializeDisplay_delivers {s : State} {c d : Nat} (h : calm s) (hi : idleHigh s)
    (hr : ¬ outOfRange (.configure c d)) :
    Delivers (.initializeDisplay c d) s (wireFrames (.initializeDisplay c d)) := by
  obtain ⟨l, hbody, -⟩ := configureBody_inRange (s := s) hr
  obtain ⟨t, hrun, hcalm, hidle, hdel, hrej⟩ := configureBody_quiet hr hbody (accepted_loadList s _)
    (loadList_calm h _) (loadList_idleHigh hi _) (initializeFrames ++ [])
  obtain ⟨u, hrun', hd⟩ := sends_initializeFrames t [] hcalm hidle
  refine delivers_of_done
    (request_of_runEntries (exec_initializeDisplay_ok hbody) (runEntries_append_of hrun hrun'))
    (hd.anyReject.trans hrej) ?_
  rw [finishRequest_delivered, hd.delivered, hdel]
  rfl

theorem stop_delivers_nothing {s : State} (h : calm s) (hb : s.bound = true) (hi : idleHigh s) :
    Delivers .stop s [] := by
  have hready := ready_of_idleHigh h hi
  obtain ⟨-, -, hphase⟩ := hi
  obtain ⟨-, u, _, hreq, hframe, -, -, -, -, -, -, -, hquiet⟩ := stopCompletes s h hb
  obtain ⟨⟨-, -, -, hrange, hillegal, hunbound⟩, -⟩ := hframe
  obtain ⟨hdel, -⟩ := hquiet hready.driven (by simp [inTxn, hphase])
  refine delivers_of_done hreq (by simp [anyReject, hrange, hillegal, hunbound]) ?_
  rw [hdel]
  exact (List.append_nil _).symm

/-- A position in range makes the same address byte in two bits and in eight (30 R81). -/
theorem addrByte_ofInt {p : Int} (h0 : 0 ≤ p) (h3 : p ≤ 3) :
    addrByte (BitVec.ofInt 2 p) = 0xC0#8 + BitVec.ofInt 8 p := by
  obtain rfl | rfl | rfl | rfl : p = 0 ∨ p = 1 ∨ p = 2 ∨ p = 3 := by omega
  all_goals rfl

/-- Settles O52: a rejected request has no list; every other runs the list that sends its frames. -/
theorem eachRequestPutsItsFramesOnTheWire : Obligations.EachRequestPutsItsFramesOnTheWire := by
  intro i s h hi _ hreq hstart hbit hbyte
  change Delivers i s (wireFrames i)
  by_cases hrej : ∃ r, rejectedFor i s r
  · obtain ⟨r, hr⟩ := hrej
    exact delivers_of_rejected (exec_rejectedFor hr) _
  obtain ⟨hrange, hbound⟩ := accepts_of_notRejected (not_exists.1 hrej)
  cases i with
  | configure c d => exact configure_delivers h hi hrange
  | initializeDisplay c d => exact initializeDisplay_delivers h hi hrange
  | stop => exact stop_delivers_nothing h (hbound rfl) hi
  | writeCommand b => exact (sends_cmdFrame b).delivers h hi (exec_writeCommand_bound (hbound rfl) b) rfl
  | setBrightness l => exact (sends_cmdFrame _).delivers h hi (exec_setBrightness_bound (hbound rfl) l) rfl
  | displayDigit p d =>
    have hsends := ((sends_cmdFrame _).append (sends_addrFrame _ _)).delivers h hi
      (exec_displayDigit_bound (hbound rfl) hrange) rfl
    simp only [outOfRange] at hrange
    rwa [addrByte_ofInt (by omega) (by omega)] at hsends
  | displayNumber v =>
    exact (sends_fourDigitFrames _ _ _ _).delivers (s' := setDigits s (digitsOf v)) h hi
      (exec_displayNumber_bound (hbound rfl) hrange) rfl
  | clearDisplay => exact (sends_fourDigitFrames _ _ _ _).delivers h hi (exec_clearDisplay_bound (hbound rfl)) rfl
  | start => exact absurd rfl hstart
  | writeBit v => exact absurd rfl (hbit v)
  | writeByte b => exact absurd rfl (hbyte b)
  | reserved0 | reserved7 | reservedD | reservedE | reservedF => exact absurd ⟨.illegal, rfl⟩ hrej
  | dataAuto | dataFixed | addr _ | displayCtrl _ | segmentData _ => cases hreq

/-! ### What the display shows -/

theorem readFrame_dataFixed (r : Rx) : readFrame [dataFixedByte] r = { r with mode := some .fixed } := rfl

theorem ctrlByte_fields (l : BitVec 3) :
    ctrlByte l ≠ 0x40#8 ∧ ctrlByte l ≠ 0x44#8 ∧ ctrlByte l &&& 0xF8#8 = 0x88#8 ∧ (ctrlByte l).extractLsb' 0 3 = l := by
  revert l
  decide

theorem readFrame_ctrlByte (l : BitVec 3) (r : Rx) :
    readFrame [ctrlByte l] r = { r with ctrl := some { on := true, level := l } } := by
  obtain ⟨hauto, hfixed, hmask, hlevel⟩ := ctrlByte_fields l
  simp only [readFrame, hauto, hfixed, hmask, hlevel, if_true, if_false]

theorem addrByte_fields (p : BitVec 2) : addrByte p &&& 0xFC#8 = 0xC0#8 ∧ (addrByte p).extractLsb' 0 2 = p := by
  revert p
  decide

theorem readFrame_addrByte {r : Rx} (h : r.mode = some .fixed) (p : BitVec 2) (pat : Byte) :
    readFrame [addrByte p, pat] r = setDisp r p pat := by
  obtain ⟨hmask, hpos⟩ := addrByte_fields p
  simp only [readFrame, hmask, h, hpos, and_self, if_true]

/-- Four addressed patterns leave nothing of the display as it was (41 R150, R153). -/
theorem readFrames_digitFrames (p0 p1 p2 p3 : Byte) (r : Rx) :
    readFrames (digitFrames p0 p1 p2 p3) r =
      { mode := some .fixed, disp0 := some p0, disp1 := some p1, disp2 := some p2, disp3 := some p3
        ctrl := r.ctrl } := by
  simp only [readFrames, digitFrames, List.foldl_cons, List.foldl_nil, readFrame_dataFixed]
  rw [readFrame_addrByte rfl, readFrame_addrByte rfl, readFrame_addrByte rfl, readFrame_addrByte rfl]
  rfl

/-- The reference receiver acknowledges the frames and reads them (42 R181 to R184). -/
theorem Sends.shows {i : Instr} {l : List PStep} {fs : List (List Byte)} {s s' : State} (hl : Sends l fs)
    (h : calm s') (hi : idleHigh s') (he : exec i s = .next (loadList s' l)) (hrcv : s'.receiver = .reference)
    (hwf : receiversWf s'.receivers = true) :
    ∃ u, Machine.request i s = .next u ∧ u.lastAck = true ∧ u.nack = false ∧ rxOf u = readFrames fs (rxOf s') := by
  obtain ⟨u, hreq, hd⟩ := hl.request h hi he
  obtain ⟨-, hrx, hack, hnack⟩ := hd.shown hrcv hwf
  exact ⟨_, hreq, hack, hnack, hrx⟩

/-- Settles O55: each list sends frames that the receiver defines, in fixed mode from the first on. -/
theorem displayShowsWhatWasAsked : Obligations.DisplayShowsWhatWasAsked := by
  intro s hin hrcv hb hi hwf
  have h : calm s := ⟨hin, by simp [hrcv]⟩
  refine ⟨fun l => ?_, fun p d hp0 hp3 hd0 hd9 => ?_, fun v h0 h9 => ?_, ?_⟩
  · have hshows := (sends_cmdFrame _).shows h hi (exec_setBrightness_bound hb l) hrcv hwf
    rwa [readFrames, List.foldl_cons, List.foldl_nil, readFrame_ctrlByte] at hshows
  · have hshows := ((sends_cmdFrame _).append (sends_addrFrame _ _)).shows h hi
      (exec_displayDigit_bound hb (p := p) (d := d) (by simp only [outOfRange]; omega)) hrcv hwf
    rw [readFrames_append] at hshows
    simp only [readFrames, List.foldl_cons, List.foldl_nil, readFrame_dataFixed] at hshows
    rwa [readFrame_addrByte rfl] at hshows
  · have hshows := (sends_fourDigitFrames _ _ _ _).shows (s' := setDigits s (digitsOf v)) h hi
      (exec_displayNumber_bound hb (by simp only [outOfRange]; omega)) hrcv hwf
    rwa [readFrames_digitFrames] at hshows
  · have hshows := (sends_fourDigitFrames _ _ _ _).shows h hi (exec_clearDisplay_bound hb) hrcv hwf
    rwa [readFrames_digitFrames] at hshows

end Sys2Proof.Proofs
end

section
/-! PROOFS. With no receiver on the bus no byte is acknowledged (spec 42 R181, 40 R122). -/

namespace Sys2Proof.Proofs

open Sys2Proof.Machine Sys2Proof.Laws

/-! ### Samples that nothing answers -/

/-- Wherever the list runs with no receiver, each of its samples reads 1. -/
def Unanswered (l : List PStep) : Prop :=
  ∀ (s : State) (rest : List PStep), calm s → s.receiver = .absent →
    ∃ u tr, runEntries l rest s = .next u ∧ ListDone l tr s u ∧ ∀ r ∈ samplesOf tr, r = true

theorem Unanswered.append {l1 l2 : List PStep} (h1 : Unanswered l1) (h2 : Unanswered l2) : Unanswered (l1 ++ l2) := by
  intro s rest h habs
  obtain ⟨t, tr1, hrun1, hd1, hone1⟩ := h1 s (l2 ++ rest) h habs
  obtain ⟨u, tr2, hrun2, hd2, hone2⟩ := h2 t rest (hd1.calm h) (hd1.receiver.trans habs)
  refine ⟨u, tr1 ++ tr2, runEntries_append_of hrun1 hrun2, hd1.append hd2, fun r hr => ?_⟩
  rw [samplesOf_append, List.mem_append] at hr
  exact hr.elim (hone1 r) (hone2 r)

theorem unanswered_of_noSamples {l : List PStep} (hb : noBind l = true) (hk : countSamples l = 0) : Unanswered l := by
  intro s rest h _
  obtain ⟨u, tr, hrun, hd⟩ := runEntries_done l rest h hb
  have hnone : samplesOf tr = [] := List.length_eq_zero_iff.1 (hd.samples.trans hk)
  exact ⟨u, tr, hrun, hd, by simp [hnone]⟩

/-- The sample of ACK_SEQ finds DIO released (40 R106). -/
theorem unanswered_ackSeq : Unanswered ackSeq := by
  intro s rest h habs
  obtain ⟨t, tr1, hrun1, hd1⟩ := runEntries_done [.act .dioRelease, .act (.clkSet false), .act (.clkSet true)]
    ([.sample, .act (.clkSet false), .act .dioRestore] ++ rest) h rfl
  have hc1 := hd1.calm h
  generalize hq : ([.act (.clkSet false), .act .dioRestore] ++ rest : List PStep) = q
  have hone : sampleLevel q t = true := by
    have hreleased : t.lines.dioOe = false := by rw [hd1.lines]; rfl
    rw [sampleLevel, hreleased]
    exact (releasedLevel_known t q).1 (hd1.receiver.trans habs)
  have hd2 := sample_listDone hc1 q
  have hrun2 : wholeEntry .sample q t = _ := sampleStep_calm hc1.2 q
  rw [hone] at hd2 hrun2
  obtain ⟨u, tr3, hrun3, hd3⟩ := runEntries_done [.act (.clkSet false), .act .dioRestore] rest (hd2.calm hc1) rfl
  have hnone1 : samplesOf tr1 = [] := List.length_eq_zero_iff.1 hd1.samples
  have hnone3 : samplesOf tr3 = [] := List.length_eq_zero_iff.1 hd3.samples
  subst hq
  exact ⟨u, tr1 ++ ([TraceEntry.s true] ++ tr3), runEntries_append_of hrun1 (by rw [runEntries_cons hrun2, hrun3]),
    hd1.append (hd2.append hd3), by simp [samplesOf, hnone1, hnone3]⟩

theorem unanswered_byteSeq (b : Byte) : Unanswered (byteSeq b) := by
  have hb := noBind_byteSeq b
  obtain ⟨-, hk, -⟩ := counts_dataBits (bitsOf b)
  rw [byteSeq_eq] at hb ⊢
  simp only [noBind_append, Bool.and_eq_true] at hb
  exact (unanswered_of_noSamples rfl rfl).append ((unanswered_of_noSamples hb.2.1 hk).append unanswered_ackSeq)

theorem unanswered_startSeq : Unanswered startSeq := unanswered_of_noSamples rfl rfl

theorem unanswered_stopSeq : Unanswered stopSeq := unanswered_of_noSamples rfl rfl

theorem unanswered_cmdFrame (b : Byte) : Unanswered (cmdFrame b) :=
  (unanswered_startSeq.append (unanswered_byteSeq b)).append unanswered_stopSeq

theorem unanswered_addrFrame (p : BitVec 2) (pat : Byte) : Unanswered (addrFrame p pat) :=
  ((unanswered_startSeq.append (unanswered_byteSeq _)).append (unanswered_byteSeq pat)).append unanswered_stopSeq

theorem unanswered_fourDigitFrames (p0 p1 p2 p3 : Byte) : Unanswered (fourDigitFrames p0 p1 p2 p3) :=
  ((((unanswered_cmdFrame _).append (unanswered_addrFrame _ p0)).append (unanswered_addrFrame _ p1)).append
    (unanswered_addrFrame _ p2)).append (unanswered_addrFrame _ p3)

theorem unanswered_redriveFrames : Unanswered (redriveSeq ++ initializeFrames) :=
  (unanswered_of_noSamples (l := redriveSeq) rfl rfl).append
    ((unanswered_fourDigitFrames _ _ _ _).append (unanswered_cmdFrame _))

/-! ### Requests that nothing answers -/

/-- The request is done and not one of its bytes was acknowledged (40 R122). -/
def NotAcknowledged (s u : State) : Prop :=
  completed u ∧ u.ackO = s.ackO ∧ u.lastAck = false ∧ u.nack = true

/-- A list that ends in STOP_SEQ and has a sample, run from the acceptance or from the `Bind` after it. -/
theorem EndsInStop.notAcknowledged {l : List PStep} {n k e : Nat} {s t : State} (hl : EndsInStop l)
    (hn : Counts l n k e) (hk : k ≠ 0) (hu : Unanswered l) (ha : Accepted s t) (hc : calm t)
    (habs : t.receiver = .absent) :
    ∃ u, runEntries l [] t = .next u ∧ NotAcknowledged s (finishRequest u) := by
  obtain ⟨u, tr, hrun, hd⟩ := hl.done hn hk ha hc
  obtain ⟨u', tr', hrun', hd', hone⟩ := hu t [] hc habs
  obtain rfl := next_unique hrun' hrun
  obtain rfl : tr' = tr := List.append_cancel_left (hd'.trace.symm.trans hd.trace)
  have hlast := List.mem_of_getLast? hd.last
  exact ⟨u', hrun, hd.completed, hd.ackO, by simpa using hone _ hlast,
    hd.nack.trans (List.any_eq_true.2 ⟨_, hlast, hone _ hlast⟩)⟩

/-- A request accepted with such a list. -/
theorem EndsInStop.request_notAcknowledged {i : Instr} {l : List PStep} {n k e : Nat} {s s' : State}
    (hl : EndsInStop l) (hn : Counts l n k e) (hk : k ≠ 0) (hu : Unanswered l) (hc : calm s')
    (habs : s'.receiver = .absent) (he : exec i s = .next (loadList s' l)) :
    ∃ u, Machine.request i s = .next u ∧ NotAcknowledged s' u := by
  obtain ⟨u, hrun, hd⟩ := hl.notAcknowledged hn hk hu (accepted_loadList s' l) (loadList_calm hc l) habs
  exact ⟨_, request_of_loadList he hrun, hd⟩

theorem initializeDisplay_notAcknowledged {s : State} {c d : Nat} (h : calm s) (habs : s.receiver = .absent)
    (hr : ¬ outOfRange (.configure c d)) : ∃ u, request (.initializeDisplay c d) s = .next u ∧ NotAcknowledged s u := by
  by_cases hsame : s.bound = true ∧ c = s.clkSel.toNat ∧ d = s.dioSel.toNat
  · obtain ⟨hb, rfl, rfl⟩ := hsame
    exact endsInStop_redriveFrames.request_notAcknowledged counts_redriveFrames (by decide) unanswered_redriveFrames h
      habs (exec_initializeDisplay_ok (configureBody_same hr hb))
  · have hbody := configureBody_bind hr hsame
    obtain ⟨u, hrun, hd⟩ := endsInStop_redriveFrames.notAcknowledged counts_redriveFrames (by decide)
      unanswered_redriveFrames
      ((accepted_loadList s _).bind (BitVec.ofNat 32 c) (BitVec.ofNat 32 d) (initializeFrames ++ []))
      (afterBind_calm (loadList_calm h (_ ++ initializeFrames)) _ _ _) (by simpa [afterBind] using habs)
    refine ⟨_, request_of_runEntries (exec_initializeDisplay_ok hbody) ?_, hd⟩
    rw [runEntries_append, runEntries_bind, ← runEntries_append, hrun]

/-- `CONFIGURE` of any pair sends no byte and leaves the acknowledgment as it was (40 R110). -/
theorem configure_keepsAck {s : State} {c d : Nat} (h : calm s) (hr : ¬ outOfRange (.configure c d)) :
    ∃ u, request (.configure c d) s = .next u ∧ completed u ∧ keepsAck s u ∧ u.nack = false := by
  by_cases hsame : s.bound = true ∧ c = s.clkSel.toNat ∧ d = s.dioSel.toNat
  · obtain ⟨hb, rfl, rfl⟩ := hsame
    have hc := loadList_calm h redriveSeq
    obtain ⟨u, v, hrun, hd, -⟩ := redriveSeq_events hc []
    obtain ⟨hcomp, -, hack, -, hnack, -⟩ := redrive_done (accepted_loadList s _) hc hrun hd rfl
    exact ⟨_, request_of_runEntries (exec_configure_ok (configureBody_same hr hb)) hrun, hcomp, hack, hnack⟩
  · obtain ⟨u, v, hrun, hredrive, hct, hd, -, -, -⟩ :=
      bindSeq_events (loadList_calm h _) (BitVec.ofNat 32 c) (BitVec.ofNat 32 d) []
    obtain ⟨hcomp, -, hack, -, hnack, -⟩ := redrive_done ((accepted_loadList s _).bind _ _ _) hct hredrive hd rfl
    exact ⟨_, request_of_runEntries (exec_configure_ok (configureBody_bind hr hsame)) hrun, hcomp, hack, hnack⟩

theorem writeByte_notAcknowledged {s : State} (h : calm s) (hb : s.bound = true) (habs : s.receiver = .absent)
    (b : Byte) : ∃ u, request (.writeByte b) s = .next u ∧ completed u ∧ u.ackO = false ∧ u.lastAck = false ∧
      u.nack = true := by
  obtain ⟨he, u, tr, r, hreq, hframe, -, htrace, -, hr, hackO, hlast, hnack, -⟩ := writeByteCompletes s b h hb
  obtain ⟨hcomp, -⟩ := hframe
  have hu := (unanswered_byteSeq b).append (l2 := [.update .latchAck]) (unanswered_of_noSamples rfl rfl)
  obtain ⟨v, tr', hrun, hd, hone⟩ := hu _ [] (loadList_calm h _) habs
  obtain rfl := next_unique (request_of_runEntries he hrun) hreq
  obtain rfl : tr' = tr := List.append_cancel_left (hd.trace.symm.trans htrace)
  obtain rfl : r = true := hone r (by simp [hr])
  exact ⟨_, hreq, hcomp, hackO, hlast, hnack⟩

/-- Settles O57: every sample finds DIO released, and reads 1. -/
theorem noReceiverNoAcknowledgment : Obligations.NoReceiverNoAcknowledgment := by
  intro i s hi hin habs hrej
  have h : calm s := ⟨hin, by simp [habs]⟩
  obtain ⟨hrange, hbound⟩ := accepts_of_notRejected hrej
  cases i with
  | configure c d => exact configure_keepsAck h hrange
  | start =>
    obtain ⟨-, u, hreq, ⟨hcomp, -⟩, hack, hnack, -⟩ := startCompletes s h (hbound rfl)
    exact ⟨u, hreq, hcomp, hack, hnack⟩
  | stop =>
    obtain ⟨-, u, _, hreq, ⟨hcomp, -⟩, hack, hnack, -⟩ := stopCompletes s h (hbound rfl)
    exact ⟨u, hreq, hcomp, hack, hnack⟩
  | writeBit v =>
    obtain ⟨-, u, _, _, _, _, hreq, ⟨hcomp, -⟩, hack, hnack, -⟩ := writeBitCompletes s v h (hbound rfl)
    exact ⟨u, hreq, hcomp, hack, hnack⟩
  | writeByte b => exact writeByte_notAcknowledged h (hbound rfl) habs b
  | writeCommand b =>
    exact (endsInStop_cmdFrame b).request_notAcknowledged (counts_cmdFrame b) one_ne_zero (unanswered_cmdFrame b) h habs
      (exec_writeCommand_bound (hbound rfl) b)
  | initializeDisplay c d => exact initializeDisplay_notAcknowledged h habs hrange
  | setBrightness l =>
    exact (endsInStop_cmdFrame _).request_notAcknowledged (counts_cmdFrame _) one_ne_zero (unanswered_cmdFrame _) h habs
      (exec_setBrightness_bound (hbound rfl) l)
  | displayDigit p d =>
    exact ((endsInStop_cmdFrame _).append (endsInStop_addrFrame _ _)).request_notAcknowledged
      ((counts_cmdFrame _).append (counts_addrFrame _ _)) (by decide)
      ((unanswered_cmdFrame _).append (unanswered_addrFrame _ _)) h habs (exec_displayDigit_bound (hbound rfl) hrange)
  | displayNumber v =>
    exact (endsInStop_fourDigitFrames _ _ _ _).request_notAcknowledged (s' := setDigits s (digitsOf v))
      (counts_fourDigitFrames _ _ _ _) (by decide) (unanswered_fourDigitFrames _ _ _ _) h habs
      (exec_displayNumber_bound (hbound rfl) hrange)
  | clearDisplay =>
    exact (endsInStop_fourDigitFrames _ _ _ _).request_notAcknowledged (counts_fourDigitFrames _ _ _ _) (by decide)
      (unanswered_fourDigitFrames _ _ _ _) h habs (exec_clearDisplay_bound (hbound rfl))
  | reserved0 | reserved7 | reservedD | reservedE | reservedF => exact absurd rfl (hrej .illegal)
  | dataAuto | dataFixed | addr _ | displayCtrl _ | segmentData _ => cases hi

end Sys2Proof.Proofs
end

section
/-! PROOFS. What turns a request down and what stops the machine: rejects are ordinary steps, and only an observation of DIO
under a rogue receiver faults (spec 60 R200 to R206; 93 U7, U8). -/

namespace Sys2Proof.Proofs

open Sys2Proof.Machine Sys2Proof.Laws

/-! ### Rejects -/

/-- A request that is not rejected has a line action in its list (40 R126, 41 R158), and so a list. -/
theorem exec_prog_ne_nil {i : Instr} {s t : State} (hi : isRequest i = true) (hrej : ∀ r, ¬ rejectedFor i s r)
    (he : exec i s = .next t) : t.prog ≠ [] := by
  have ne_nil : ∀ {n k e : Nat}, n ≠ 0 → Counts t.prog n k e → t.prog ≠ [] := by
    rintro n k e hn ⟨hacts, -⟩ hnil
    rw [hnil] at hacts
    exact hn hacts.symm
  cases i with
  | configure _ _ | start | stop | writeBit _ | writeByte _ | writeCommand _ | initializeDisplay _ _ | setBrightness _
  | displayDigit _ _ | displayNumber _ | clearDisplay =>
    exact ne_nil (by decide) (requestCounts _ s t _ _ _ he hrej ⟨rfl, rfl, rfl⟩)
  | reserved0 | reserved7 | reservedD | reservedE | reservedF => exact absurd rfl (hrej .illegal)
  | dataAuto | dataFixed | addr _ | displayCtrl _ | segmentData _ => cases hi

/-- Settles O46: a rejected request is `reject` and then `finish`; of any other the list is not empty, and an acceptance
that sets a reject bit loads none. -/
theorem rejectsAsTabled : Obligations.RejectsAsTabled := by
  intro i s hi
  refine ⟨fun r hr => ?_, fun hrej => ?_⟩
  · have he := exec_rejectedFor hr
    refine ⟨he, finishRequest (reject s r), request_rejected he, ?_⟩
    cases r <;> simp [reject, keepsBinding, keepsAck, keepsBus, keepsInputs]
  · obtain ⟨t, he⟩ := exec_next i s
    have hprog := exec_prog_ne_nil hi hrej he
    obtain ⟨-, hquiet⟩ := exec_request_rejects hi he
    exact ⟨t, he, by simpa using mt hquiet hprog, hprog⟩

/-- Settles O47: a reserved op code is a request rejected for the first reason of the table. -/
theorem reservedOpsRejectIllegal : Obligations.ReservedOpsRejectIllegal := by
  intro s i hmem
  have hi : isRequest i = true ∧ isReserved i = true := by
    fin_cases hmem <;> exact ⟨rfl, rfl⟩
  obtain ⟨hrejects, -⟩ := rejectsAsTabled i s hi.1
  obtain ⟨he, u, hreq, hdone, hbusy, hprog, hnack, hrange, hillegal, hunbound, hkeeps⟩ := hrejects .illegal hi.2
  exact ⟨he, u, hreq, hillegal, hrange, hunbound, hnack, hdone, hbusy, hprog, hkeeps⟩

/-! ### The steps that observe DIO -/

/-- The next step is a busy engine's line action or sample: it observes DIO (40 R104). -/
def observesNext (s : State) : Prop :=
  s.rxInbox = none ∧ rstHigh s = false ∧ s.busy = true ∧
    ((∃ a rest, s.prog = .act a :: rest) ∨ ∃ rest, s.prog = .sample :: rest)

theorem step_frame_next {s : State} {bytes : List Byte} (hin : s.rxInbox = some bytes) : ∃ t, step s = .next t := by
  unfold step
  rw [fetch_inbox hin]
  rcases fetchBusByte_cases s bytes with ⟨r, hf⟩ | ⟨i, b, rest, r, -, -, hf, hx⟩ | ⟨-, p, b, b', -, hf, hx⟩
  · exact ⟨_, by rw [hf]⟩
  · exact ⟨_, by rw [hf]; exact hx⟩
  · exact ⟨_, by rw [hf]; exact hx⟩

theorem step_reset {s : State} (hin : s.rxInbox = none) (hrst : rstHigh s = true) :
    step s = .next (resetBlock (takeRst s)) := by
  simp [step, fetch, hin, hrst]

theorem step_ready_next {s : State} (hin : s.rxInbox = none) (hrst : rstHigh s = false) (hbusy : s.busy = false) :
    ∃ t, step s = .next t := by
  cases hm : s.hostMoves with
  | nil => exact ⟨_, step_idle hin hrst hbusy (by simp [reqValid, hm])⟩
  | cons m ms =>
    cases m with
    | pause => exact ⟨_, step_idle hin hrst hbusy (by simp [reqValid, hm])⟩
    | offer op a b =>
      unfold step
      rw [fetch_offer hin hrst hbusy hm]
      exact exec_next _ _

/-- Only a step that observes DIO can answer anything but a next state (60 R206). -/
theorem step_next_or_observes (s : State) : (∃ t, step s = .next t) ∨ observesNext s := by
  cases hin : s.rxInbox with
  | some bytes => exact .inl (step_frame_next hin)
  | none =>
    cases hrst : rstHigh s with
    | true => exact .inl ⟨_, step_reset hin hrst⟩
    | false =>
      cases hbusy : s.busy with
      | false => exact .inl (step_ready_next hin hrst hbusy)
      | true =>
        cases hp : s.prog with
        | nil => exact .inl ⟨_, step_finish hin hrst hbusy hp⟩
        | cons e rest =>
          cases e with
          | act a => exact .inr ⟨hin, hrst, hbusy, .inl ⟨a, rest, hp⟩⟩
          | sample => exact .inr ⟨hin, hrst, hbusy, .inr ⟨rest, hp⟩⟩
          | wait | update _ | bind _ _ => exact .inl ⟨_, step_entry hin hrst hbusy hp⟩

/-- Settles O21: a receiver that keeps 42 R176 answers every observation. -/
theorem stepNeverStopsWithoutRogue : Obligations.StepNeverStopsWithoutRogue := by
  intro s hr
  rcases step_next_or_observes s with hnext | ⟨hin, hrst, hbusy, ⟨a, rest, hp⟩ | ⟨rest, hp⟩⟩
  · exact hnext
  · exact ⟨_, (step_entry hin hrst hbusy hp).trans (actStep_calm (s := takeRst s) hr a rest)⟩
  · exact ⟨_, (step_entry hin hrst hbusy hp).trans (sampleStep_calm (s := takeRst s) hr rest)⟩

/-! ### The rogue receiver -/

theorem heldLevel_eq_some_iff {s : State} {v : Bit} :
    heldLevel s = some v ↔ s.lines.dioOe = false ∧ s.dec.prev = some (true, v) := by
  unfold heldLevel
  split
  · rename_i w ho hp
    simp [ho, hp]
  · rename_i h
    simp only [reduceCtorEq, false_iff, not_and]
    exact h v

/-- The rogue receiver changes DIO while CLK is high where it pulls against the level held (93 U8). -/
theorem changesWhileHigh_iff {s : State} {l : Lines} :
    changesWhileHigh s l ↔ l.dioOe = false ∧ heldLevel s = some (Config.dioPull s.obs) :=
  and_congr_right fun _ => heldLevel_eq_some_iff.symm

theorem not_changesWhileHigh_of_contends {s : State} {l : Lines} (h : contends s l) : ¬ changesWhileHigh s l := by
  obtain ⟨hdriven, -⟩ := h
  rintro ⟨hreleased, -⟩
  simp [hdriven] at hreleased

/-- What an observation of the rogue receiver answers: two faults, each in its own case, and else a level (93 U7, U8). -/
theorem observeDio_rogue {s : State} (hr : s.receiver = .rogue) (l : Lines) (rest : List PStep) :
    (contends s l ∧ observeDio s l rest = .error .envContention) ∨
    (changesWhileHigh s l ∧ observeDio s l rest = .error .envSpuriousCondition) ∨
    (¬ contends s l ∧ ¬ changesWhileHigh s l ∧ observeDio s l rest = .ok (rogueLevel s l)) := by
  rw [changesWhileHigh_iff]
  cases ho : l.dioOe with
  | true => cases hpull : Config.dioPull s.obs <;> simp [observeDio, contends, rogueLevel, hr, ho, hpull]
  | false =>
    have hlevel : releasedLevel s rest = !Config.dioPull s.obs := by simp [releasedLevel, hr]
    cases hheld : heldLevel s with
    | none => simp [observeDio, contends, rogueLevel, hr, ho, hlevel, hheld]
    | some v =>
      cases v <;> cases hpull : Config.dioPull s.obs <;>
        simp [observeDio, contends, rogueLevel, hr, ho, hlevel, hheld, hpull]

/-- An operation that observes DIO with the drivers at `l`: it stops with the fault of the observation, or goes on with the
level read. -/
structure Observes (s : State) (l : Lines) (rest : List PStep) (go : Bit → State) (r : Result) : Prop where
  fault : ∀ f, observeDio s l rest = .error f → r = .fault f
  next : ∀ v, observeDio s l rest = .ok v → r = .next (go v)

theorem Observes.rogue {s : State} {l : Lines} {rest : List PStep} {go : Bit → State} {r : Result}
    (h : Observes s l rest go r) (hr : s.receiver = .rogue) :
    (r = .fault .envContention ↔ contends s l) ∧ (r = .fault .envSpuriousCondition ↔ changesWhileHigh s l) ∧
      (¬ contends s l → ¬ changesWhileHigh s l → r = .next (go (rogueLevel s l))) := by
  rcases observeDio_rogue hr l rest with ⟨hc, ho⟩ | ⟨hch, ho⟩ | ⟨hc, hch, ho⟩
  · simp [h.fault _ ho, hc, not_changesWhileHigh_of_contends hc]
  · have hc : ¬ contends s l := fun hc => not_changesWhileHigh_of_contends hc hch
    simp [h.fault _ ho, hc, hch]
  · simp [h.next _ ho, hc, hch]

theorem actStep_observes (a : LineAction) (rest : List PStep) (s : State) :
    Observes s (applyAction a s.lines) rest (fun v => afterAct a rest v s) (actStep a rest s) where
  fault f ho := by rw [actStep_eq, ho]
  next v ho := by rw [actStep_eq, ho]

theorem sampleStep_observes (rest : List PStep) (s : State) :
    Observes s s.lines rest (fun v => recordSample rest v s) (sampleStep rest s) where
  fault f ho := by rw [sampleStep, ho]
  next v ho := by rw [sampleStep, ho]

/-- Settles O22: the two operations that observe DIO, each by what the rogue receiver answers; no other step faults, and
neither of these does under another receiver. -/
theorem rogueReceiverFaults : Obligations.RogueReceiverFaults := by
  refine ⟨fun s a rest l hr hin hrst hbusy hp hl => ?_, fun s rest hr hin hrst hbusy hp => ?_, fun s f hf => ?_⟩
  · obtain rfl := hl
    obtain ⟨hc, hch, hgo⟩ := (actStep_observes a rest (takeRst s)).rogue hr
    rw [step_entry hin hrst hbusy hp]
    exact ⟨hc, hch, fun h1 h2 => ⟨_, hgo h1 h2, by simp [afterAct], afterAct_lines _ _ _ _, afterAct_trace _ _ _ _⟩⟩
  · obtain ⟨hc, hch, hgo⟩ := (sampleStep_observes rest (takeRst s)).rogue hr
    rw [step_entry hin hrst hbusy hp]
    exact ⟨hc, hch, fun h1 h2 => ⟨_, hgo h1 h2, rfl, rfl, rfl⟩⟩
  · have hstops : ¬ ∃ t, step s = .next t := by simp [hf]
    exact ⟨by_contra fun hr => hstops (stepNeverStopsWithoutRogue s hr), (step_next_or_observes s).resolve_left hstops⟩

end Sys2Proof.Proofs
end

section
/-! PROOFS. Reset wins over everything and abandons the request (spec 70 R220 to R223, R238; 42 R186). -/

namespace Sys2Proof.Proofs

open Sys2Proof.Machine Sys2Proof.Laws

theorem reqReady_reset {s : State} (h : rstHigh s = true) : reqReady s = false := by simp [reqReady, h]

theorem endsRun_reset {s : State} (hin : s.rxInbox = none) (hrst : rstHigh s = true) : endsRun s = true := by
  simp [endsRun, hin, hrst]

/-- Reset puts every element of the block at its value of 10 R40 (70 R220). -/
theorem blockAtReset_resetBlock (s : State) : blockAtReset (resetBlock s) :=
  have hstatus : statusWord (resetBlock s) = statusWord State.reset := rfl
  ⟨rfl, rfl, rfl, rfl, rfl, rfl, rfl, rfl, rfl, hstatus, rfl, rfl⟩

/-- Settles O12: the step is the reset of the block, which abandons a transaction as a rebinding does. -/
theorem resetWinsAndAbandons : Obligations.ResetWinsAndAbandons := by
  intro s hin hrst hwf
  -- The step's level of `rst` is no part of the bus: the transaction of `takeRst s` is that of `s`.
  obtain ⟨htop, hkept⟩ := rebound_of_eq (s := takeRst s) (m := (resetBlock (takeRst s)).receivers) hwf rfl
  exact ⟨reqReady_reset hrst, runSteps_of_ends (endsRun_reset hin hrst), resetBlock (takeRst s), step_reset hin hrst,
    blockAtReset_resetBlock _, rfl, rfl, rfl, rfl, rfl, htop, hkept, abandonTxn_otherReceivers (takeRst s)⟩

end Sys2Proof.Proofs
end

section
/-! PROOFS. `INITIALIZE` from a clean entry, with the reference receiver on the bus (spec 70 R230, 41 R140). -/

namespace Sys2Proof.Proofs

open Sys2Proof.Machine Sys2Proof.Laws

/-- A receiver wholly known: fixed mode, every position blank, on at level 7 (70 R230). -/
def bootedRx : Rx :=
  { mode := some .fixed, disp0 := some 0x00#8, disp1 := some 0x00#8, disp2 := some 0x00#8, disp3 := some 0x00#8
    ctrl := some { on := true, level := 7#3 } }

/-- The frames of `INITIALIZE` leave nothing of a receiver as it was (41 R140). -/
theorem readFrames_initializeFrames (r : Rx) : readFrames (wireFrames (.initializeDisplay 0 0)) r = bootedRx := by
  have hframes : wireFrames (.initializeDisplay 0 0) = digitFrames 0#8 0#8 0#8 0#8 ++ [[ctrlByte 7#3]] := rfl
  rw [hframes, readFrames_append, readFrames_digitFrames]
  exact readFrame_ctrlByte 7#3 _

/-- BOUND and LAST_ACK, and no other status bit (10 R30). -/
theorem statusWord_boundAcked {u : State} (hbusy : u.busy = false) (hbound : u.bound = true) (hack : u.lastAck = true)
    (hnack : u.nack = false) (hrej : anyReject u = false) : statusWord u = 0x06#8 := by
  simp only [anyReject, Bool.or_eq_false_iff] at hrej
  obtain ⟨⟨hrange, hillegal⟩, hunbound⟩ := hrej
  rw [statusWord, hbusy, hbound, hack, hnack, hrange, hillegal, hunbound]
  rfl

/-- With a `Bind` first, the frames of `INITIALIZE` go out on a new bus, idle-high, on which the reference receiver
acknowledges and reads them. -/
theorem runEntries_bindInitialize_boots {s t : State} (ha : Accepted s t) (h : calm t) (hrcv : s.receiver = .reference)
    (hwf : receiversWf t.receivers = true) (c d : Word) :
    ∃ u, runEntries (.bind c d :: redriveSeq ++ initializeFrames) [] t = .next u ∧
      statusWord (finishRequest u) = 0x06#8 ∧ rxOf (finishRequest u) = bootedRx := by
  obtain ⟨w, v, hrun, -, hcalm, hbind, hidle, hrx, -⟩ := bindSeq_events h c d (initializeFrames ++ [])
  obtain ⟨u, hrun', hsent⟩ := sends_initializeFrames w [] (hbind.calm hcalm) hidle
  obtain ⟨tr, hframes⟩ := hsent.list
  have hb := ha.bind c d (initializeFrames ++ [])
  obtain ⟨-, -, -, hkind, -, -⟩ := hb.inputs
  obtain ⟨-, hread, hack, hnack⟩ := hsent.shown (hbind.receiver.trans (hkind.trans hrcv))
    (by rw [hrx]; exact receiversWf_abandonTxn hwf)
  have hrej : anyReject u = false := by
    rw [hsent.anyReject, anyReject, hbind.rejected, hbind.illegal, hbind.unbound, hb.rejected, hb.illegal, hb.unbound]
    rfl
  have hquiet : (finishRequest u).nack = false := by
    rw [finishRequest_nack, hnack, hbind.reqNack, hb.reqNack]
    rfl
  exact ⟨u, runEntries_append_of hrun hrun',
    statusWord_boundAcked rfl (hframes.bound.trans hbind.bound) hack hquiet hrej,
    hread.trans (readFrames_initializeFrames _)⟩

/-- Settles O56: at a clean entry no pair is bound, so any ids make a new bus. -/
theorem initializeBootsTheDisplay : Obligations.InitializeBootsTheDisplay := by
  intro s c d hclean hrcv _ _ hr
  obtain ⟨hwf, hs⟩ := hclean
  have hcalm : calm s := ⟨by rw [hs]; rfl, by simp [hrcv]⟩
  have hbound : s.bound = false := by rw [hs]; rfl
  have he := exec_initializeDisplay_ok (configureBody_bind (s := s) hr (by simp [hbound]))
  obtain ⟨u, hrun, hstatus, hrx⟩ :=
    runEntries_bindInitialize_boots (accepted_loadList s _) (loadList_calm hcalm _) hrcv hwf _ _
  exact ⟨finishRequest u, request_of_runEntries he hrun, hstatus, hrx⟩

end Sys2Proof.Proofs
end

section
/-! PROOFS. The cycles a request takes, by the counts of its step list (spec 70 R234). -/

namespace Sys2Proof.Proofs

open Sys2Proof.Machine Sys2Proof.Laws

/-! ### The cycles of a list -/

/-- Where the receiver takes a frame, its reading of it is all that changes [log 15]. -/
theorem takeFrame_cases {s u : State} (h : takeFrame 2 s = .next u) : u = s ∨ ∃ r, u = finishFrame s r := by
  cases hin : s.rxInbox with
  | none => exact .inl (next_unique h (takeFrame_none hin 2))
  | some bytes =>
    obtain ⟨r, hr⟩ := takeFrame_some hin
    exact .inr ⟨r, next_unique h hr⟩

/-- The receiver takes a frame in no cycle of the block and during no count of its timer [log 15]. -/
theorem takeFrame_timer {s u : State} (h : takeFrame 2 s = .next u) : u.cycles = s.cycles ∧ u.waitCnt = s.waitCnt := by
  rcases takeFrame_cases h with rfl | ⟨r, rfl⟩ <;> exact ⟨rfl, rfl⟩

theorem overheadAt_le (cycles aidx : Nat) : Config.overheadAt cycles aidx ≤ Config.stepOverhead :=
  Nat.le_of_lt_succ (Nat.mod_lt _ (Nat.succ_pos _))

/-- An entry takes its overhead, and a line action its settle wait as well (70 R234). -/
theorem wholeEntry_cycles {e : PStep} {rest : List PStep} {s u : State} (he : e ≠ .wait)
    (h : wholeEntry e rest s = .next u) :
    u.cycles = s.cycles + Config.overheadAt s.cycles s.aidx + countActs [e] * Config.settleCycles := by
  cases e with
  | act a =>
    simp only [wholeEntry, andThen_eq_next, actStep_eq] at h
    obtain ⟨t', ⟨t, hact, htake⟩, hwait⟩ := h
    split at hact <;> cases hact
    cases hwait
    obtain ⟨hcycles, htimer⟩ := takeFrame_timer htake
    simp [hcycles, htimer, afterAct, countActs]
  | wait => exact absurd rfl he
  | sample =>
    simp only [wholeEntry, sampleStep] at h
    split at h <;> cases h
    simp [countActs]
  | update w =>
    cases h
    simp [countActs]
  | bind c d =>
    cases h
    simp [countActs]

/-- A list with no wait of its own takes a settle wait for each line action, at most `STEP_OVERHEAD` for each entry, and
a cycle for `done` (70 R234). -/
theorem runList_cycles {l : List PStep} {s u : State} (hl : PStep.wait ∉ l) (h : runList l s = .next u) :
    ∃ o ≤ l.length * Config.stepOverhead, u.cycles = s.cycles + countActs l * Config.settleCycles + o + 1 := by
  induction l generalizing s with
  | nil =>
    cases h
    exact ⟨0, Nat.zero_le _, by simp [countActs]⟩
  | cons e l ih =>
    simp only [runList, andThen_eq_next] at h
    obtain ⟨t, he, hrest⟩ := h
    simp only [List.mem_cons, not_or] at hl
    obtain ⟨hne, hl⟩ := hl
    obtain ⟨o, ho, hu⟩ := ih hl hrest
    have hov := overheadAt_le s.cycles s.aidx
    have hacts : countActs (e :: l) = countActs [e] + countActs l := countActs_append [e] l
    refine ⟨Config.overheadAt s.cycles s.aidx + o, ?_, ?_⟩
    · rw [List.length_cons, Nat.succ_mul]
      omega
    · rw [hu, wholeEntry_cycles (Ne.symm hne) he, hacts, Nat.add_mul]
      omega

/-! ### The lists of the requests -/

/-- An entry that is counted in the timing of a request: no wait of its own, and no `Bind` (70 R234). -/
def plain : PStep → Bool
  | .act _ => true
  | .sample => true
  | .update _ => true
  | .wait => false
  | .bind _ _ => false

@[simp] theorem all_plain_byteSeq (b : Byte) : (byteSeq b).all plain = true := by
  simp [byteSeq, shiftedBitSeq, bitSeq, ackSeq, plain]

@[simp] theorem all_plain_cmdFrame (b : Byte) : (cmdFrame b).all plain = true := by
  rw [cmdFrame, List.all_append, List.all_append, all_plain_byteSeq]
  rfl

@[simp] theorem all_plain_addrFrame (p : BitVec 2) (pat : Byte) : (addrFrame p pat).all plain = true := by
  rw [addrFrame, List.all_append, List.all_append, List.all_append, all_plain_byteSeq, all_plain_byteSeq]
  rfl

@[simp] theorem all_plain_fourDigitFrames (p0 p1 p2 p3 : Byte) : (fourDigitFrames p0 p1 p2 p3).all plain = true := by
  simp only [fourDigitFrames, List.all_append, all_plain_cmdFrame, all_plain_addrFrame, Bool.and_self]

theorem all_plain_initializeFrames : initializeFrames.all plain = true := by
  simp only [initializeFrames, clearBody, brightnessBody, List.all_append, all_plain_fourDigitFrames, all_plain_cmdFrame,
    Bool.and_self]

/-- A list with no wait of its own and at most one entry that is no action, sample or update. -/
def Timed (l : List PStep) : Prop :=
  PStep.wait ∉ l ∧ l.length ≤ countActs l + countSamples l + countUpdates l + 1

theorem length_of_plain {l : List PStep} (h : l.all plain = true) :
    l.length = countActs l + countSamples l + countUpdates l := by
  induction l with
  | nil => rfl
  | cons e l ih =>
    rw [List.all_cons, Bool.and_eq_true] at h
    obtain ⟨he, hl⟩ := h
    have hlength := ih hl
    cases e with
    | act _ | sample | update _ =>
      simp only [List.length_cons, countActs, countSamples, countUpdates]
      omega
    | wait | bind _ _ => cases he

theorem wait_not_mem_of_plain {l : List PStep} (h : l.all plain = true) : PStep.wait ∉ l := fun hw =>
  nomatch List.all_eq_true.1 h _ hw

theorem timed_of_plain {l : List PStep} (h : l.all plain = true) : Timed l :=
  ⟨wait_not_mem_of_plain h, by rw [length_of_plain h]; exact Nat.le_succ _⟩

theorem timed_bind {l : List PStep} (h : l.all plain = true) (c d : Word) : Timed (.bind c d :: l) := by
  refine ⟨by simp [wait_not_mem_of_plain h], ?_⟩
  rw [List.length_cons, length_of_plain h]
  exact Nat.le_refl _

/-- The list of `CONFIGURE`, with frames after it or none, has one `Bind` at most (40 R110). -/
theorem configureBody_timed {s : State} {c d : Nat} (hr : ¬ outOfRange (.configure c d)) :
    ∃ l, configureBody s c d = .ok l ∧ ∀ frames : List PStep, frames.all plain = true → Timed (l ++ frames) := by
  by_cases hsame : s.bound = true ∧ c = s.clkSel.toNat ∧ d = s.dioSel.toNat
  · obtain ⟨hb, rfl, rfl⟩ := hsame
    exact ⟨_, configureBody_same hr hb, fun frames h => timed_of_plain h⟩
  · exact ⟨_, configureBody_bind hr hsame, fun frames h => timed_bind (l := redriveSeq ++ frames) h _ _⟩

theorem Timed.prog_of_exec {i : Instr} {s t : State} {l : List PStep} (hl : Timed l)
    (hx : exec i s = .next (loadList s l)) (he : exec i s = .next t) : Timed t.prog := by
  obtain rfl := next_unique hx he
  exact hl

/-- Every request's list can be timed by its counts. -/
theorem exec_prog_timed {i : Instr} {s t : State} (hi : isRequest i = true) (he : exec i s = .next t) :
    Timed t.prog := by
  by_cases hrej : ∃ r, rejectedFor i s r
  · obtain ⟨r, hr⟩ := hrej
    obtain rfl := next_unique (exec_rejectedFor hr) he
    cases r <;> exact timed_of_plain rfl
  obtain ⟨hrange, hbound⟩ := accepts_of_notRejected (not_exists.1 hrej)
  cases i with
  | configure c d =>
    obtain ⟨l, hbody, hl⟩ := configureBody_timed (s := s) hrange
    exact Timed.prog_of_exec (List.append_nil l ▸ hl [] rfl) (exec_configure_ok hbody) he
  | initializeDisplay c d =>
    obtain ⟨l, hbody, hl⟩ := configureBody_timed (s := s) hrange
    exact (hl _ all_plain_initializeFrames).prog_of_exec (exec_initializeDisplay_ok hbody) he
  | start => exact (timed_of_plain rfl).prog_of_exec (exec_start_bound (hbound rfl)) he
  | stop => exact (timed_of_plain rfl).prog_of_exec (exec_stop_bound (hbound rfl)) he
  | writeBit v => exact (timed_of_plain rfl).prog_of_exec (exec_writeBit_bound (hbound rfl) v) he
  | writeByte b =>
    exact (timed_of_plain (by simp [plain])).prog_of_exec (exec_writeByte_bound (hbound rfl) b) he
  | writeCommand b =>
    exact (timed_of_plain (all_plain_cmdFrame b)).prog_of_exec (exec_writeCommand_bound (hbound rfl) b) he
  | setBrightness l =>
    exact (timed_of_plain (all_plain_cmdFrame _)).prog_of_exec (exec_setBrightness_bound (hbound rfl) l) he
  | displayDigit p d =>
    exact (timed_of_plain (by simp)).prog_of_exec (exec_displayDigit_bound (hbound rfl) hrange) he
  | displayNumber v =>
    obtain rfl := next_unique (exec_displayNumber_bound (hbound rfl) hrange) he
    exact timed_of_plain (all_plain_fourDigitFrames _ _ _ _)
  | clearDisplay =>
    exact (timed_of_plain (all_plain_fourDigitFrames _ _ _ _)).prog_of_exec (exec_clearDisplay_bound (hbound rfl)) he
  | reserved0 | reserved7 | reservedD | reservedE | reservedF => exact absurd ⟨.illegal, rfl⟩ hrej
  | dataAuto | dataFixed | addr _ | displayCtrl _ | segmentData _ => cases hi

/-- Settles O60: acceptance and `done` take one cycle each, and the list between them its settle waits and overheads. -/
theorem requestTiming : Obligations.RequestTiming := by
  intro s t u op a b he hu
  have hi := isRequest_decodeRequest op a b
  obtain ⟨-, -, -, -, -, -, hcycles, -⟩ := exec_request_frame hi he
  rw [latchRequest_cycles] at hcycles
  rw [acceptAndRun, request, he, andThen_next] at hu
  obtain ⟨hwait, hlength⟩ := exec_prog_timed hi he
  obtain ⟨o, ho, hu⟩ := runList_cycles hwait hu
  have hover : o ≤ (countActs t.prog + countSamples t.prog + 2 + countUpdates t.prog) * Config.stepOverhead :=
    ho.trans (Nat.mul_le_mul_right _ (by omega))
  omega

end Sys2Proof.Proofs
end
